-- ==== Sys2Proof/Word.lean ====
section
/-! DEFINITION. The word types of the core, and the shape of its memories.

All quantities are unsigned and bit 0 is the least significant bit (00_scope R6). -/

namespace Sys2Proof

/-- A byte: a message cell, a blue intensity (00_scope R6). -/
abbrev Byte := BitVec 8

/-- A host-port word, and a 32-bit register (44_host_port R150, 10_state R15 to R18). -/
abbrev Word := BitVec 32

/-- A grid dimension or a coordinate. The spec gives these XW or YW bits with XW, YW between 1 and 16
(00_scope R5): they are held in 16 bits whose upper bits are zero (log entry 10). -/
abbrev Dim := BitVec 16

/-- A bit index within a byte, 0 to 7 (10_state R25). -/
abbrev BitIndex := BitVec 3

/-- A sparse memory: (address, unit) pairs, addresses strictly rising, none equal to what an unlisted
address reads as. -/
abbrev Cells (α : Type) := List (Nat × α)

/-- A byte memory: the message buffers (10_state R13, R14). -/
abbrev Memory := List Host.Cell

end Sys2Proof
end

