-- ==== Sys2Proof/Config.lean ====
section
/-! DEFINITION. What an implementation fixes (the four parameters of 00_scope R5) and the free values.

The constants of 00_scope R4 are no parameters: they stand in Machine/Operands.lean. -/

namespace Sys2Proof

/-- The parameters the source leaves open (00_scope R5, 93 U12). "The model takes each as an argument":
a state carries them (State.cfg) and no step changes them (10_state R27; log entry 4). -/
structure Config where
  /-- Width in bits of the grid width and of the column counter. -/
  xw : Nat
  /-- Width in bits of the grid height and of the row counter. -/
  yw : Nat
  /-- Capacity in bytes of each message buffer. -/
  mcap : Nat
  /-- Width in bits of a pixel's data that is not the blue byte. -/
  otherw : Nat
deriving DecidableEq, Repr

/-- The reference instance of 00_scope R5. "It is not normative": only State.reset uses it (log entry 4). -/
def Config.reference : Config := ⟨16, 16, 1024, 24⟩

/-- FREE VALUE. What the n-th host read of a never-written message cell returns: "any value, not assumed
stable between reads" (93 U1, U2). It has no body, so nothing can be proved about it (log entry 6). -/
opaque Config.freeByte : Nat → Byte

end Sys2Proof
end

