-- ==== Sys2Proof/Syntax.lean ====
section
/-! DEFINITION. The commands of the core, host addresses, pixel memory as the host presents it, and the
host's moves (the statements of the script notation, 30_encoding R74). -/

namespace Sys2Proof

/-- The two commands: one constructor per row of opcode_table.json (30_encoding R62). A command has no
operand fields (R61): ENCODE takes its operands from MLEN, MSGIN and GRID, DECODE from GRID. -/
inductive Instr where
  /-- ENCODE, command word 0x00000001 (42_encode R110). -/
  | encode
  /-- DECODE, command word 0x00000002 (43_decode R130). -/
  | decode
deriving DecidableEq, Repr

/-- Format HADDR, a host address (30_encoding R60). -/
structure HostAddr where
  /-- 0 REG, 1 MSGIN, 2 MSGOUT, 3 reserved. -/
  space : BitVec 2
  /-- Register number or cell index. -/
  index : BitVec 32
deriving DecidableEq, Repr

/-- The eight registers of space REG (20_memory R51). -/
inductive RegName where
  | cmd | status | width | height | mlen | olen | avail | req
deriving DecidableEq, Repr

/-- A pixel record (10_state R12). -/
structure Pixel where
  /-- The blue-channel intensity. -/
  blue : Byte
  /-- Everything else the pixel has: OTHERW opaque bits, as a number below 2^OTHERW (log entry 12). -/
  other : Nat
deriving DecidableEq, Repr

/-- What an unlisted pixel of a grid reads as. Every pixel of a grid always holds a defined value
(10_state R11), so a grid is a total table; this is only which entries the list leaves out (log entry 11). -/
def Pixel.blank : Pixel := ⟨0, 0⟩

/-- Pixel memory GRID: its own dimensions and one pixel record for every in-bounds coordinate pair
(10_state R11). Pixel (x, y) is listed under its row-major linear index y * W + x (20_memory R41). -/
structure Grid where
  w : Dim
  h : Dim
  pix : Cells Pixel
deriving DecidableEq, Repr

/-- The host's moves (44_host_port R150, R151, R159; 70_reset R200; script notation 30_encoding R74). -/
inductive HostMove where
  /-- RESET: apply the reset input (70_reset R200). -/
  | reset
  /-- RD: a host-port read (44_host_port R150). -/
  | read (a : HostAddr)
  /-- WR: a host-port write of a 32-bit value (44_host_port R151). -/
  | write (a : HostAddr) (v : Word)
  /-- GRID: replace pixel memory entirely, by means outside the core (44_host_port R159). -/
  | loadGrid (g : Grid)
  /-- Write the blue byte of pixel (x, y) by means outside the core (44_host_port R159). -/
  | writeBlue (x y : Nat) (b : Byte)
  /-- Write the other field of pixel (x, y) by means outside the core (44_host_port R159). -/
  | writeOther (x y : Nat) (o : Nat)
  /-- Read pixel (x, y) by means outside the core (44_host_port R159). -/
  | readPixel (x y : Nat)
  /-- The host makes no access: the engine takes one step (log entry 3). -/
  | engineTurn
  /-- WAIT: let the engine step until ST is not BUSY (44_host_port R157, 30_encoding R74). -/
  | wait
deriving DecidableEq, Repr

/-- What the host gets back from a move (44_host_port R150, R151, R159). -/
inductive Reply where
  /-- A write was performed. -/
  | ok
  /-- A read was performed and returned this word. -/
  | data (v : Word)
  /-- The access was refused and nothing changed. A refused read returns no value (93 U13). -/
  | err
  /-- The pixel the host read by its own means. -/
  | pixel (p : Pixel)
deriving DecidableEq, Repr

end Sys2Proof
end

