-- ==== Sys2Proof/WellFormed.lean ====
section
/-! DEFINITION. Well-formedness checks, each a Bool or a decidable proposition. -/

namespace Sys2Proof

/-- The constraints of 00_scope R5 on the parameters. -/
abbrev Config.wf (c : Config) : Prop :=
  1 ≤ c.xw ∧ c.xw ≤ 16 ∧ 1 ≤ c.yw ∧ c.yw ≤ 16 ∧ 1 ≤ c.mcap ∧ c.mcap ≤ 2 ^ 31 - 1

/-- A command has no operand fields (30_encoding R61), so every command is well formed. -/
def Instr.wf : Instr → Bool
  | .encode => true
  | .decode => true

/-- The addresses are strictly rising, the first above every `lo`. -/
def cellsRising {α : Type} : Option Nat → Cells α → Bool
  | _, [] => true
  | none, (k, _) :: m => cellsRising (some k) m
  | some lo, (k, _) :: m => decide (lo < k) && cellsRising (some k) m

/-- The canonical form: addresses strictly rising, and no entry equal to `d`, what an unlisted address
reads as (`none`: an unlisted address holds no value). -/
def cellsWf {α : Type} [DecidableEq α] (d : Option α) (m : Cells α) : Bool :=
  cellsRising none m && m.all fun e => decide (some e.2 ≠ d)

/-- What an address of a message buffer that is not listed reads as: no value, since a cell that nothing
has written since power-up is unspecified (93 U1, U2: "keep each cell as an optional byte"). -/
def Memory.unlisted : Option Byte := none

/-- A message buffer of `cap` cells in canonical form (10_state R13, R14). -/
def Memory.wf (cap : Nat) (m : Memory) : Bool :=
  cellsWf Memory.unlisted m && m.all fun e => decide (e.1 < cap)

/-- The pixel list of a W by H grid: canonical form, every index below W * H, every other field OTHERW bits. -/
def Grid.pixWf (otherw n : Nat) (m : Cells Pixel) : Bool :=
  cellsWf (some Pixel.blank) m && m.all fun e => decide (e.1 < n) && decide (e.2.other < 2 ^ otherw)

/-- A grid that this instance can be presented with: W an XW-bit number, H a YW-bit number (10_state R10;
92 D1: wider or taller grids "cannot be presented at all"). W = 0 and H = 0 are presentable: they are what
BAD_DIM catches (40_pixelgrid R80, 60_exceptions R176). -/
abbrev Grid.wf (c : Config) (g : Grid) : Prop :=
  g.w.toNat < 2 ^ c.xw ∧ g.h.toNat < 2 ^ c.yw ∧ Grid.pixWf c.otherw (g.w.toNat * g.h.toNat) g.pix = true

end Sys2Proof
end

