-- ==== Sys2Proof/Decode.lean ====
section
/-! DEFINITION. Decoding and encoding of command words and host addresses.

A command is ONE 32-bit word and all 32 bits take part in decoding (30_encoding R61, R75). It reaches the
core whole, as the value of a write to REG index 0, so it has no byte order (20_memory R45; log entry 1). -/

namespace Sys2Proof

/-- Why a command word is no command. -/
inductive Reject where
  /-- The word is neither 1 nor 2 (30_encoding R63). -/
  | illegalCommand
deriving DecidableEq, Repr

/-- The decoder's answer: total on every word. -/
inductive Decoded where
  | instr (i : Instr)
  | rejected (r : Reject)
deriving DecidableEq, Repr

/-- Decode a command word (30_encoding R62, R63): every 32-bit value is ENCODE, DECODE or illegal. -/
def decode (w : Word) : Decoded :=
  if w = 0x00000001#32 then .instr .encode
  else if w = 0x00000002#32 then .instr .decode
  else .rejected .illegalCommand

/-- The decoded command as an option. -/
def Decoded.toOption : Decoded → Option Instr
  | .instr i => some i
  | .rejected _ => none

/-- The instruction the decoder reads from a row of opcode_table.json whose bits are `w`. A command word has
32 bits; a number of more bits is no command word. -/
def decodeTableWord (nbits w : Nat) : Option Instr :=
  if nbits ≤ 32 ∧ w < 2 ^ 32 then (decode (BitVec.ofNat 32 w)).toOption else none

/-- Encode a command: its operation code (30_encoding R62). -/
def encode : Instr → Word
  | .encode => 0x00000001#32
  | .decode => 0x00000002#32

/-- The flat 34-bit form of a host address, space in the two most significant bits (30_encoding R60). -/
def addrToBus (a : HostAddr) : BitVec 34 := a.space ++ a.index

/-- The host address a flat 34-bit bus value stands for (30_encoding R60). -/
def addrOfBus (b : BitVec 34) : HostAddr := ⟨b.extractLsb' 32 2, b.extractLsb' 0 32⟩

/-- The register number of a register name (20_memory R51). -/
def regIndex : RegName → Nat
  | .cmd => 0
  | .status => 1
  | .width => 2
  | .height => 3
  | .mlen => 4
  | .olen => 5
  | .avail => 6
  | .req => 7

/-- The register with this number; 8 and above are unmapped (20_memory R51). -/
def regOfIndex : Nat → Option RegName
  | 0 => some .cmd
  | 1 => some .status
  | 2 => some .width
  | 3 => some .height
  | 4 => some .mlen
  | 5 => some .olen
  | 6 => some .avail
  | 7 => some .req
  | _ + 8 => none

/-- The host address of a register (20_memory R51). -/
def regAddr (r : RegName) : HostAddr := ⟨0, BitVec.ofNat 32 (regIndex r)⟩

/-- The host address of message input cell i. -/
def msginAddr (i : Nat) : HostAddr := ⟨1, BitVec.ofNat 32 i⟩

/-- The host address of message output cell i. -/
def msgoutAddr (i : Nat) : HostAddr := ⟨2, BitVec.ofNat 32 i⟩

end Sys2Proof
end

