-- ==== Sys2Proof/Machine/State.lean ====
section
/-! DEFINITION. The state of the machine (10_state R10), the reasons a step can stop, and the state after reset. -/

namespace Sys2Proof.Machine

open Sys2Proof

/-- The sequencer state ST (10_state R20). Its 3-bit code is Flags.seqCode. -/
inductive SeqState where
  | idle | encBusy | decBusy | encDone | capExceeded | foundTerminator | exhausted | faulted
deriving DecidableEq, Repr

/-- The fault cause FCAUSE (30_encoding R66: "values 6 to 15 are never produced"). Its 4-bit code is
Flags.causeCode. -/
inductive FaultCause where
  | none | illegalCmd | badDim | badMlen | outFull | gridBounds
deriving DecidableEq, Repr

/-- The state. The first block is the spec's (10_state R10, the complete list); `cfg` holds the parameters
(00_scope R5), which no step changes; the last block is the model's own (INVENTORY, State). -/
structure State where
  /-- The parameters XW, YW, MCAP, OTHERW: an argument of the model, not machine state (log entry 4). -/
  cfg : Config
  /-- Pixel memory (R11, R12). -/
  grid : Grid
  /-- Message input buffer (R13). -/
  msgin : Memory
  /-- Message output buffer (R14). -/
  msgout : Memory
  /-- Message length for ENCODE (R15). -/
  mlen : Word
  /-- Number of decoded bytes (R16). -/
  olen : Word
  /-- Available capacity in bytes (R17). -/
  avail : Word
  /-- Required bytes (R18). -/
  req : Word
  /-- Latched grid width, XW bits (R19). -/
  wreg : Dim
  /-- Latched grid height, YW bits (R19). -/
  hreg : Dim
  /-- Sequencer state ST (R20). -/
  st : SeqState
  /-- Fault cause FCAUSE (R21). -/
  fcause : FaultCause
  /-- Column of the pixel the next scan step visits, XW bits (R24). -/
  x : Dim
  /-- Row of the pixel the next scan step visits, YW bits (R24). -/
  y : Dim
  /-- Payload byte index of ENCODE (R25). -/
  byteIdx : Word
  /-- Bit index within the current byte (R25). -/
  bitIdx : BitIndex
  /-- The decoder's running byte (R26). -/
  curByte : Byte
  /-- MODEL'S OWN: the host's coming moves, oldest first (log entries 2, 3). -/
  script : List HostMove
  /-- MODEL'S OWN: what the host has got back, newest first (log entry 17). -/
  replies : List Reply
  /-- MODEL'S OWN: how many free values have been drawn (log entry 6). -/
  freeCtr : Nat
deriving DecidableEq, Repr

/-- Why a step has no next state: the spec calls what follows undefined. (The faults of 60_exceptions R181
are NOT these: their entry is described, so they are next states with ST = FAULT.) -/
inductive Fault where
  /-- Raised by a host move that reads or writes GRID while ST is BUSY: "undefined" (93 U7, 70_reset R207),
  and R159 gives the host no such move. SAFE: the model stops where the outcome is undefined. -/
  | gridRace
deriving DecidableEq, Repr

/-- Why the model gives a step no meaning. -/
inductive Refusal where
  /-- Raised by exec's arm of a command that has no meaning yet. No arm raises it now. SAFE. -/
  | notModelled (mnemonic : String)
  /-- Raised by the START step of an ENCODE that would enter ENC_BUSY while some cell of MSGIN[0 .. MLEN-1]
  has never been written since power-up, "no defined result" (60_exceptions R191); and by an ENCODE scan step
  that finds no payload byte, which no run reaches (10_state R28 (c); log entry 14). SAFE: the hardware goes
  on with unspecified bytes, the model stops. -/
  | unwrittenMessage
  /-- Raised by a host move that names a pixel outside the grid, or presents a grid or a pixel value that this
  instance cannot hold (10_state R11, R12; 92 D1). SAFE: there is no such move (log entry 9). -/
  | noSuchHostMove
deriving DecidableEq, Repr

/-- The answer of one step. -/
abbrev StepResult := Host.Outcome State Fault Refusal

/-- The grid of the state after reset. Reset does not touch GRID, whose contents are "whatever the host put
there" (10_state R29). DESIGN CHOICE (unsafe, log entry 5): the smallest grid the data model allows
(R11: W ≥ 1, H ≥ 1), its one pixel blank. -/
def Grid.atReset : Grid := ⟨1, 1, []⟩

/-- The state right after the first reset after power-up (10_state R29, 70_reset R200): every register 0,
ST = IDLE, FCAUSE = NONE; no message cell has been written (U1, U2; log entry 6); the reference instance
(log entry 4). -/
def State.reset : State where
  cfg := Config.reference
  grid := Grid.atReset
  msgin := []
  msgout := []
  mlen := 0
  olen := 0
  avail := 0
  req := 0
  wreg := 0
  hreg := 0
  st := .idle
  fcause := .none
  x := 0
  y := 0
  byteIdx := 0
  bitIdx := 0
  curByte := 0
  script := []
  replies := []
  freeCtr := 0

end Sys2Proof.Machine
end

