-- ==== Sys2Proof/Machine/Flags.lean ====
section
/-! DEFINITION. The core's flags: the three predicates of ST (10_state R30), the codes of ST and FCAUSE, and
the STATUS view. The core has no condition codes. -/

namespace Sys2Proof.Machine

open Sys2Proof

/-- BUSY: ST is ENC_BUSY or DEC_BUSY (10_state R30). -/
def busy (s : State) : Bool :=
  match s.st with
  | .encBusy => true
  | .decBusy => true
  | .idle => false
  | .encDone => false
  | .capExceeded => false
  | .foundTerminator => false
  | .exhausted => false
  | .faulted => false

/-- READY: ST is IDLE, ENC_DONE, CAP_EXCEEDED, FOUND_TERMINATOR or EXHAUSTED (10_state R30). -/
def ready (s : State) : Bool :=
  match s.st with
  | .idle => true
  | .encDone => true
  | .capExceeded => true
  | .foundTerminator => true
  | .exhausted => true
  | .encBusy => false
  | .decBusy => false
  | .faulted => false

/-- FAULTED: ST = FAULT (10_state R30). -/
def faulted (s : State) : Bool :=
  match s.st with
  | .faulted => true
  | .idle => false
  | .encBusy => false
  | .decBusy => false
  | .encDone => false
  | .capExceeded => false
  | .foundTerminator => false
  | .exhausted => false

/-- The 3-bit values of ST (30_encoding R65). -/
def seqCode : SeqState → BitVec 3
  | .idle => 0
  | .encBusy => 1
  | .decBusy => 2
  | .encDone => 3
  | .capExceeded => 4
  | .foundTerminator => 5
  | .exhausted => 6
  | .faulted => 7

/-- The 4-bit values of FCAUSE (30_encoding R66). -/
def causeCode : FaultCause → BitVec 4
  | .none => 0
  | .illegalCmd => 1
  | .badDim => 2
  | .badMlen => 3
  | .outFull => 4
  | .gridBounds => 5

/-- STATUS = (24 zeros, FCAUSE, one zero, ST): a view, no storage of its own (10_state R22, 30_encoding R64). -/
def statusWord (s : State) : Word :=
  (0#24 ++ causeCode s.fcause ++ 0#1 ++ seqCode s.st : BitVec 32)

end Sys2Proof.Machine
end

