-- ==== Sys2Proof/Machine/Operands.lean ====
section
/-! DEFINITION. The operands of the two commands: the bitstream primitives of 41_bitstream (payload view, bit
extraction and insertion, the shift-in, the position advances, the capacity arithmetic), and the closed forms
of packing and unpacking. None of them has state of its own and none can fault. -/

namespace Sys2Proof.Machine

open Sys2Proof

/-! ## Constants (00_scope R4) -/

/-- SENTINEL, the termination marker. -/
def sentinel : Byte := 0x7E#8

/-- LSB_CLEAR, the mask that clears bit 0 of the blue byte. -/
def lsbClear : Byte := 0xFE#8

/-! ## Cells of a sparse memory -/

/-- The unit listed at address `a`, if one is. -/
def cellsFind {α : Type} : Cells α → Nat → Option α
  | [], _ => none
  | (k, v) :: m, a => if k = a then some v else cellsFind m a

/-- What address `a` reads as when an unlisted address reads as `d`. -/
def cellsRead {α : Type} (d : α) (m : Cells α) (a : Nat) : α := (cellsFind m a).getD d

/-! ## Bits (41_bitstream R91 to R95) -/

/-- A bit as the byte 0 or 1. -/
def bitByte (b : Bool) : Byte := if b then 1#8 else 0#8

/-- ExtractBit(blue) = blue & 1 (R94). -/
def extractBit (blue : Byte) : Bool := (blue &&& 1#8) == 1#8

/-- PayloadBit of the payload byte p: (p >> (7 - j)) & 1; j = 0 selects the most significant bit (R91). -/
def payloadBit (p : Byte) (j : Nat) : Bool := extractBit (p >>> (7 - j))

/-- EmbedBit(blue, bit) = (blue & 0xFE) | bit (R93). -/
def embedBit (blue : Byte) (bit : Bool) : Byte := (blue &&& lsbClear) ||| bitByte bit

/-- ShiftIn(cur, bit) = ((cur << 1) | bit) mod 256 (R95). -/
def shiftIn (cur : Byte) (bit : Bool) : Byte := (cur <<< 1) ||| bitByte bit

/-! ## The payload (41_bitstream R90, R92) -/

/-- payload[i]: MSGIN[i] below MLEN, the sentinel at MLEN. There is none above MLEN ("never evaluated"), and
none where the message cell has never been written since power-up (60_exceptions R191). -/
def payload (s : State) (i : Nat) : Option Byte :=
  if i < s.mlen.toNat then cellsFind s.msgin i
  else if i = s.mlen.toNat then some sentinel
  else none

/-- StreamBit(n) = PayloadBit(n div 8, n mod 8) (R92). -/
def streamBit (s : State) (n : Nat) : Option Bool := (payload s (n / 8)).map fun p => payloadBit p (n % 8)

/-- Every cell of MSGIN[0 .. MLEN-1] has been written since power-up (60_exceptions R191). -/
def messageWritten (s : State) : Bool := (List.range s.mlen.toNat).all fun i => (cellsFind s.msgin i).isSome

/-! ## Positions (20_memory R41; 41_bitstream R96 to R98) -/

/-- The row-major linear index of pixel (x, y) in a grid of width w (20_memory R41). -/
def linearIndex (w x y : Nat) : Nat := y * w + x

/-- ScanNext(x, y): x runs fastest (R96). -/
def scanNext (w x y : Nat) : Nat × Nat := if x + 1 = w then (0, y + 1) else (x + 1, y)

/-- IsLast(x, y): x = W - 1 and y = H - 1 (R97). -/
def isLast (w h x y : Nat) : Bool := decide (x + 1 = w) && decide (y + 1 = h)

/-- BitNext(byteidx, bitidx) (R98): "reaching 8" is detected as the value 7 before the increment. -/
def bitNext (byteIdx : Word) (bitIdx : BitIndex) : Word × BitIndex :=
  if bitIdx = 7#3 then (byteIdx + 1#32, 0#3) else (byteIdx, bitIdx + 1#3)

/-! ## Capacity arithmetic (41_bitstream R99): over the naturals, exact (00_scope R8) -/

/-- CapacityBits = W * H. -/
def capacityBits (w h : Nat) : Nat := w * h

/-- RequiredBytes = L + 1. -/
def requiredBytes (l : Nat) : Nat := l + 1

/-- RequiredBits = 8 * (L + 1). -/
def requiredBits (l : Nat) : Nat := 8 * requiredBytes l

/-- AvailBytes = (W * H) div 8, the floor (90 C4). -/
def availBytes (w h : Nat) : Nat := capacityBits w h / 8

/-- Exceeded = RequiredBits > CapacityBits, strict. -/
def capacityExceeded (w h l : Nat) : Bool := decide (requiredBits l > capacityBits w h)

/-! ## Closed forms (41_bitstream R102, R103; 30_encoding R70). No step rule uses them. -/

/-- The byte assembled from eight bits, first bit most significant: the sum of f j * 2^(7 - j) (R70, R102). -/
def byteOfBits (f : Nat → Bool) : Byte :=
  BitVec.ofNat 8 ((List.range 8).map fun j => (f j).toNat * 2 ^ (7 - j)).sum

/-- Pack(p): the n-th bit is (p[n div 8] >> (7 - n mod 8)) & 1 (R102). -/
def pack (p : List Byte) : List Bool :=
  (List.range (8 * p.length)).map fun n => payloadBit (p.getD (n / 8) 0#8) (n % 8)

/-- Unpack(b): N div 8 bytes; the last N mod 8 bits contribute to no byte (R102). -/
def unpack (b : List Bool) : List Byte :=
  (List.range (b.length / 8)).map fun k => byteOfBits fun j => b.getD (8 * k + j) false

/-- The blue LSB of the pixel with row-major linear index n (R103, 30_encoding R70). -/
def blueLsb (g : Grid) (n : Nat) : Bool := extractBit (cellsRead Pixel.blank g.pix n).blue

/-- Lsbs(GRID): the W * H blue LSBs in row-major order (R103). -/
def lsbs (g : Grid) : List Bool := (List.range (g.w.toNat * g.h.toNat)).map (blueLsb g)

/-- B(k): the byte the decoder recovers from stream bits 8k to 8k + 7 (30_encoding R70). -/
def recoveredByte (g : Grid) (k : Nat) : Byte := byteOfBits fun j => blueLsb g (8 * k + j)

end Sys2Proof.Machine
end

