-- ==== Sys2Proof/Machine/Ops.lean ====
section
/-! DEFINITION. The named operations over memory and registers: writing a memory, the PixelGrid accessor
(40_pixelgrid R80 to R87), the register updates, fault entry and reset. -/

namespace Sys2Proof.Machine

open Sys2Proof

/-! ## Writing a memory, in canonical form -/

/-- List `v` at address `a`, keeping the addresses rising. -/
def cellsPut {α : Type} : Cells α → Nat → α → Cells α
  | [], a, v => [(a, v)]
  | (k, u) :: m, a, v =>
    if a < k then (a, v) :: (k, u) :: m
    else if a = k then (a, v) :: m
    else (k, u) :: cellsPut m a v

/-- Take address `a` out of the list. -/
def cellsDrop {α : Type} : Cells α → Nat → Cells α
  | [], _ => []
  | (k, u) :: m, a => if k = a then cellsDrop m a else (k, u) :: cellsDrop m a

/-- Write `v` at address `a`, where an unlisted address reads as `d`: writing that value removes the entry. -/
def cellsWrite {α : Type} [DecidableEq α] (d : Option α) (m : Cells α) (a : Nat) (v : α) : Cells α :=
  if d = some v then cellsDrop m a else cellsPut m a v

/-- Write one message cell. -/
def memWrite (m : Memory) (i : Nat) (b : Byte) : Memory := cellsWrite Memory.unlisted m i b

/-! ## Pixel memory: the PixelGrid accessor -/

/-- (x, y) names a pixel of the grid (10_state R11, 20_memory R48). -/
def inBounds (g : Grid) (x y : Nat) : Bool := decide (x < g.w.toNat) && decide (y < g.h.toNat)

/-- GRID.pix[y][x], for an in-bounds pair. -/
def pixelAt (g : Grid) (x y : Nat) : Pixel := cellsRead Pixel.blank g.pix (linearIndex g.w.toNat x y)

/-- GRID.pix[y][x] <- p. -/
def putPixel (g : Grid) (x y : Nat) (p : Pixel) : Grid :=
  { g with pix := cellsWrite (some Pixel.blank) g.pix (linearIndex g.w.toNat x y) p }

/-- Width() (40_pixelgrid R80). -/
def width (g : Grid) : Dim := g.w

/-- Height() (40_pixelgrid R81). -/
def height (g : Grid) : Dim := g.h

/-- GetBlue(x, y) (40_pixelgrid R82); `none` where it raises Fault(GRID_BOUNDS) (R84). -/
def getBlue (g : Grid) (x y : Nat) : Option Byte :=
  if inBounds g x y then some (pixelAt g x y).blue else none

/-- SetBlue(x, y, b) (40_pixelgrid R83): replaces the blue byte and nothing else; `none` where it raises
Fault(GRID_BOUNDS), and then nothing is written (R84). -/
def setBlue (g : Grid) (x y : Nat) (b : Byte) : Option Grid :=
  if inBounds g x y then some (putPixel g x y { pixelAt g x y with blue := b }) else none

/-! ## Register updates -/

/-- An XW-bit register keeps the low XW bits (00_scope R6; 41_bitstream R101: never more in a run). -/
def fitDim (bits n : Nat) : Dim := BitVec.ofNat 16 (n % 2 ^ bits)

/-- ST <- v. -/
def setSt (v : SeqState) (s : State) : State := { s with st := v }

/-- (X, Y) <- p. -/
def setXY (p : Nat × Nat) (s : State) : State := { s with x := fitDim s.cfg.xw p.1, y := fitDim s.cfg.yw p.2 }

/-- (BYTEIDX, BITIDX) <- p. -/
def setBitPos (p : Word × BitIndex) (s : State) : State := { s with byteIdx := p.1, bitIdx := p.2 }

/-- WREG <- Width(); HREG <- Height() (42_encode R111, 43_decode R131). -/
def sampleDims (s : State) : State := { s with wreg := width s.grid, hreg := height s.grid }

/-- REQ <- MLEN + 1; AVAIL <- (WREG * HREG) div 8 (42_encode R111). -/
def storeCapacity (s : State) : State :=
  { s with
    req := BitVec.ofNat 32 (requiredBytes s.mlen.toNat)
    avail := BitVec.ofNat 32 (availBytes s.wreg.toNat s.hreg.toNat) }

/-- GRID <- g: what a SetBlue or a host move leaves of pixel memory. -/
def setGrid (g : Grid) (s : State) : State := { s with grid := g }

/-- MLEN <- v (44_host_port R154). -/
def setMlen (v : Word) (s : State) : State := { s with mlen := v }

/-- MSGIN[i] <- b (44_host_port R155). -/
def setMsgin (i : Nat) (b : Byte) (s : State) : State := { s with msgin := memWrite s.msgin i b }

/-- MSGOUT[OLEN] <- b; OLEN <- OLEN + 1 (43_decode R132). -/
def appendOut (b : Byte) (s : State) : State :=
  { s with msgout := memWrite s.msgout s.olen.toNat b, olen := s.olen + 1#32 }

/-- CURBYTE <- b; BITIDX <- j (43_decode R132). -/
def setRunning (b : Byte) (j : BitIndex) (s : State) : State := { s with curByte := b, bitIdx := j }

/-- The port's answer to the host. -/
def reply (r : Reply) (s : State) : State := { s with replies := r :: s.replies }

/-- The host's remaining moves. -/
def setScript (l : List HostMove) (s : State) : State := { s with script := l }

/-- One free value has been drawn (93 U1, U2). -/
def drawFree (s : State) : State := { s with freeCtr := s.freeCtr + 1 }

/-! ## Fault entry and reset -/

/-- raise Fault(c): ST <- FAULT; FCAUSE <- c, and nothing else (60_exceptions R181). The step that raises it
makes no further write. Nothing is saved, and control goes nowhere: the engine stops stepping. -/
def raiseFault (c : FaultCause) (s : State) : State := { s with st := .faulted, fcause := c }

/-- Reset, the only way out of FAULT and the only way to stop a running operation: there is no
return-from-fault (70_reset R200, 60_exceptions R182). Every register takes its value of 10_state R29; MSGIN,
MSGOUT and GRID keep their contents. -/
def applyReset (s : State) : State :=
  { s with
    st := .idle, fcause := .none
    mlen := 0, olen := 0, avail := 0, req := 0
    wreg := 0, hreg := 0, x := 0, y := 0
    byteIdx := 0, bitIdx := 0, curByte := 0 }

end Sys2Proof.Machine
end

