-- ==== Sys2Proof/Machine/Decoder.lean ====
section
/-! DEFINITION. The DECODE operation: its START step (43_decode R131) and its scan step (R132). -/

namespace Sys2Proof.Machine

open Sys2Proof

/-- X <- 0; Y <- 0; BITIDX <- 0; CURBYTE <- 0; OLEN <- 0; ST <- DEC_BUSY (43_decode R131). -/
def beginDecode (s : State) : State :=
  setSt .decBusy (setRunning 0#8 0#3 (setXY (0, 0) { s with olen := 0#32 }))

/-- The START step of DECODE on sampled dimensions (43_decode R131). MSGOUT is not cleared. -/
def decodeStart (s : State) : StepResult :=
  if s.wreg = 0#16 ∨ s.hreg = 0#16 then .next (raiseFault .badDim s)
  else .next (beginDecode s)

/-- DECODE, the effect of its command word (43_decode R130, R131): the START step in a READY state. In a BUSY
or FAULT state the command is turned away and nothing changes (60_exceptions R184 (1), 44_host_port R152). -/
def execDecode (s : State) : StepResult :=
  if ready s then decodeStart (sampleDims s) else .next s

/-- The end of a DECODE scan step that goes on (43_decode R132): EXHAUSTED after the last pixel, X and Y
unchanged; else the next pixel. -/
def decodeAdvance (s : State) : State :=
  if isLast s.wreg.toNat s.hreg.toNat s.x.toNat s.y.toNat then setSt .exhausted s
  else setXY (scanNext s.wreg.toNat s.x.toNat s.y.toNat) s

/-- The DECODE scan step after the shift-in of one blue LSB gave `cb` (43_decode R132; order of tests
60_exceptions R185: sentinel, then full buffer, then store and exhaustion). -/
def decodeShifted (cb : Byte) (s : State) : State :=
  if s.bitIdx = 7#3 then
    if cb = sentinel then setSt .foundTerminator (setRunning 0#8 0#3 s)
    else if s.olen.toNat = s.cfg.mcap then raiseFault .outFull s
    else decodeAdvance (setRunning 0#8 0#3 (appendOut cb s))
  else decodeAdvance (setRunning cb (s.bitIdx + 1#3) s)

/-- The DECODE scan step: one pixel (43_decode R132). -/
def decodeScanStep (s : State) : StepResult :=
  match getBlue s.grid s.x.toNat s.y.toNat with
  | none => .next (raiseFault .gridBounds s)
  | some blue => .next (decodeShifted (shiftIn s.curByte (extractBit blue)) s)

end Sys2Proof.Machine
end

