-- ==== Sys2Proof/Machine/Encoder.lean ====
section
/-! DEFINITION. The ENCODE operation: its START step (42_encode R111) and its scan step (R112). -/

namespace Sys2Proof.Machine

open Sys2Proof

/-- X <- 0; Y <- 0; BYTEIDX <- 0; BITIDX <- 0; ST <- ENC_BUSY (42_encode R111). -/
def beginEncode (s : State) : State := setSt .encBusy (setBitPos (0#32, 0#3) (setXY (0, 0) s))

/-- The part of the ENCODE START step after the dimensions are sampled and both fault checks passed
(42_encode R111): write REG REQ and AVAIL, then the capacity check, and only then the refusal of a message with
a never-written cell (60_exceptions R191: checks (1) to (5) of R184 come first). -/
def encodeLaunch (s : State) : StepResult :=
  if capacityExceeded s.wreg.toNat s.hreg.toNat s.mlen.toNat then
    .next (setSt .capExceeded (storeCapacity s))
  else if messageWritten s then .next (beginEncode (storeCapacity s))
  else .refused .unwrittenMessage

/-- The START step of ENCODE on sampled dimensions, the checks in the order of 42_encode R111. -/
def encodeStart (s : State) : StepResult :=
  if s.wreg = 0#16 ∨ s.hreg = 0#16 then .next (raiseFault .badDim s)
  else if s.mlen.toNat > s.cfg.mcap then .next (raiseFault .badMlen s)
  else encodeLaunch s

/-- ENCODE, the effect of its command word (42_encode R110, R111): the START step in a READY state. In a BUSY
or FAULT state the command is turned away and nothing changes (60_exceptions R184 (1), 44_host_port R152). -/
def execEncode (s : State) : StepResult :=
  if ready s then encodeStart (sampleDims s) else .next s

/-- The end of an ENCODE scan step (42_encode R112): advance the bit position; stop right after the last
payload bit, with X and Y on the last written pixel; else move to the next pixel. -/
def encodeAdvance (s : State) : State :=
  if (bitNext s.byteIdx s.bitIdx).1 = s.req then
    setSt .encDone (setBitPos (bitNext s.byteIdx s.bitIdx) s)
  else
    setXY (scanNext s.wreg.toNat s.x.toNat s.y.toNat) (setBitPos (bitNext s.byteIdx s.bitIdx) s)

/-- The ENCODE scan step: one pixel, read and written back within the step (42_encode R112, 20_memory R49). -/
def encodeScanStep (s : State) : StepResult :=
  match payload s s.byteIdx.toNat with
  | none => .refused .unwrittenMessage
  | some p =>
    match getBlue s.grid s.x.toNat s.y.toNat with
    | none => .next (raiseFault .gridBounds s)
    | some blue =>
      match setBlue s.grid s.x.toNat s.y.toNat (embedBit blue (payloadBit p s.bitIdx.toNat)) with
      | none => .next (raiseFault .gridBounds s)
      | some g => .next (encodeAdvance (setGrid g s))

end Sys2Proof.Machine
end

