-- ==== Sys2Proof/Machine/Engine.lean ====
section
/-! DEFINITION. The engine's turn: one scan step while BUSY, nothing otherwise. -/

namespace Sys2Proof.Machine

open Sys2Proof

/-- One turn of the engine: the scan step of the running operation (42_encode R112, 43_decode R132). When ST is
not BUSY the engine is idle and all state is retained (60_exceptions R190); in FAULT it takes no step (R182). -/
def engineStep (s : State) : StepResult :=
  match s.st with
  | .encBusy => encodeScanStep s
  | .decBusy => decodeScanStep s
  | .idle => .next s
  | .encDone => .next s
  | .capExceeded => .next s
  | .foundTerminator => .next s
  | .exhausted => .next s
  | .faulted => .next s

end Sys2Proof.Machine
end

