-- ==== Sys2Proof/Machine/HostPort.lean ====
section
/-! DEFINITION. The host port (44_host_port R150 to R158), the host's moves on pixel memory (R159), reset as a
host move (70_reset R200), and the expansions of the script notation (30_encoding R74). -/

namespace Sys2Proof.Machine

open Sys2Proof

/-! ## Addresses (20_memory R40, R51; 44_host_port R158) -/

/-- What a mapped host address names. -/
inductive Target where
  | reg (r : RegName)
  | msgin (i : Nat)
  | msgout (i : Nat)
deriving DecidableEq, Repr

/-- The cell of a buffer of `cap` cells at this index, or unmapped. -/
def cellTarget (mk : Nat → Target) (cap i : Nat) : Option Target := if i < cap then some (mk i) else none

/-- The target of a host address. `none` is unmapped: space 3, REG index 8 and above, a message index of MCAP
and above (R158). -/
def resolve (c : Config) (a : HostAddr) : Option Target :=
  if a.space = 0#2 then (regOfIndex a.index.toNat).map Target.reg
  else if a.space = 1#2 then cellTarget Target.msgin c.mcap a.index.toNat
  else if a.space = 2#2 then cellTarget Target.msgout c.mcap a.index.toNat
  else none

/-! ## Access by sequencer state: the table of 44_host_port R152 -/

/-- The read rows: STATUS in every state; everything else unless BUSY. -/
def readAllowed (s : State) : Target → Bool
  | .reg .status => true
  | .reg .cmd => !busy s
  | .reg .width => !busy s
  | .reg .height => !busy s
  | .reg .mlen => !busy s
  | .reg .olen => !busy s
  | .reg .avail => !busy s
  | .reg .req => !busy s
  | .msgin _ => !busy s
  | .msgout _ => !busy s

/-- The write rows: CMD, MLEN and MSGIN in a READY state; nothing else ever. -/
def writeAllowed (s : State) : Target → Bool
  | .reg .cmd => ready s
  | .reg .mlen => ready s
  | .msgin _ => ready s
  | .reg .status => false
  | .reg .width => false
  | .reg .height => false
  | .reg .olen => false
  | .reg .avail => false
  | .reg .req => false
  | .msgout _ => false

/-! ## HostRead (R150) -/

/-- The value of a register read (R150). A read of CMD returns 0 (10_state R23). -/
def readReg (s : State) : RegName → Word
  | .cmd => 0#32
  | .status => statusWord s
  | .width => s.wreg.setWidth 32
  | .height => s.hreg.setWidth 32
  | .mlen => s.mlen
  | .olen => s.olen
  | .avail => s.avail
  | .req => s.req

/-- A read of message cell `i` of `m`, zero-extended (20_memory R46). A cell never written since power-up
returns any value: a free value is drawn (93 U1, U2; log entry 6). -/
def readCell (m : Memory) (i : Nat) (s : State) : State :=
  match cellsFind m i with
  | some b => reply (.data (b.setWidth 32)) s
  | none => drawFree (reply (.data ((Config.freeByte s.freeCtr).setWidth 32)) s)

/-- A performed read: only the host's side changes (R150, 20_memory R50). -/
def readTarget (s : State) : Target → State
  | .reg r => reply (.data (readReg s r)) s
  | .msgin i => readCell s.msgin i s
  | .msgout i => readCell s.msgout i s

/-- HostRead(space, index) (R150): refused with `err` and no effect, or performed. -/
def hostRead (a : HostAddr) (s : State) : State :=
  match resolve s.cfg a with
  | none => reply .err s
  | some t => if readAllowed s t then readTarget s t else reply .err s

/-! ## HostWrite and START (R151, R153) -/

/-- START(v) (R153): decode the command word and take its START step, or raise ILLEGAL_CMD before anything is
sampled (60_exceptions R175). -/
def startCommand (v : Word) (s : State) : StepResult :=
  match decode v with
  | .instr i => exec i s
  | .rejected .illegalCommand => .next (raiseFault .illegalCmd s)

/-- A performed write (R151): no address but these three is writable. The answer is `ok` also where a CMD write
leads to a fault. -/
def writeTarget (v : Word) (s : State) : Target → StepResult
  | .reg .cmd => startCommand v (reply .ok s)
  | .reg .mlen => .next (setMlen v (reply .ok s))
  | .msgin i => .next (setMsgin i (v.setWidth 8) (reply .ok s))
  | .reg .status => .next (reply .err s)
  | .reg .width => .next (reply .err s)
  | .reg .height => .next (reply .err s)
  | .reg .olen => .next (reply .err s)
  | .reg .avail => .next (reply .err s)
  | .reg .req => .next (reply .err s)
  | .msgout _ => .next (reply .err s)

/-- HostWrite(space, index, v) (R151): refused with `err` and no effect, or performed. -/
def hostWrite (a : HostAddr) (v : Word) (s : State) : StepResult :=
  match resolve s.cfg a with
  | none => .next (reply .err s)
  | some t => if writeAllowed s t then writeTarget v s t else .next (reply .err s)

/-! ## The host's moves on pixel memory (R159) -/

/-- A host move on GRID is enabled exactly when ST is not BUSY (R159). While BUSY its outcome is undefined
(93 U7): the model stops. -/
def onGrid (s : State) (k : StepResult) : StepResult := if busy s then .fault .gridRace else k

/-- Replace GRID entirely, by a grid that this instance can be presented with. -/
def hostLoadGrid (g : Grid) (s : State) : StepResult :=
  if g.wf s.cfg then .next (setGrid g s) else .refused .noSuchHostMove

/-- Write the blue byte of a pixel. -/
def hostWriteBlue (x y : Nat) (b : Byte) (s : State) : StepResult :=
  if inBounds s.grid x y then
    .next (setGrid (putPixel s.grid x y { pixelAt s.grid x y with blue := b }) s)
  else .refused .noSuchHostMove

/-- Write the other field of a pixel, an OTHERW-bit value. -/
def hostWriteOther (x y o : Nat) (s : State) : StepResult :=
  if inBounds s.grid x y ∧ o < 2 ^ s.cfg.otherw then
    .next (setGrid (putPixel s.grid x y { pixelAt s.grid x y with other := o }) s)
  else .refused .noSuchHostMove

/-- Read a pixel. -/
def hostReadPixel (x y : Nat) (s : State) : StepResult :=
  if inBounds s.grid x y then .next (reply (.pixel (pixelAt s.grid x y)) s) else .refused .noSuchHostMove

/-! ## One host move -/

/-- Take the host move `m` in a state whose script holds the moves after it. WAIT stays at the head of the script
while ST is BUSY and lets the engine step (R157). -/
def hostMove (m : HostMove) (s : State) : StepResult :=
  match m with
  | .reset => .next (applyReset s)
  | .read a => .next (hostRead a s)
  | .write a v => hostWrite a v s
  | .loadGrid g => onGrid s (hostLoadGrid g s)
  | .writeBlue x y b => onGrid s (hostWriteBlue x y b s)
  | .writeOther x y o => onGrid s (hostWriteOther x y o s)
  | .readPixel x y => onGrid s (hostReadPixel x y s)
  | .engineTurn => engineStep s
  | .wait => if busy s then engineStep (setScript (.wait :: s.script) s) else .next s

/-! ## Script notation (30_encoding R74) -/

/-- The move that writes a command word to CMD. -/
def cmdMove (v : Word) : HostMove := .write (regAddr .cmd) v

/-- The statement ENCODE or DECODE: WR CMD, 1 or WR CMD, 2. -/
def startMove (i : Instr) : HostMove := cmdMove (encode i)

/-- The writes of message bytes to MSGIN from index i on. -/
def msginMoves : Nat → List Byte → List HostMove
  | _, [] => []
  | i, b :: bs => .write (msginAddr i) (b.setWidth 32) :: msginMoves (i + 1) bs

/-- The statement MSG b0 ... b(k-1): WR MSGIN.0, b0 ... WR MSGIN.(k-1), b(k-1), then WR MLEN, k. -/
def msgMoves (bs : List Byte) : List HostMove :=
  msginMoves 0 bs ++ [.write (regAddr .mlen) (BitVec.ofNat 32 bs.length)]

/-- The pixels of a GRID statement in row-major order, from linear index n on, blank ones left out. -/
def pixelCells : Nat → List Pixel → Cells Pixel
  | _, [] => []
  | n, p :: ps => if p = Pixel.blank then pixelCells (n + 1) ps else (n, p) :: pixelCells (n + 1) ps

/-- The statement GRID w h : pixels in row-major order. The notation does not say what a statement means that names no
grid of w by h pixels, and this expansion settles it (DESIGN CHOICE, log entry 22): w and h are cut to 16 bits, a pixel
left out is blank, a blank pixel too many is dropped, and with any other the move is refused when it is taken (log
entry 9). -/
def gridMove (w h : Nat) (ps : List Pixel) : HostMove :=
  .loadGrid ⟨BitVec.ofNat 16 w, BitVec.ofNat 16 h, pixelCells 0 ps⟩

end Sys2Proof.Machine
end

