-- ==== Sys2Proof/Machine/Step.lean ====
section
/-! DEFINITION. One step of the system: the host's next move, or the engine's turn when the host has none. -/

namespace Sys2Proof.Machine

open Sys2Proof

/-- One step. Exactly one agent acts in it (20_memory R52): the host, by the move at the head of its script, or
the engine, when the host makes no access (log entry 3). A BUSY core keeps stepping (70_reset R211). -/
def step (s : State) : Host.Outcome State Fault Refusal :=
  match s.script with
  | [] => engineStep s
  | m :: rest => hostMove m (setScript rest s)

/-- `s` with the command word `w` about to be written to CMD: that write is where the core takes its next command
from (10_state R23, 44_host_port R153; log entry 2). -/
def State.withFetchWord (s : State) (_nbits w : Nat) : State :=
  setScript (cmdMove (BitVec.ofNat 32 w) :: s.script) s

end Sys2Proof.Machine
end

