-- ==== Sys2Proof/Safety.lean ====
section
/-! DEFINITION. The terms the statements use: runs, agreement of two states, the invariants of 10_state R28, and
how far a running operation has got. -/

namespace Sys2Proof.Machine

open Sys2Proof

/-- `k` steps, stopping at the first fault or refusal. -/
def run : Nat → State → StepResult
  | 0, s => .next s
  | k + 1, s =>
    match step s with
    | .next t => run k t
    | .fault r => .fault r
    | .refused r => .refused r

/-- The next step of `s` is the engine's, and `v` is the state the engine acts in. The three ways it can be the
engine's turn (20_memory R52; log entry 3): the host has no move to come; its move is to make no access, and that
move is used up; it is in a WAIT and ST is BUSY, and the WAIT stays (44_host_port R157, 30_encoding R74). -/
def EngineTurn (s v : State) : Prop :=
  (s.script = [] ∧ v = s) ∨
  (∃ rest, s.script = .engineTurn :: rest ∧ v = { s with script := rest }) ∨
  (∃ rest, s.script = .wait :: rest ∧ busy s = true ∧ v = s)

/-- Everything the spec gives the machine (10_state R10), and the parameters, is the same in `s` and `t`: only the
model's own fields (script, replies, freeCtr) may differ. -/
def SameMachine (s t : State) : Prop :=
  t = { s with script := t.script, replies := t.replies, freeCtr := t.freeCtr }

/-- Everything inside the core is the same in `s` and `t`: pixel memory may differ too (it is not inside the
core, 10_state R11). -/
def SameCore (s t : State) : Prop :=
  t = { s with grid := t.grid, script := t.script, replies := t.replies, freeCtr := t.freeCtr }

/-- The number of pixels an ENCODE has visited: n = 8 * BYTEIDX + BITIDX (10_state R28 (c)). -/
def encVisited (s : State) : Nat := 8 * s.byteIdx.toNat + s.bitIdx.toNat

/-- The number of pixels a DECODE has visited: n = Y * W + X (10_state R28 (d)). -/
def decVisited (s : State) : Nat := s.y.toNat * s.wreg.toNat + s.x.toNat

/-- 10_state R28 (c): what holds while ST = ENC_BUSY. The last two fields go beyond R28 (c): AVAIL holds the count its
START wrote (42_encode R111), and the running message has no never-written cell, since a launch with one is refused
(60_exceptions R191). -/
structure EncScanning (s : State) : Prop where
  wreg_pos : 1 ≤ s.wreg.toNat
  hreg_pos : 1 ≤ s.hreg.toNat
  wreg_grid : s.wreg = s.grid.w
  hreg_grid : s.hreg = s.grid.h
  mlen_le : s.mlen.toNat ≤ s.cfg.mcap
  req_eq : s.req.toNat = s.mlen.toNat + 1
  fits : 8 * s.req.toNat ≤ s.wreg.toNat * s.hreg.toNat
  byteIdx_lt : s.byteIdx.toNat < s.req.toNat
  x_eq : s.x.toNat = encVisited s % s.wreg.toNat
  y_eq : s.y.toNat = encVisited s / s.wreg.toNat
  visited_lt : encVisited s < s.wreg.toNat * s.hreg.toNat
  avail_eq : s.avail.toNat = s.wreg.toNat * s.hreg.toNat / 8
  written : ∀ i < s.mlen.toNat, (cellsFind s.msgin i).isSome = true

/-- 10_state R28 (d): what holds while ST = DEC_BUSY. -/
structure DecScanning (s : State) : Prop where
  wreg_pos : 1 ≤ s.wreg.toNat
  hreg_pos : 1 ≤ s.hreg.toNat
  wreg_grid : s.wreg = s.grid.w
  hreg_grid : s.hreg = s.grid.h
  x_lt : s.x.toNat < s.wreg.toNat
  y_lt : s.y.toNat < s.hreg.toNat
  visited_lt : decVisited s < s.wreg.toNat * s.hreg.toNat
  bitIdx_eq : s.bitIdx.toNat = decVisited s % 8
  olen_eq : s.olen.toNat = decVisited s / 8

/-- The invariant of the machine: 10_state R28 (a) to (d), with what the representation adds (the parameters meet
00_scope R5, memories are in canonical form and within their range, XW- and YW-bit registers hold XW- and YW-bit
numbers). -/
structure StateInv (s : State) : Prop where
  cfg : s.cfg.wf
  grid : s.grid.wf s.cfg
  msgin : Memory.wf s.cfg.mcap s.msgin = true
  msgout : Memory.wf s.cfg.mcap s.msgout = true
  wreg : s.wreg.toNat < 2 ^ s.cfg.xw
  hreg : s.hreg.toNat < 2 ^ s.cfg.yw
  x : s.x.toNat < 2 ^ s.cfg.xw
  y : s.y.toNat < 2 ^ s.cfg.yw
  olen : s.olen.toNat ≤ s.cfg.mcap
  fault : s.st = .faulted ↔ s.fcause ≠ .none
  enc : s.st = .encBusy → EncScanning s
  dec : s.st = .decBusy → DecScanning s

/-- The running byte of a DECODE: the last BITIDX blue LSBs, shifted in from 0. -/
def runningByte (g : Grid) (first count : Nat) : Byte :=
  (List.range count).foldl (fun c j => shiftIn c (blueLsb g (first + j))) 0#8

/-- How far a running operation has got. While ENC_BUSY, the visited pixels carry their payload bits (70_reset
R201). While DEC_BUSY, MSGOUT[0 .. OLEN-1] holds the recovered bytes so far, none of them the sentinel, and
CURBYTE holds the bits since the last completed byte. -/
structure Progress (s : State) : Prop where
  enc : s.st = .encBusy → ∀ n < encVisited s, streamBit s n = some (blueLsb s.grid n)
  out : s.st = .decBusy → ∀ k < s.olen.toNat, cellsFind s.msgout k = some (recoveredByte s.grid k)
  clean : s.st = .decBusy → ∀ k < s.olen.toNat, recoveredByte s.grid k ≠ sentinel
  cur : s.st = .decBusy → s.curByte = runningByte s.grid (8 * s.olen.toNat) s.bitIdx.toNat

/-- The message of an ENCODE is `m`: MLEN is its length and MSGIN[0 .. MLEN-1] hold its bytes (10_state R13, R15). -/
def HoldsMessage (s : State) (m : List Byte) : Prop :=
  s.mlen.toNat = m.length ∧ ∀ i < m.length, cellsFind s.msgin i = m[i]?

/-- `s` can be given a command whose run is followed to its end: the invariant holds, ST is READY, and the host has
no move of its own planned. -/
structure Startable (s : State) : Prop where
  inv : StateInv s
  isReady : ready s = true
  quiet : s.script = []

end Sys2Proof.Machine
end

