-- ==== Sys2Proof/Certificates/Slice0/Obligations.lean ====
section
/-! DEFINITION. The statements about the model, for the provers. Each docstring names what of the spec it
formalises. A successor state is written out as a record, so that a statement also says what does not change.
Nothing here rests on the value of a free value, of the reset grid, or of the reference instance. -/

open Sys2Proof Sys2Proof.Machine

/-! ## Encoding -/

/-- 30_encoding R62, R63; 60_exceptions R175: every 32-bit word is ENCODE (1), DECODE (2) or illegal, and writing an
illegal one to CMD in a READY state raises ILLEGAL_CMD with no other change. -/
def Obligations.EveryCommandWordIsEncodeDecodeOrIllegal : Prop :=
  (∀ (w : Word) (i : Instr), decode w = .instr i ↔ w = encode i) ∧
  encode .encode = 0x00000001#32 ∧ encode .decode = 0x00000002#32 ∧
  (∀ w : Word, decode w = .rejected .illegalCommand ↔ w ≠ 0x00000001#32 ∧ w ≠ 0x00000002#32) ∧
  (∀ (s : State) (rest : List HostMove) (w : Word), s.script = cmdMove w :: rest → ready s = true →
    w ≠ 0x00000001#32 → w ≠ 0x00000002#32 →
    step s = .next { s with script := rest, replies := .ok :: s.replies, st := .faulted, fcause := .illegalCmd })

/-- opcode_table.json: the two tabled words, numbered as the table numbers them, and five words that are no row. -/
def Obligations.TabledWordsDecodeToTheirRows : Prop :=
  decodeTableWord 32 0x00000001 = some .encode ∧ decodeTableWord 32 0x00000002 = some .decode ∧
  decodeTableWord 32 0x00000000 = none ∧ decodeTableWord 32 0x00000003 = none ∧
  decodeTableWord 32 0x80000001 = none ∧ decodeTableWord 32 0x00000101 = none ∧
  decodeTableWord 32 0x01000000 = none

/-- 30_encoding R60: a host address is (space, index); space 0 is REG, 1 MSGIN, 2 MSGOUT, 3 reserved; on a flat bus the space
is in the two most significant of 34 bits, and the two forms carry the same information. -/
def Obligations.HostAddressBusForm : Prop :=
  (∀ a : HostAddr, (addrToBus a).toNat = a.space.toNat * 2 ^ 32 + a.index.toNat ∧ addrOfBus (addrToBus a) = a) ∧
  (∀ b : BitVec 34, addrToBus (addrOfBus b) = b) ∧
  (∀ (c : Config) (a : HostAddr),
    (∀ r, resolve c a = some (.reg r) → a.space = 0#2 ∧ a.index.toNat = regIndex r) ∧
    (∀ i, resolve c a = some (.msgin i) → a.space = 1#2 ∧ a.index.toNat = i) ∧
    (∀ i, resolve c a = some (.msgout i) → a.space = 2#2 ∧ a.index.toNat = i) ∧
    (a.space = 3#2 → resolve c a = none))

/-! ## Commands -/

/-- 44_host_port R153: a CMD write in a READY state (whatever outcome ST holds) takes the START step of the command
it decodes to, around which the step moves past the host's move and answers `ok`; any other word raises ILLEGAL_CMD
and nothing is sampled. The word may be placed by withFetchWord. -/
def Obligations.StepRunsTheDecodedCommand : Prop :=
  ∀ (s : State) (v : Word), ready s = true →
    (∀ rest i, s.script = cmdMove v :: rest → decode v = .instr i →
      step s = exec i { s with script := rest, replies := .ok :: s.replies }) ∧
    (∀ rest, s.script = cmdMove v :: rest → v ≠ 0x00000001#32 → v ≠ 0x00000002#32 →
      step s = .next { s with script := rest, replies := .ok :: s.replies, st := .faulted, fcause := .illegalCmd }) ∧
    (∀ i, decode v = .instr i →
      step (s.withFetchWord 32 v.toNat) = exec i { s with replies := .ok :: s.replies })

/-- 44_host_port R152 (row "write CMD"), 60_exceptions R184 (1): while BUSY or FAULT a CMD write of any word is
refused, is not queued, and changes nothing. That exec of the command, taken by itself, then leaves the state as it is
(second clause) is the model's reading, DEDUCED (log entry 13): no step comes to it. -/
def Obligations.CommandIsTurnedAwayUnlessReady : Prop :=
  ∀ (s : State), ready s = false →
    (∀ rest v, s.script = cmdMove v :: rest →
      step s = .next { s with script := rest, replies := .err :: s.replies }) ∧
    (∀ i, exec i s = .next s)

/-- 60_exceptions R184: of the events a CMD write can have, the first that applies in the given order. (The
hypothesis leaves out the one launch R191 refuses: an ENCODE that would enter ENC_BUSY with an unwritten cell.) -/
def Obligations.CommandChecksComeInOrder : Prop :=
  ∀ (s : State) (rest : List HostMove) (v : Word), s.script = cmdMove v :: rest →
    (v = 0x00000001#32 → s.mlen.toNat ≤ s.cfg.mcap → 8 * (s.mlen.toNat + 1) ≤ s.grid.w.toNat * s.grid.h.toNat →
      ∀ i < s.mlen.toNat, ∃ b, cellsFind s.msgin i = some b) →
    ∃ t, step s = .next t ∧
      (ready s = false → t = { s with script := rest, replies := .err :: s.replies }) ∧
      (t.st, t.fcause) =
        if ready s = false then (s.st, s.fcause)
        else if v ≠ 0x00000001#32 ∧ v ≠ 0x00000002#32 then (.faulted, .illegalCmd)
        else if s.grid.w.toNat = 0 ∨ s.grid.h.toNat = 0 then (.faulted, .badDim)
        else if v = 0x00000001#32 ∧ s.mlen.toNat > s.cfg.mcap then (.faulted, .badMlen)
        else if v = 0x00000001#32 ∧ 8 * (s.mlen.toNat + 1) > s.grid.w.toNat * s.grid.h.toNat then
          (.capExceeded, s.fcause)
        else if v = 0x00000001#32 then (.encBusy, s.fcause)
        else (.decBusy, s.fcause)

/-- 42_encode R111, 60_exceptions R177, R191: the START step of ENCODE in a READY state, branch by branch. The fourth
clause is where ENCODE completes; the fifth is the refusal of R191. -/
def Obligations.EncodeStartStep : Prop :=
  ∀ (s : State), ready s = true →
    (s.grid.w.toNat = 0 ∨ s.grid.h.toNat = 0 →
      exec .encode s = .next { s with wreg := s.grid.w, hreg := s.grid.h, st := .faulted, fcause := .badDim }) ∧
    (s.grid.w.toNat ≠ 0 → s.grid.h.toNat ≠ 0 → s.mlen.toNat > s.cfg.mcap →
      exec .encode s = .next { s with wreg := s.grid.w, hreg := s.grid.h, st := .faulted, fcause := .badMlen }) ∧
    (s.grid.w.toNat ≠ 0 → s.grid.h.toNat ≠ 0 → s.mlen.toNat ≤ s.cfg.mcap →
      8 * (s.mlen.toNat + 1) > s.grid.w.toNat * s.grid.h.toNat →
      exec .encode s = .next { s with
        wreg := s.grid.w, hreg := s.grid.h
        req := BitVec.ofNat 32 (s.mlen.toNat + 1), avail := BitVec.ofNat 32 (s.grid.w.toNat * s.grid.h.toNat / 8)
        st := .capExceeded }) ∧
    (s.grid.w.toNat ≠ 0 → s.grid.h.toNat ≠ 0 → s.mlen.toNat ≤ s.cfg.mcap →
      8 * (s.mlen.toNat + 1) ≤ s.grid.w.toNat * s.grid.h.toNat →
      (∀ i < s.mlen.toNat, ∃ b, cellsFind s.msgin i = some b) →
      exec .encode s = .next { s with
        wreg := s.grid.w, hreg := s.grid.h
        req := BitVec.ofNat 32 (s.mlen.toNat + 1), avail := BitVec.ofNat 32 (s.grid.w.toNat * s.grid.h.toNat / 8)
        x := 0, y := 0, byteIdx := 0, bitIdx := 0, st := .encBusy }) ∧
    (s.grid.w.toNat ≠ 0 → s.grid.h.toNat ≠ 0 → s.mlen.toNat ≤ s.cfg.mcap →
      8 * (s.mlen.toNat + 1) ≤ s.grid.w.toNat * s.grid.h.toNat →
      (∃ i < s.mlen.toNat, cellsFind s.msgin i = none) →
      exec .encode s = .refused .unwrittenMessage)

/-- 43_decode R131: the START step of DECODE in a READY state. The second clause is where DECODE completes: any grid
with W, H ≥ 1 can be decoded. -/
def Obligations.DecodeStartStep : Prop :=
  ∀ (s : State), ready s = true →
    (s.grid.w.toNat = 0 ∨ s.grid.h.toNat = 0 →
      exec .decode s = .next { s with wreg := s.grid.w, hreg := s.grid.h, st := .faulted, fcause := .badDim }) ∧
    (s.grid.w.toNat ≠ 0 → s.grid.h.toNat ≠ 0 →
      exec .decode s = .next { s with
        wreg := s.grid.w, hreg := s.grid.h
        x := 0, y := 0, bitIdx := 0, curByte := 0, olen := 0, st := .decBusy })

/-- 60_exceptions R176: a sampled width or height of 0 is BAD_DIM for both commands; WREG and HREG hold the samples and
nothing else changes. -/
def Obligations.ZeroDimensionFaults : Prop :=
  ∀ (i : Instr) (s : State), ready s = true → s.grid.w.toNat = 0 ∨ s.grid.h.toNat = 0 →
    exec i s = .next { s with wreg := s.grid.w, hreg := s.grid.h, st := .faulted, fcause := .badDim }

/-- 42_encode R114: an ENCODE that ends in CAP_EXCEEDED leaves GRID and the scan registers as they were, reports both
counts exactly with REQ > AVAIL, and is no fault: the core is READY. -/
def Obligations.CapacityFailureChangesNoPixel : Prop :=
  ∀ (s t : State), StateInv s → ready s = true → exec .encode s = .next t → t.st = .capExceeded →
    t.grid = s.grid ∧
    t.req.toNat = s.mlen.toNat + 1 ∧ t.avail.toNat = s.grid.w.toNat * s.grid.h.toNat / 8 ∧
    t.avail.toNat < t.req.toNat ∧
    t.x = s.x ∧ t.y = s.y ∧ t.byteIdx = s.byteIdx ∧ t.bitIdx = s.bitIdx ∧
    ready t = true ∧ t.fcause = .none

/-- FRAME of the two START steps (register-only commands at START: no byte of any memory is written). Whatever a START
step does, it changes no pixel, no message cell, not MLEN and not the host's side; ENCODE's changes neither OLEN nor
CURBYTE, DECODE's neither AVAIL nor REQ nor BYTEIDX. -/
def Obligations.StartStepFrame : Prop :=
  ∀ (i : Instr) (s t : State), exec i s = .next t →
    t.cfg = s.cfg ∧ t.grid = s.grid ∧ t.msgin = s.msgin ∧ t.msgout = s.msgout ∧ t.mlen = s.mlen ∧
    t.script = s.script ∧ t.replies = s.replies ∧ t.freeCtr = s.freeCtr ∧
    (i = .encode → t.olen = s.olen ∧ t.curByte = s.curByte) ∧
    (i = .decode → t.avail = s.avail ∧ t.req = s.req ∧ t.byteIdx = s.byteIdx)

/-! ## Scan steps -/

/-- 42_encode R112: the ENCODE scan step, for the payload byte `p` at BYTEIDX (the message cell, or the sentinel at
MLEN) and the blue byte `old` of pixel (X, Y), in whichever way it comes to be the engine's turn. -/
def Obligations.EncodeScanStepEmbedsOneBit : Prop :=
  ∀ (s v : State) (p : Byte), EngineTurn s v → StateInv v → v.st = .encBusy →
    (v.byteIdx.toNat < v.mlen.toNat → cellsFind v.msgin v.byteIdx.toNat = some p) →
    (v.byteIdx.toNat = v.mlen.toNat → p = 0x7E#8) →
    ∃ old t, getBlue v.grid v.x.toNat v.y.toNat = some old ∧ step s = .next t ∧
      t = { v with grid := t.grid, x := t.x, y := t.y, byteIdx := t.byteIdx, bitIdx := t.bitIdx, st := t.st } ∧
      t.grid.w = v.grid.w ∧ t.grid.h = v.grid.h ∧
      pixelAt t.grid v.x.toNat v.y.toNat =
        ⟨(old &&& 0xFE#8) ||| ((p >>> (7 - v.bitIdx.toNat)) &&& 1#8), (pixelAt v.grid v.x.toNat v.y.toNat).other⟩ ∧
      (∀ a b, a < v.grid.w.toNat → b < v.grid.h.toNat → (a, b) ≠ (v.x.toNat, v.y.toNat) →
        pixelAt t.grid a b = pixelAt v.grid a b) ∧
      (t.byteIdx.toNat, t.bitIdx.toNat) =
        (if v.bitIdx.toNat = 7 then (v.byteIdx.toNat + 1, 0) else (v.byteIdx.toNat, v.bitIdx.toNat + 1)) ∧
      (t.byteIdx.toNat = v.req.toNat → t.st = .encDone ∧ t.x = v.x ∧ t.y = v.y) ∧
      (t.byteIdx.toNat ≠ v.req.toNat → t.st = .encBusy ∧
        (t.x.toNat, t.y.toNat) =
          (if v.x.toNat + 1 = v.wreg.toNat then (0, v.y.toNat + 1) else (v.x.toNat + 1, v.y.toNat)))

/-- FRAME of the ENCODE scan step (the storing step), in every state: the pixel stored to is (X, Y); every other pixel
reads as before, and no pixel's other field or blue bits 7:1 change; of the registers only X, Y, BYTEIDX, BITIDX, ST
and, on a fault, FCAUSE may change. Without a payload byte at BYTEIDX, in a state no run reaches, the
model refuses the step (its choice, log entry 14). -/
def Obligations.EncodeScanStepFrame : Prop :=
  (∀ (s v t : State), EngineTurn s v → v.st = .encBusy → step s = .next t →
    t = { v with grid := t.grid, x := t.x, y := t.y, byteIdx := t.byteIdx, bitIdx := t.bitIdx, st := t.st,
                 fcause := t.fcause } ∧
    t.grid.w = v.grid.w ∧ t.grid.h = v.grid.h ∧
    (∀ a b, a < v.grid.w.toNat → b < v.grid.h.toNat →
      (pixelAt t.grid a b).other = (pixelAt v.grid a b).other ∧
      (pixelAt t.grid a b).blue >>> 1 = (pixelAt v.grid a b).blue >>> 1 ∧
      ((a, b) ≠ (v.x.toNat, v.y.toNat) → pixelAt t.grid a b = pixelAt v.grid a b))) ∧
  (∀ (s v : State), EngineTurn s v → v.st = .encBusy → payload v v.byteIdx.toNat = none →
    step s = .refused .unwrittenMessage)

/-- 43_decode R132, 60_exceptions R185: the DECODE scan step, in the order of its tests, for the blue byte of pixel
(X, Y), in whichever way it comes to be the engine's turn. -/
def Obligations.DecodeScanStepShiftsOneBit : Prop :=
  ∀ (s v : State), EngineTurn s v → StateInv v → v.st = .decBusy →
    ∃ blue, getBlue v.grid v.x.toNat v.y.toNat = some blue ∧
      let cb : Byte := (v.curByte <<< 1) ||| (blue &&& 1#8)
      let last : Prop := v.x.toNat = v.wreg.toNat - 1 ∧ v.y.toNat = v.hreg.toNat - 1
      let nx : Dim := if v.x.toNat + 1 = v.wreg.toNat then 0 else v.x + 1
      let ny : Dim := if v.x.toNat + 1 = v.wreg.toNat then v.y + 1 else v.y
      (v.bitIdx = 7#3 → cb = 0x7E#8 →
        step s = .next { v with curByte := 0, bitIdx := 0, st := .foundTerminator }) ∧
      (v.bitIdx = 7#3 → cb ≠ 0x7E#8 → v.olen.toNat = v.cfg.mcap →
        step s = .next { v with st := .faulted, fcause := .outFull }) ∧
      (v.bitIdx = 7#3 → cb ≠ 0x7E#8 → v.olen.toNat ≠ v.cfg.mcap → last →
        step s = .next { v with msgout := memWrite v.msgout v.olen.toNat cb, olen := v.olen + 1, curByte := 0,
                                bitIdx := 0, st := .exhausted }) ∧
      (v.bitIdx = 7#3 → cb ≠ 0x7E#8 → v.olen.toNat ≠ v.cfg.mcap → ¬ last →
        step s = .next { v with msgout := memWrite v.msgout v.olen.toNat cb, olen := v.olen + 1, curByte := 0,
                                bitIdx := 0, x := nx, y := ny }) ∧
      (v.bitIdx ≠ 7#3 → last →
        step s = .next { v with curByte := cb, bitIdx := v.bitIdx + 1, st := .exhausted }) ∧
      (v.bitIdx ≠ 7#3 → ¬ last →
        step s = .next { v with curByte := cb, bitIdx := v.bitIdx + 1, x := nx, y := ny })

/-- FRAME of the DECODE scan step, in every state: no pixel changes, every MSGOUT cell except the one at index OLEN
reads as before, and MSGIN, MLEN, AVAIL, REQ, BYTEIDX, WREG and HREG keep their values. -/
def Obligations.DecodeScanStepFrame : Prop :=
  ∀ (s v t : State), EngineTurn s v → v.st = .decBusy → step s = .next t →
    t = { v with msgout := t.msgout, olen := t.olen, x := t.x, y := t.y, bitIdx := t.bitIdx, curByte := t.curByte,
                 st := t.st, fcause := t.fcause } ∧
    (∀ i, i ≠ v.olen.toNat → cellsFind t.msgout i = cellsFind v.msgout i) ∧
    (t.olen = v.olen → t.msgout = v.msgout)

/-- 60_exceptions R178: a DECODE scan step raises OUT_FULL exactly when it completes a byte other than 0x7E while OLEN = MCAP;
at entry OLEN = MCAP, MSGOUT[0 .. MCAP-1] hold the first MCAP recovered bytes, and nothing else changes; it cannot occur when
(W * H) div 8 ≤ MCAP. -/
def Obligations.OutFullFaultKeepsTheRecoveredBytes : Prop :=
  ∀ (s v t : State), EngineTurn s v → StateInv v → Progress v → v.st = .decBusy → step s = .next t →
    (t.fcause = .outFull ↔
      v.bitIdx = 7#3 ∧ recoveredByte v.grid v.olen.toNat ≠ 0x7E#8 ∧ v.olen.toNat = v.cfg.mcap) ∧
    (t.fcause = .outFull →
      t = { v with st := .faulted, fcause := .outFull } ∧ t.olen.toNat = t.cfg.mcap ∧
      (∀ k < t.cfg.mcap, cellsFind t.msgout k = some (recoveredByte t.grid k)) ∧
      t.cfg.mcap < t.grid.w.toNat * t.grid.h.toNat / 8)

/-- 60_exceptions R179, 40_pixelgrid R84: a scan step that calls the accessor with (X, Y) out of bounds reads and writes no
pixel and ends in FAULT with GRID_BOUNDS; but no state that meets the invariant of R28 raises it. The hypothesis on the
payload: an ENCODE scan step has a byte to embed. Without one the model refuses before it calls the accessor (log entry 14,
a state no run reaches; EncodeScanStepFrame says so). -/
def Obligations.GridBoundsFaultIsUnreachable : Prop :=
  (∀ (s v : State), EngineTurn s v → (v.grid.w.toNat ≤ v.x.toNat ∨ v.grid.h.toNat ≤ v.y.toNat) →
    (v.st = .decBusy ∨ (v.st = .encBusy ∧ (payload v v.byteIdx.toNat).isSome = true)) →
    step s = .next { v with st := .faulted, fcause := .gridBounds }) ∧
  (∀ (s t : State), StateInv s → step s = .next t → t.fcause = .gridBounds → s.fcause = .gridBounds)

/-! ## The accessor and the memories -/

/-- 40_pixelgrid R82, R83, R85, R86: GetBlue and SetBlue are defined exactly in bounds; after a SetBlue the pixel reads
the byte written, keeps its other field, and no other pixel and no dimension changes. -/
def Obligations.AccessorReadsWhatItWrote : Prop :=
  (∀ (g : Grid) (x y : Nat),
    (x < g.w.toNat ∧ y < g.h.toNat → getBlue g x y = some (pixelAt g x y).blue) ∧
    (¬ (x < g.w.toNat ∧ y < g.h.toNat) → getBlue g x y = none ∧ ∀ b, setBlue g x y b = none)) ∧
  (∀ (g : Grid) (x y : Nat) (b : Byte), x < g.w.toNat → y < g.h.toNat →
    ∃ g', setBlue g x y b = some g' ∧ g'.w = g.w ∧ g'.h = g.h ∧ getBlue g' x y = some b ∧
      (pixelAt g' x y).other = (pixelAt g x y).other ∧
      (∀ x' y', x' < g.w.toNat → y' < g.h.toNat → (x', y') ≠ (x, y) → pixelAt g' x' y' = pixelAt g x' y'))

/-- The memory operations keep their canonical form, a message cell reads what was last written to it, and two
well-formed grids of one size that read the same are equal data (a property of the model's representation). -/
def Obligations.MemoriesStayCanonical : Prop :=
  (∀ (cap : Nat) (m : Memory) (i : Nat) (b : Byte), Memory.wf cap m = true → i < cap →
    Memory.wf cap (memWrite m i b) = true) ∧
  (∀ (m : Memory) (i j : Nat) (b : Byte),
    cellsFind (memWrite m i b) j = if j = i then some b else cellsFind m j) ∧
  (∀ (c : Config) (g g' : Grid) (x y : Nat) (b : Byte), g.wf c → setBlue g x y b = some g' → g'.wf c) ∧
  (∀ (c : Config) (g g' : Grid), g.wf c → g'.wf c → g.w = g'.w → g.h = g'.h →
    (∀ x y, x < g.w.toNat → y < g.h.toNat → pixelAt g x y = pixelAt g' x y) → g = g')

/-! ## The bitstream primitives -/

/-- 41_bitstream R93, R94: EmbedBit replaces bit 0 and nothing else; ExtractBit reads it back. -/
def Obligations.EmbedThenExtractBit : Prop :=
  ∀ (blue : Byte) (a b : Bool),
    embedBit blue b = (blue &&& 0xFE#8) ||| (if b then 1#8 else 0#8) ∧
    embedBit blue b = blue.extractLsb' 1 7 ++ BitVec.ofBool b ∧
    (embedBit blue b).toNat ≤ blue.toNat + 1 ∧ blue.toNat ≤ (embedBit blue b).toNat + 1 ∧
    embedBit (embedBit blue a) b = embedBit blue b ∧
    extractBit blue = blue.getLsbD 0 ∧ extractBit (embedBit blue b) = b ∧ embedBit blue (extractBit blue) = blue

/-- 41_bitstream R90, R91, R92: the payload is the message followed by 0x7E, as a view; PayloadBit(i, j) is bit 7 - j of
payload byte i; StreamBit(n) is PayloadBit(n div 8, n mod 8). -/
def Obligations.PayloadIsMessageThenSentinel : Prop :=
  (∀ (s : State) (m : List Byte), HoldsMessage s m →
    (∀ i < m.length, payload s i = m[i]?) ∧ payload s m.length = some 0x7E#8 ∧
    (∀ n, n < 8 * (m.length + 1) →
      streamBit s n = some (((m ++ [0x7E#8]).getD (n / 8) 0#8).getLsbD (7 - n % 8)))) ∧
  (∀ (p : Byte) (j : Nat), j ≤ 7 → payloadBit p j = p.getLsbD (7 - j) ∧
    payloadBit p j = ((p >>> (7 - j)) &&& 1#8 == 1#8))

/-- 30_encoding R70, 41_bitstream R95: ShiftIn drops bit 7 and puts the new bit in bit 0; eight shifts into the 8-bit register
assemble the byte whose first bit is most significant, whatever the register held before. -/
def Obligations.EightShiftsAssembleAByte : Prop :=
  (∀ (cur : Byte) (b : Bool), shiftIn cur b = cur.extractLsb' 0 7 ++ BitVec.ofBool b ∧
    (shiftIn cur b).toNat = (2 * cur.toNat + b.toNat) % 256) ∧
  ∀ (g : Grid) (k : Nat) (cur : Byte),
    (List.range 8).foldl (fun c j => shiftIn c (blueLsb g (8 * k + j))) cur = recoveredByte g k ∧
    (recoveredByte g k).toNat =
      ((List.range 8).map fun j => (blueLsb g (8 * k + j)).toNat * 2 ^ (7 - j)).sum

/-- 41_bitstream R96, R98: from (0, 0), n applications of ScanNext reach (n mod W, n div W), never past the last pixel,
and n applications of BitNext reach (n div 8, n mod 8). -/
def Obligations.PositionsCountInOrder : Prop :=
  (∀ (w : Nat), 1 ≤ w → ∀ n, (fun q : Nat × Nat => scanNext w q.1 q.2)^[n] (0, 0) = (n % w, n / w)) ∧
  (∀ (w h x y : Nat), x < w → y < h → ¬ (x = w - 1 ∧ y = h - 1) →
    (scanNext w x y).1 < w ∧ (scanNext w x y).2 < h ∧
    scanNext w x y = if x + 1 = w then (0, y + 1) else (x + 1, y)) ∧
  (∀ n, n < 8 * 2 ^ 32 →
    (fun q : Word × BitIndex => bitNext q.1 q.2)^[n] (0, 0) = (BitVec.ofNat 32 (n / 8), BitVec.ofNat 3 (n % 8)))

/-- 41_bitstream R97: IsLast(x, y) is the pixel with linear index W * H - 1. -/
def Obligations.LastPixelHasTheLastIndex : Prop :=
  ∀ (w h x y : Nat), x < w → y < h →
    (isLast w h x y = true ↔ x = w - 1 ∧ y = h - 1) ∧
    (isLast w h x y = true ↔ linearIndex w x y = w * h - 1) ∧
    linearIndex w x y % w = x ∧ linearIndex w x y / w = y

/-- 41_bitstream R99, R100: the capacity quantities, and that the check may be done as REQ > AVAIL; under the parameter
constraints of 00_scope R5 the registers REQ and AVAIL hold the exact counts. -/
def Obligations.CapacityCheckIsExact : Prop :=
  (∀ (w h l : Nat),
    requiredBytes l = l + 1 ∧ requiredBits l = 8 * (l + 1) ∧ availBytes w h = w * h / 8 ∧
    (capacityExceeded w h l = true ↔ 8 * (l + 1) > w * h) ∧
    (capacityExceeded w h l = true ↔ requiredBytes l > availBytes w h)) ∧
  (∀ (s : State), s.cfg.wf → s.mlen.toNat ≤ s.cfg.mcap →
    s.wreg.toNat * s.hreg.toNat < 2 ^ 32 ∧
    (storeCapacity s).req.toNat = s.mlen.toNat + 1 ∧
    (storeCapacity s).avail.toNat = s.wreg.toNat * s.hreg.toNat / 8)

/-- 41_bitstream R102: Unpack undoes Pack, also when more bits follow; lengths are 8K and N div 8. -/
def Obligations.UnpackUndoesPack : Prop :=
  (∀ (p : List Byte), (pack p).length = 8 * p.length ∧ unpack (pack p) = p ∧
    ∀ n < 8 * p.length, (pack p)[n]? = some (((p.getD (n / 8) 0#8 >>> (7 - n % 8)) &&& 1#8) == 1#8)) ∧
  (∀ (b : List Bool), (unpack b).length = b.length / 8 ∧
    ∀ k < b.length / 8, ((unpack b).getD k 0#8).toNat =
      ((List.range 8).map fun j => (b.getD (8 * k + j) false).toNat * 2 ^ (7 - j)).sum) ∧
  (∀ (p : List Byte) (t : List Bool), (unpack (pack p ++ t)).take p.length = p)

/-! ## The host port -/

/-- 44_host_port R150: what a port read answers, refused or performed, and that it changes no state of the machine. -/
def Obligations.HostReadReturnsTheRegister : Prop :=
  ∀ (s : State) (a : HostAddr) (rest : List HostMove), s.script = .read a :: rest →
    (resolve s.cfg a = none ∨ (busy s = true ∧ a ≠ regAddr .status) →
      step s = .next { s with script := rest, replies := .err :: s.replies }) ∧
    (∀ r : RegName, a = regAddr r → (busy s = false ∨ r = .status) →
      step s = .next { s with script := rest, replies := .data (match r with
        | .cmd => 0#32
        | .status => 0#24 ++ causeCode s.fcause ++ 0#1 ++ seqCode s.st
        | .width => BitVec.ofNat 32 s.wreg.toNat
        | .height => BitVec.ofNat 32 s.hreg.toNat
        | .mlen => s.mlen
        | .olen => s.olen
        | .avail => s.avail
        | .req => s.req) :: s.replies }) ∧
    (∀ b, a.space = 1#2 → busy s = false → a.index.toNat < s.cfg.mcap → cellsFind s.msgin a.index.toNat = some b →
      step s = .next { s with script := rest, replies := .data (BitVec.ofNat 32 b.toNat) :: s.replies }) ∧
    (∀ b, a.space = 2#2 → busy s = false → a.index.toNat < s.cfg.mcap → cellsFind s.msgout a.index.toNat = some b →
      step s = .next { s with script := rest, replies := .data (BitVec.ofNat 32 b.toNat) :: s.replies }) ∧
    (∀ t, step s = .next t → SameMachine s t)

/-- 44_host_port R151: the writable addresses in a READY state: MLEN stores all 32 bits, MSGIN[i] stores v[7:0] and changes no
other cell, CMD is START; each answers `ok`. No other address is writable: `err`, and nothing changes. -/
def Obligations.HostWriteStoresMlenAndMsgin : Prop :=
  ∀ (s : State) (a : HostAddr) (v : Word) (rest : List HostMove), s.script = .write a v :: rest → ready s = true →
    (a ≠ regAddr .cmd → a ≠ regAddr .mlen → ¬ (a.space = 1#2 ∧ a.index.toNat < s.cfg.mcap) →
      step s = .next { s with script := rest, replies := .err :: s.replies }) ∧
    (a = regAddr .mlen →
      step s = .next { s with script := rest, replies := .ok :: s.replies, mlen := v }) ∧
    (a.space = 1#2 → a.index.toNat < s.cfg.mcap →
      ∃ m, step s = .next { s with script := rest, replies := .ok :: s.replies, msgin := m } ∧
        ∀ j, cellsFind m j = if j = a.index.toNat then some (v.extractLsb' 0 8) else cellsFind s.msgin j) ∧
    (a = regAddr .cmd →
      step s = startCommand v { s with script := rest, replies := .ok :: s.replies })

/-- 44_host_port R152, R158: the access table. Every access it marks refused, and every access to an unmapped address,
answers `err` and changes nothing. Every access it marks `yes` is performed: a read answers what the register or the
written cell holds (0 for CMD), a write to MLEN or MSGIN stores, a write to CMD takes START; each write answers `ok`. -/
def Obligations.AccessTableBySequencerState : Prop :=
  ∀ (s : State) (a : HostAddr) (rest : List HostMove),
    let unmapped : Prop := a.space = 3#2 ∨ (a.space = 0#2 ∧ 8 ≤ a.index.toNat) ∨
      ((a.space = 1#2 ∨ a.space = 2#2) ∧ s.cfg.mcap ≤ a.index.toNat)
    let refused : State := { s with script := rest, replies := .err :: s.replies }
    let performed : State := { s with script := rest, replies := .ok :: s.replies }
    (s.script = .read a :: rest →
      (unmapped ∨ (busy s = true ∧ a ≠ regAddr .status) → step s = .next refused) ∧
      (¬ (unmapped ∨ (busy s = true ∧ a ≠ regAddr .status)) →
        ∃ t v, step s = .next t ∧ SameMachine s t ∧ t.script = rest ∧ t.replies = .data v :: s.replies ∧
          (a = regAddr .cmd → v = 0#32) ∧ (∀ r, a = regAddr r → v = readReg s r) ∧
          (∀ b, a.space = 1#2 → cellsFind s.msgin a.index.toNat = some b → v = BitVec.ofNat 32 b.toNat) ∧
          (∀ b, a.space = 2#2 → cellsFind s.msgout a.index.toNat = some b → v = BitVec.ofNat 32 b.toNat))) ∧
    (∀ v, s.script = .write a v :: rest →
      (unmapped ∨ ready s = false ∨ ¬ (a.space = 1#2 ∨ a = regAddr .cmd ∨ a = regAddr .mlen) →
        step s = .next refused) ∧
      (¬ unmapped → ready s = true →
        (a = regAddr .mlen → step s = .next { performed with mlen := v }) ∧
        (a.space = 1#2 →
          step s = .next { performed with msgin := memWrite s.msgin a.index.toNat (v.extractLsb' 0 8) }) ∧
        (a = regAddr .cmd → step s = startCommand v performed ∧
          ∀ t, step s = .next t → t.replies = .ok :: s.replies)))

/-- 93 U1, U2: a host read of a message cell never written since power-up is performed and returns SOME byte, zero-extended:
a free value of the model (log entry 6), about which nothing is known. The machine does not change. -/
def Obligations.UnwrittenCellReadsSomeByte : Prop :=
  ∀ (s : State) (a : HostAddr) (rest : List HostMove), s.script = .read a :: rest → busy s = false →
    a.index.toNat < s.cfg.mcap →
    ((a.space = 1#2 ∧ cellsFind s.msgin a.index.toNat = none) ∨
      (a.space = 2#2 ∧ cellsFind s.msgout a.index.toNat = none)) →
    ∃ (b : Byte) (t : State), step s = .next t ∧ SameMachine s t ∧
      t.script = rest ∧ t.replies = .data (BitVec.ofNat 32 b.toNat) :: s.replies

/-- 10_state R22, 30_encoding R64, R65, R66: the fields of STATUS and the codes they carry. -/
def Obligations.StatusWordFields : Prop :=
  (∀ s : State, (statusWord s).extractLsb' 0 3 = seqCode s.st ∧ (statusWord s).extractLsb' 3 1 = 0#1 ∧
    (statusWord s).extractLsb' 4 4 = causeCode s.fcause ∧ (statusWord s).extractLsb' 8 24 = 0#24) ∧
  [seqCode .idle, seqCode .encBusy, seqCode .decBusy, seqCode .encDone, seqCode .capExceeded,
    seqCode .foundTerminator, seqCode .exhausted, seqCode .faulted] = [0, 1, 2, 3, 4, 5, 6, 7] ∧
  [causeCode .none, causeCode .illegalCmd, causeCode .badDim, causeCode .badMlen, causeCode .outFull,
    causeCode .gridBounds] = [0, 1, 2, 3, 4, 5] ∧
  (∀ c : FaultCause, (causeCode c).toNat ≤ 5)

/-- 10_state R30: BUSY, READY and FAULTED are the predicates of ST the spec gives, and exactly one holds. -/
def Obligations.ExactlyOneFlagHolds : Prop :=
  ∀ s : State,
    (busy s = true ↔ s.st = .encBusy ∨ s.st = .decBusy) ∧
    (ready s = true ↔ s.st = .idle ∨ s.st = .encDone ∨ s.st = .capExceeded ∨ s.st = .foundTerminator ∨
      s.st = .exhausted) ∧
    (faulted s = true ↔ s.st = .faulted) ∧
    (busy s).toNat + (ready s).toNat + (faulted s).toNat = 1

/-- 30_encoding R74, statement MSG: the moves it expands to, taken from a READY state, leave MSGIN[0 .. k-1] holding the
bytes and MLEN = k. -/
def Obligations.MsgStatementLoadsTheMessage : Prop :=
  ∀ (s : State) (m : List Byte) (rest : List HostMove), ready s = true → m.length ≤ s.cfg.mcap → s.cfg.wf →
    s.script = msgMoves m ++ rest →
    ∃ t, run (m.length + 1) s = .next t ∧ HoldsMessage t m ∧ t.script = rest ∧
      (∀ i, m.length ≤ i → cellsFind t.msgin i = cellsFind s.msgin i) ∧
      t = { s with msgin := t.msgin, mlen := t.mlen, script := t.script, replies := t.replies }

/-! ## Whole-machine rules -/

/-- 70_reset R200: reset, applied in any state, puts every register at its tabled value, keeps the message buffers and GRID,
and leaves the core READY with STATUS 0, doing nothing by itself; it is the only way out of FAULT, and what else ends a running
operation is only the engine's own step. 60_exceptions R187: an outcome stays in ST until the next CMD write or reset. -/
def Obligations.ResetTakesEveryRegisterToItsValue : Prop :=
  (∀ (s : State) (rest : List HostMove), s.script = .reset :: rest →
    ∃ t, step s = .next t ∧ ready t = true ∧ statusWord t = 0x00000000#32 ∧ engineStep t = .next t ∧
      t = { s with
        script := rest, st := .idle, fcause := .none, mlen := 0, olen := 0, avail := 0, req := 0, wreg := 0, hreg := 0
        x := 0, y := 0, byteIdx := 0, bitIdx := 0, curByte := 0 }) ∧
  (∀ (s t : State), step s = .next t → t.st ≠ s.st → ready s = false →
    (∃ rest, s.script = .reset :: rest) ∨ (busy s = true ∧ ∃ v, EngineTurn s v ∧ engineStep v = .next t)) ∧
  (∀ (s t : State), step s = .next t → t.st ≠ s.st → ready s = true →
    (∃ rest, s.script = .reset :: rest) ∨ ∃ v rest, s.script = cmdMove v :: rest)

/-- 10_state R29: the registers of the state after reset; and that state meets the invariant. (Its grid, its parameters and
its unwritten message cells are the model's choices, log entries 4, 5, 6: of them only the invariant is stated.) -/
def Obligations.ResetStateMeetsTheInvariant : Prop :=
  StateInv State.reset ∧ Progress State.reset ∧ ready State.reset = true ∧
  State.reset.fcause = .none ∧ State.reset.mlen = 0 ∧ State.reset.olen = 0 ∧ State.reset.avail = 0 ∧
  State.reset.req = 0 ∧ State.reset.wreg = 0 ∧ State.reset.hreg = 0 ∧ State.reset.x = 0 ∧ State.reset.y = 0 ∧
  State.reset.byteIdx = 0 ∧ State.reset.bitIdx = 0 ∧ State.reset.curByte = 0 ∧ State.reset.st = .idle

/-- 60_exceptions R182: in FAULT nothing but reset changes anything inside the core, FCAUSE included; every host write is
refused; and the engine takes no step. -/
def Obligations.FaultIsStickyUntilReset : Prop :=
  ∀ (s t : State), s.st = .faulted → step s = .next t →
    ((∀ rest, s.script ≠ .reset :: rest) → SameCore s t) ∧
    (∀ rest, s.script = .reset :: rest → t.st = .idle ∧ t.fcause = .none) ∧
    (∀ a v rest, s.script = .write a v :: rest → SameMachine s t ∧ t.replies = .err :: s.replies) ∧
    engineStep s = .next s

/-- 10_state R21: FCAUSE is NONE whenever ST is not FAULT and a cause code when it is; it is written once, on fault entry,
and only reset clears it. -/
def Obligations.FaultCauseIsWrittenOnce : Prop :=
  ∀ (s t : State), StateInv s → step s = .next t →
    (t.st = .faulted ↔ t.fcause ≠ .none) ∧
    (t.fcause ≠ s.fcause →
      (s.fcause = .none ∧ s.st ≠ .faulted ∧ t.st = .faulted) ∨
      (t.fcause = .none ∧ ∃ rest, s.script = .reset :: rest))

/-- 10_state R13, R14 (who writes the buffers): MSGIN changes only by a host write to it in a READY state; MSGOUT changes
only by a DECODE scan step, only at index OLEN, which grows by one. -/
def Obligations.BuffersAreWrittenOnlyByTheirOwner : Prop :=
  ∀ (s t : State), step s = .next t →
    (t.msgin ≠ s.msgin → ready s = true ∧ ∃ a v rest, s.script = .write a v :: rest ∧ a.space = 1#2) ∧
    (t.msgout ≠ s.msgout → (∃ v, EngineTurn s v) ∧ s.st = .decBusy ∧ t.olen = s.olen + 1 ∧
      ∀ i, i ≠ s.olen.toNat → cellsFind t.msgout i = cellsFind s.msgout i)

/-- 10_state R15 to R19 (who writes the operand and result registers), reset apart: MLEN only a host write to it; AVAIL, REQ
only an ENCODE start; OLEN only a DECODE start (to 0) or a DECODE scan step (by one); WREG, HREG only a START, to the
grid's dimensions. -/
def Obligations.RegistersAreWrittenOnlyByTheirOwner : Prop :=
  ∀ (s t : State), step s = .next t → (∀ rest, s.script ≠ .reset :: rest) →
    (t.mlen ≠ s.mlen → ready s = true ∧ ∃ v rest, s.script = .write (regAddr .mlen) v :: rest ∧ t.mlen = v) ∧
    (t.avail ≠ s.avail ∨ t.req ≠ s.req →
      ready s = true ∧ ∃ rest, s.script = startMove .encode :: rest) ∧
    (t.olen ≠ s.olen →
      (ready s = true ∧ t.olen = 0 ∧ ∃ rest, s.script = startMove .decode :: rest) ∨
      ((∃ v, EngineTurn s v) ∧ s.st = .decBusy ∧ t.olen = s.olen + 1)) ∧
    (t.wreg ≠ s.wreg ∨ t.hreg ≠ s.hreg →
      ready s = true ∧ t.wreg = s.grid.w ∧ t.hreg = s.grid.h ∧ ∃ i rest, s.script = startMove i :: rest)

/-- 10_state R11, 20_memory R55, 44_host_port R159 (who writes pixel memory): GRID changes only by an ENCODE scan step while
ENC_BUSY, or by a host move on GRID while not BUSY; the parameters never change (10_state R27). -/
def Obligations.GridIsWrittenOnlyByItsOwner : Prop :=
  ∀ (s t : State), step s = .next t →
    t.cfg = s.cfg ∧
    (t.grid ≠ s.grid →
      ((∃ v, EngineTurn s v) ∧ s.st = .encBusy ∧ t.grid.w = s.grid.w ∧ t.grid.h = s.grid.h) ∨
      (busy s = false ∧ ∃ m rest, s.script = m :: rest ∧
        ((∃ g, m = .loadGrid g) ∨ (∃ x y b, m = .writeBlue x y b) ∨ (∃ x y o, m = .writeOther x y o))))

/-- 20_memory R54: while ST is BUSY every host write is refused, so no step but reset changes MLEN or MSGIN: an ENCODE sees,
for its whole duration, the message that held at its START. -/
def Obligations.OperandsAreStableWhileBusy : Prop :=
  ∀ (s t : State), busy s = true → step s = .next t →
    (∀ a v rest, s.script = .write a v :: rest → t = { s with script := rest, replies := .err :: s.replies }) ∧
    ((∀ rest, s.script ≠ .reset :: rest) → t.mlen = s.mlen) ∧ t.msgin = s.msgin

/-- 20_memory R50: a read, of the port or of a pixel by the host, changes nothing of the machine, and repeating it returns
the same answer: for a port read of anything but a never-written cell that the port lets the host read (93 U1: not stable),
refused reads included, and for a read of a pixel's blue byte (as the model's readPixel answers it, log entry 19). -/
def Obligations.ReadsHaveNoSideEffect : Prop :=
  (∀ (s t : State) (a : HostAddr) (rest : List HostMove), s.script = .read a :: rest → step s = .next t →
    SameMachine s t) ∧
  (∀ (s t : State) (x y : Nat) (rest : List HostMove), s.script = .readPixel x y :: rest → step s = .next t →
    SameMachine s t) ∧
  (∀ (s : State) (a : HostAddr) (rest : List HostMove), s.script = .read a :: .read a :: rest →
    (busy s = false → a.index.toNat < s.cfg.mcap →
      (a.space = 1#2 → (cellsFind s.msgin a.index.toNat).isSome = true) ∧
      (a.space = 2#2 → (cellsFind s.msgout a.index.toNat).isSome = true)) →
    ∃ r, run 2 s = .next { s with script := rest, replies := r :: r :: s.replies }) ∧
  (∀ (s : State) (x y : Nat) (rest : List HostMove), s.script = .readPixel x y :: .readPixel x y :: rest →
    busy s = false → x < s.grid.w.toNat → y < s.grid.h.toNat →
    ∃ p, run 2 s = .next { s with script := rest, replies := .pixel p :: .pixel p :: s.replies } ∧
      getBlue s.grid x y = some p.blue)

/-- 44_host_port R159: while not BUSY the host may replace GRID by any grid this instance can be presented with, write any
field of any pixel, and read any pixel, and nothing inside the core changes; while BUSY it has no such move. Two things here
are the model's, not R159's: that a grid with W = 0 or H = 0 can be presented, against the host's duty (log entry 18, DEDUCED),
and that a pixel read answers with the whole pixel record (log entry 19, DESIGN CHOICE). -/
def Obligations.HostMovesOnGridComplete : Prop :=
  (∀ (s t : State) (m : HostMove) (rest : List HostMove), busy s = true → s.script = m :: rest → step s = .next t →
    (∀ g, m ≠ .loadGrid g) ∧ (∀ x y b, m ≠ .writeBlue x y b) ∧ (∀ x y o, m ≠ .writeOther x y o) ∧
      ∀ x y, m ≠ .readPixel x y) ∧
  ∀ (s : State) (rest : List HostMove), busy s = false →
    (∀ g, s.script = .loadGrid g :: rest → g.wf s.cfg → step s = .next { s with script := rest, grid := g }) ∧
    (∀ x y, x < s.grid.w.toNat → y < s.grid.h.toNat →
      (∀ b, s.script = .writeBlue x y b :: rest →
        ∃ g, step s = .next { s with script := rest, grid := g } ∧ g.w = s.grid.w ∧ g.h = s.grid.h ∧
          ∀ x' y', x' < s.grid.w.toNat → y' < s.grid.h.toNat → pixelAt g x' y' =
            if (x', y') = (x, y) then ⟨b, (pixelAt s.grid x y).other⟩ else pixelAt s.grid x' y') ∧
      (∀ o, o < 2 ^ s.cfg.otherw → s.script = .writeOther x y o :: rest →
        ∃ g, step s = .next { s with script := rest, grid := g } ∧ g.w = s.grid.w ∧ g.h = s.grid.h ∧
          ∀ x' y', x' < s.grid.w.toNat → y' < s.grid.h.toNat → pixelAt g x' y' =
            if (x', y') = (x, y) then ⟨(pixelAt s.grid x y).blue, o⟩ else pixelAt s.grid x' y') ∧
      (s.script = .readPixel x y :: rest →
        step s = .next { s with script := rest, replies := .pixel (pixelAt s.grid x y) :: s.replies }))

/-- 93 U7, 70_reset R207: a host access to GRID while BUSY has an undefined outcome, and the model stops by name there (a
choice of the model, log entry 8). -/
def Obligations.HostOnGridWhileBusyStops : Prop :=
  ∀ (s : State) (m : HostMove) (rest : List HostMove), busy s = true → s.script = m :: rest →
    ((∃ g, m = .loadGrid g) ∨ (∃ x y b, m = .writeBlue x y b) ∨ (∃ x y o, m = .writeOther x y o) ∨
      (∃ x y, m = .readPixel x y)) →
    step s = .fault .gridRace

/-- 10_state R28: the invariant, clauses (a) to (d), is kept by every step. -/
def Obligations.EveryStepKeepsTheInvariant : Prop :=
  ∀ (s t : State), StateInv s → step s = .next t → StateInv t

/-- The progress of a running operation is kept by every step: while ENC_BUSY the visited pixels carry their payload bits;
while DEC_BUSY MSGOUT holds the recovered bytes so far. -/
def Obligations.EveryStepKeepsTheProgress : Prop :=
  ∀ (s t : State), StateInv s → Progress s → step s = .next t → Progress t

/-- 70_reset R201: reset while ENC_BUSY leaves GRID as it is: the visited pixels carry their payload bits, and the frame has
no complete sentinel yet. Reset while DEC_BUSY leaves GRID and MSGOUT unchanged, and OLEN is 0. -/
def Obligations.ResetDuringAnOperation : Prop :=
  ∀ (s t : State) (rest : List HostMove), StateInv s → Progress s → s.script = .reset :: rest → step s = .next t →
    (s.st = .encBusy → t.grid = s.grid ∧ encVisited s < 8 * (s.mlen.toNat + 1) ∧
      ∀ n < encVisited s, streamBit s n = some (blueLsb t.grid n)) ∧
    (s.st = .decBusy → t.grid = s.grid ∧ t.msgout = s.msgout ∧ t.olen.toNat = 0)

/-! ## Outcomes -/

/-- 42_encode R113: when an ENCODE ends in ENC_DONE the first 8 * REQ pixels carry the frame, REQ = MLEN + 1 ≤ AVAIL =
(W * H) div 8, WIDTH and HEIGHT read the grid's dimensions, and the core is READY. -/
def Obligations.EncDoneLeavesTheFrame : Prop :=
  ∀ (s v t : State), EngineTurn s v → StateInv v → Progress v → v.st = .encBusy → step s = .next t → t.st = .encDone →
    (∀ n < 8 * t.req.toNat, streamBit t n = some (blueLsb t.grid n)) ∧
    t.req.toNat = t.mlen.toNat + 1 ∧ t.avail.toNat = t.grid.w.toNat * t.grid.h.toNat / 8 ∧
    t.req.toNat ≤ t.avail.toNat ∧ t.wreg = t.grid.w ∧ t.hreg = t.grid.h ∧ ready t = true

/-- 43_decode R133, R134: when a DECODE ends in FOUND_TERMINATOR, MSGOUT[0 .. OLEN-1] are the recovered bytes, none of them
0x7E, and the byte at position OLEN is the sentinel; when it ends in EXHAUSTED, the last pixel was visited, OLEN = (W * H) div 8
and no recovered byte is 0x7E. Both leave the core READY. -/
def Obligations.DecodeOutcomesDelimitTheMessage : Prop :=
  ∀ (s v t : State), EngineTurn s v → StateInv v → Progress v → v.st = .decBusy → step s = .next t →
    t.st = .foundTerminator ∨ t.st = .exhausted →
    t.grid = v.grid ∧ ready t = true ∧
    (∀ k < t.olen.toNat, cellsFind t.msgout k = some (recoveredByte t.grid k) ∧ recoveredByte t.grid k ≠ 0x7E#8) ∧
    (t.st = .foundTerminator → recoveredByte t.grid t.olen.toNat = 0x7E#8 ∧
      8 * t.olen.toNat + 7 < t.grid.w.toNat * t.grid.h.toNat) ∧
    (t.st = .exhausted → t.olen.toNat = t.grid.w.toNat * t.grid.h.toNat / 8 ∧
      t.x.toNat + 1 = t.grid.w.toNat ∧ t.y.toNat + 1 = t.grid.h.toNat)

/-! ## Whole operations -/

/-- 42_encode R119: an ENCODE that enters ENC_BUSY takes exactly 8 * REQ scan steps and then is in ENC_DONE; before its k-th
scan step the position is the one of pixel k, in bounds. -/
def Obligations.EncodeVisitsPixelsInOrder : Prop :=
  ∀ (s u : State), Startable s → exec .encode s = .next u → u.st = .encBusy →
    (∀ k < 8 * u.req.toNat, ∃ t, run k u = .next t ∧ t.st = .encBusy ∧
      8 * t.byteIdx.toNat + t.bitIdx.toNat = k ∧
      t.x.toNat = k % s.grid.w.toNat ∧ t.y.toNat = k / s.grid.w.toNat ∧
      8 * u.req.toNat ≤ s.grid.w.toNat * s.grid.h.toNat ∧
      t.x.toNat < s.grid.w.toNat ∧ t.y.toNat < s.grid.h.toNat) ∧
    (∃ t, run (8 * u.req.toNat) u = .next t ∧ t.st = .encDone)

/-- 43_decode R136: a DECODE that enters DEC_BUSY takes at most W * H scan steps; before its k-th scan step the position is the
one of pixel k, in bounds, with k mod 8 bits and k div 8 bytes done; GRID_BOUNDS is never raised. -/
def Obligations.DecodeVisitsPixelsInOrder : Prop :=
  ∀ (s u : State), Startable s → exec .decode s = .next u → u.st = .decBusy →
    (∀ k t, run k u = .next t → t.st = .decBusy →
      k < s.grid.w.toNat * s.grid.h.toNat ∧
      t.x.toNat = k % s.grid.w.toNat ∧ t.y.toNat = k / s.grid.w.toNat ∧
      t.bitIdx.toNat = k % 8 ∧ t.olen.toNat = k / 8 ∧
      t.x.toNat < s.grid.w.toNat ∧ t.y.toNat < s.grid.h.toNat) ∧
    (∃ k t, k ≤ s.grid.w.toNat * s.grid.h.toNat ∧ run k u = .next t ∧ busy t = false ∧ t.fcause ≠ .gridBounds)

/-- 42_encode R116, the closed form of ENCODE: started in a READY state with the message `m`, it fails the capacity check in
one step and leaves GRID alone, or after the START step and exactly 8 * (L + 1) scan steps leaves the encoded grid. -/
def Obligations.EncodeClosedForm : Prop :=
  ∀ (s : State) (m : List Byte), Startable s → HoldsMessage s m → m.length ≤ s.cfg.mcap →
    1 ≤ s.grid.w.toNat → 1 ≤ s.grid.h.toNat →
    (8 * (m.length + 1) > s.grid.w.toNat * s.grid.h.toNat →
      ∃ t, run 1 (s.withFetchWord 32 1) = .next t ∧ t.st = .capExceeded ∧ t.grid = s.grid ∧
        t.req.toNat = m.length + 1 ∧ t.avail.toNat = s.grid.w.toNat * s.grid.h.toNat / 8) ∧
    (8 * (m.length + 1) ≤ s.grid.w.toNat * s.grid.h.toNat →
      ∃ t, run (8 * (m.length + 1) + 1) (s.withFetchWord 32 1) = .next t ∧ t.st = .encDone ∧
        t.req.toNat = m.length + 1 ∧ t.avail.toNat = s.grid.w.toNat * s.grid.h.toNat / 8 ∧
        t.grid.w = s.grid.w ∧ t.grid.h = s.grid.h ∧
        ∀ x y, x < s.grid.w.toNat → y < s.grid.h.toNat →
          (pixelAt t.grid x y).other = (pixelAt s.grid x y).other ∧
          (pixelAt t.grid x y).blue =
            if y * s.grid.w.toNat + x < 8 * (m.length + 1) then
              ((pixelAt s.grid x y).blue &&& 0xFE#8) |||
                (((m ++ [0x7E#8]).getD ((y * s.grid.w.toNat + x) / 8) 0#8
                  >>> (7 - (y * s.grid.w.toNat + x) % 8)) &&& 1#8)
            else (pixelAt s.grid x y).blue)

/-- 41_bitstream R103: ENCODE overwrites the first 8 * (MLEN + 1) blue LSBs with Pack(payload) and leaves the rest; the
decoder's input is Unpack(Lsbs(GRID)). -/
def Obligations.EncodePacksTheLsbs : Prop :=
  (∀ (s : State) (m : List Byte), Startable s → HoldsMessage s m → m.length ≤ s.cfg.mcap →
    1 ≤ s.grid.w.toNat → 1 ≤ s.grid.h.toNat → 8 * (m.length + 1) ≤ s.grid.w.toNat * s.grid.h.toNat →
    ∃ t, run (8 * (m.length + 1) + 1) (s.withFetchWord 32 1) = .next t ∧ t.st = .encDone ∧
      lsbs t.grid = pack (m ++ [0x7E#8]) ++ (lsbs s.grid).drop (8 * (m.length + 1))) ∧
  (∀ (g : Grid), (lsbs g).length = g.w.toNat * g.h.toNat ∧
    (∀ n < g.w.toNat * g.h.toNat, (lsbs g)[n]? =
      some ((pixelAt g (n % g.w.toNat) (n / g.w.toNat)).blue.getLsbD 0)) ∧
    ∀ k < g.w.toNat * g.h.toNat / 8, (unpack (lsbs g))[k]? = some (recoveredByte g k))

/-- 43_decode R135, the closed form of DECODE, with B[k] the recovered bytes and K = (W * H) div 8: FOUND_TERMINATOR at the
least t with B[t] = 0x7E, EXHAUSTED if there is none, OUT_FULL if MSGOUT is too small; GRID is unchanged in every case. -/
def Obligations.DecodeClosedForm : Prop :=
  ∀ (s : State), Startable s → 1 ≤ s.grid.w.toNat → 1 ≤ s.grid.h.toNat →
    (∀ t, t < s.grid.w.toNat * s.grid.h.toNat / 8 → recoveredByte s.grid t = 0x7E#8 →
      (∀ k < t, recoveredByte s.grid k ≠ 0x7E#8) → t ≤ s.cfg.mcap →
      ∃ u, run (8 * (t + 1) + 1) (s.withFetchWord 32 2) = .next u ∧ u.st = .foundTerminator ∧ u.olen.toNat = t ∧
        (∀ k < t, cellsFind u.msgout k = some (recoveredByte s.grid k)) ∧ u.grid = s.grid) ∧
    ((∀ k < s.grid.w.toNat * s.grid.h.toNat / 8, recoveredByte s.grid k ≠ 0x7E#8) →
      s.grid.w.toNat * s.grid.h.toNat / 8 ≤ s.cfg.mcap →
      ∃ u, run (s.grid.w.toNat * s.grid.h.toNat + 1) (s.withFetchWord 32 2) = .next u ∧ u.st = .exhausted ∧
        u.olen.toNat = s.grid.w.toNat * s.grid.h.toNat / 8 ∧
        (∀ k < s.grid.w.toNat * s.grid.h.toNat / 8, cellsFind u.msgout k = some (recoveredByte s.grid k)) ∧
        u.grid = s.grid) ∧
    ((∀ k < s.cfg.mcap + 1, recoveredByte s.grid k ≠ 0x7E#8) →
      s.cfg.mcap < s.grid.w.toNat * s.grid.h.toNat / 8 →
      ∃ u, run (8 * (s.cfg.mcap + 1) + 1) (s.withFetchWord 32 2) = .next u ∧ u.st = .faulted ∧ u.fcause = .outFull ∧
        u.olen.toNat = s.cfg.mcap ∧ (∀ k < s.cfg.mcap, cellsFind u.msgout k = some (recoveredByte s.grid k)) ∧
        u.grid = s.grid)

/-- 43_decode R138, round trip: if an ENCODE of `m` ended in ENC_DONE, a DECODE of the resulting grid (in any READY state of
the core, with no change to the grid) ends in FOUND_TERMINATOR with the bytes of `m` before its first 0x7E: all of `m` if it
has none. -/
def Obligations.DecodeOfEncodeIsTheMessage : Prop :=
  ∀ (s t v : State) (m : List Byte) (c : Nat), Startable s → HoldsMessage s m → m.length ≤ s.cfg.mcap →
    1 ≤ s.grid.w.toNat → 1 ≤ s.grid.h.toNat → 8 * (m.length + 1) ≤ s.grid.w.toNat * s.grid.h.toNat →
    run (8 * (m.length + 1) + 1) (s.withFetchWord 32 1) = .next t →
    Startable v → v.grid = t.grid → v.cfg = t.cfg →
    (m ++ [0x7E#8])[c]? = some 0x7E#8 → (∀ k < c, (m ++ [0x7E#8])[k]? ≠ some 0x7E#8) →
    ∃ u, run (8 * (c + 1) + 1) (v.withFetchWord 32 2) = .next u ∧ u.st = .foundTerminator ∧ u.olen.toNat = c ∧
      ∀ k < c, cellsFind u.msgout k = m[k]?

/-- 42_encode R118, idempotence: encoding the encoded grid again with the same message, and more generally encoding into a
grid whose blue LSBs already equal the stream bits, gives the very same grid. -/
def Obligations.EncodingAgainChangesNothing : Prop :=
  (∀ (s t v : State) (m : List Byte), Startable s → HoldsMessage s m → m.length ≤ s.cfg.mcap →
    1 ≤ s.grid.w.toNat → 1 ≤ s.grid.h.toNat → 8 * (m.length + 1) ≤ s.grid.w.toNat * s.grid.h.toNat →
    run (8 * (m.length + 1) + 1) (s.withFetchWord 32 1) = .next t →
    Startable v → v.grid = t.grid → v.cfg = t.cfg → HoldsMessage v m →
    ∃ u, run (8 * (m.length + 1) + 1) (v.withFetchWord 32 1) = .next u ∧ u.st = .encDone ∧ u.grid = t.grid) ∧
  (∀ (s : State) (m : List Byte), Startable s → HoldsMessage s m → m.length ≤ s.cfg.mcap →
    1 ≤ s.grid.w.toNat → 1 ≤ s.grid.h.toNat → 8 * (m.length + 1) ≤ s.grid.w.toNat * s.grid.h.toNat →
    (∀ n < 8 * (m.length + 1), blueLsb s.grid n = ((m ++ [0x7E#8]).getD (n / 8) 0#8).getLsbD (7 - n % 8)) →
    ∃ u, run (8 * (m.length + 1) + 1) (s.withFetchWord 32 1) = .next u ∧ u.st = .encDone ∧ u.grid = s.grid)

/-- 42_encode R117, determinism: two runs of ENCODE that start from the same GRID, MLEN and MSGIN[0 .. MLEN-1] agree at every
step, whatever else the two states hold. -/
def Obligations.EncodeDependsOnItsOperandsOnly : Prop :=
  ∀ (s s' : State), Startable s → Startable s' → s.cfg = s'.cfg → s.grid = s'.grid → s.mlen = s'.mlen →
    (∀ i < s.mlen.toNat, cellsFind s.msgin i = cellsFind s'.msgin i) →
    ∀ k t, run (k + 1) (s.withFetchWord 32 1) = .next t →
      ∃ t', run (k + 1) (s'.withFetchWord 32 1) = .next t' ∧ t'.grid = t.grid ∧ t'.st = t.st ∧
        t'.fcause = t.fcause ∧ t'.wreg = t.wreg ∧ t'.hreg = t.hreg ∧
        (t.st ≠ .faulted → t'.avail = t.avail ∧ t'.req = t.req) ∧
        (t.st = .encBusy ∨ t.st = .encDone →
          t'.x = t.x ∧ t'.y = t.y ∧ t'.byteIdx = t.byteIdx ∧ t'.bitIdx = t.bitIdx)

/-- 43_decode R139, determinism: two runs of DECODE that start from grids of the same size with the same blue LSBs, under the
same MCAP, agree at every step: the upper seven bits of the blue bytes, the other fields, MSGIN, MLEN and all else have no
influence. Assumed: W, H ≥ 1 (a zero dimension is BAD_DIM, DecodeStartStep, which leaves OLEN and MSGOUT as they were). -/
def Obligations.DecodeDependsOnTheLsbsOnly : Prop :=
  ∀ (s s' : State), Startable s → Startable s' → s.cfg.mcap = s'.cfg.mcap →
    s.grid.w = s'.grid.w → s.grid.h = s'.grid.h → lsbs s.grid = lsbs s'.grid →
    1 ≤ s.grid.w.toNat → 1 ≤ s.grid.h.toNat →
    ∀ k t, run (k + 1) (s.withFetchWord 32 2) = .next t →
      ∃ t', run (k + 1) (s'.withFetchWord 32 2) = .next t' ∧ t'.st = t.st ∧ t'.fcause = t.fcause ∧
        t'.wreg = t.wreg ∧ t'.hreg = t.hreg ∧ t'.x = t.x ∧ t'.y = t.y ∧ t'.bitIdx = t.bitIdx ∧ t'.curByte = t.curByte ∧
        t'.olen = t.olen ∧ ∀ i < t.olen.toNat, cellsFind t'.msgout i = cellsFind t.msgout i

/-- 44_host_port R157: WAIT ends: from any state that meets the invariant, waiting at the head of the script, the engine
reaches a state that is not BUSY within W * H + 1 steps and the host goes on with the rest of its moves. The `+ 1` is the
model's, not the spec's: a WAIT takes one step to leave the script (log entry 3, DESIGN CHOICE). That step, and every turn of
the engine while ST is not BUSY, leave all else as it is (60_exceptions R190: "all state ... is retained"). -/
def Obligations.WaitAlwaysEnds : Prop :=
  (∀ (s : State) (rest : List HostMove), StateInv s → s.script = .wait :: rest →
    ∃ k t, k ≤ s.grid.w.toNat * s.grid.h.toNat + 1 ∧ run k s = .next t ∧ busy t = false ∧ t.script = rest) ∧
  (∀ (s : State) (rest : List HostMove), busy s = false → s.script = .wait :: rest →
    step s = .next { s with script := rest }) ∧
  (∀ (s v : State), EngineTurn s v → busy v = false → step s = .next v)

/-- 95 section 8 item 9, a FALSE variant: that every message comes back whole. A message that contains 0x7E is truncated
(70_reset R205). -/
def Obligations.EveryMessageComesBackWhole : Prop :=
  ∀ (s t u : State) (m : List Byte), Startable s → HoldsMessage s m → m.length ≤ s.cfg.mcap →
    1 ≤ s.grid.w.toNat → 1 ≤ s.grid.h.toNat → 8 * (m.length + 1) ≤ s.grid.w.toNat * s.grid.h.toNat →
    run (8 * (m.length + 1) + 1) (s.withFetchWord 32 1) = .next t →
    run (8 * (m.length + 1) + 1) (t.withFetchWord 32 2) = .next u →
    u.olen.toNat = m.length
end

