-- ==== Sys2Proof/Laws/Bits.lean ====
section
/-! SUPPORT. The laws of the bit primitives (41_bitstream R91 to R95, R102). -/

namespace Sys2Proof.Machine

open Sys2Proof

theorem extractBit_eq_getLsbD (b : Byte) : extractBit b = b.getLsbD 0 := by
  revert b; decide

/-- ExtractBit(EmbedBit(blue, bit)) = bit (R94). -/
@[simp] theorem extractBit_embedBit (blue : Byte) (bit : Bool) : extractBit (embedBit blue bit) = bit := by
  revert blue bit; decide

/-- EmbedBit keeps bits 7:1 (R93). -/
theorem embedBit_high (blue : Byte) (bit : Bool) : embedBit blue bit >>> 1 = blue >>> 1 := by
  revert blue bit; decide

@[simp] theorem embedBit_embedBit (blue : Byte) (a b : Bool) : embedBit (embedBit blue a) b = embedBit blue b := by
  revert blue a b; decide

/-- EmbedBit(blue, blue[0]) = blue (R93). -/
theorem embedBit_extractBit (blue : Byte) (bit : Bool) (h : extractBit blue = bit) : embedBit blue bit = blue := by
  revert blue bit; decide

theorem bitByte_extractBit (b : Byte) : bitByte (extractBit b) = b &&& 1#8 := by
  revert b; decide

/-- Bit 7 - j of a payload byte (R91). -/
theorem payloadBit_eq_getLsbD (p : Byte) (j : Nat) : payloadBit p j = p.getLsbD (7 - j) := by
  simp [payloadBit, extractBit_eq_getLsbD]

theorem shiftIn_toNat (cur : Byte) (bit : Bool) : (shiftIn cur bit).toNat = (2 * cur.toNat + bit.toNat) % 256 := by
  revert cur bit; decide

/-- Shifting in `count` bits, first bit first. -/
def shiftMany (f : Nat → Bool) (cur : Byte) (count : Nat) : Byte :=
  (List.range count).foldl (fun c j => shiftIn c (f j)) cur

theorem shiftMany_succ (f : Nat → Bool) (cur : Byte) (n : Nat) :
    shiftMany f cur (n + 1) = shiftIn (shiftMany f cur n) (f n) := by
  simp [shiftMany, List.range_succ]

/-- Eight shifts replace every bit, whatever the register held (R95), and assemble the byte of R70. -/
theorem shiftMany_eight (f : Nat → Bool) (cur : Byte) : shiftMany f cur 8 = byteOfBits f := by
  apply BitVec.eq_of_toNat_eq
  simp only [shiftMany_succ, shiftIn_toNat, show shiftMany f cur 0 = cur from rfl]
  simp only [byteOfBits, List.range_succ, List.range_zero, List.nil_append, List.cons_append, List.map_cons,
    List.map_nil, List.sum_cons, List.sum_nil, BitVec.toNat_ofNat]
  have := cur.isLt
  have h := fun n => Bool.toNat_lt (f n)
  have h0 := h 0; have h1 := h 1; have h2 := h 2; have h3 := h 3
  have h4 := h 4; have h5 := h 5; have h6 := h 6; have h7 := h 7
  norm_num
  omega

/-- The byte assembled from its own payload bits is the byte (R102). -/
theorem byteOfBits_payloadBit (p : Byte) : byteOfBits (payloadBit p) = p := by
  revert p; decide

theorem byteOfBits_congr {f g : Nat → Bool} (h : ∀ j < 8, f j = g j) : byteOfBits f = byteOfBits g := by
  unfold byteOfBits
  congr 2
  refine List.map_congr_left fun j hj => ?_
  rw [h j (List.mem_range.1 hj)]

end Sys2Proof.Machine
end

