-- ==== Sys2Proof/Laws/Cells.lean ====
section
/-! SUPPORT. The laws of a sparse memory: a read after a write gives the value written, a write leaves every other
address alone, every operation keeps the canonical form, and equal readings in canonical form are equal data. -/

namespace Sys2Proof.Machine

open Sys2Proof

variable {α : Type}

theorem cellsFind_put (m : Cells α) (a b : Nat) (v : α) :
    cellsFind (cellsPut m a v) b = if b = a then some v else cellsFind m b := by
  induction m with
  | nil => simp [cellsPut, cellsFind, eq_comm]
  | cons e m ih =>
    obtain ⟨k, u⟩ := e
    simp only [cellsPut]
    split
    · simp only [cellsFind, eq_comm]
    · split
      · subst k; simp only [cellsFind]; by_cases h : a = b <;> simp [h, eq_comm]
      · simp only [cellsFind, ih]
        by_cases h : k = b
        · subst k; simp; omega
        · simp [h]

theorem cellsFind_drop (m : Cells α) (a b : Nat) :
    cellsFind (cellsDrop m a) b = if b = a then none else cellsFind m b := by
  induction m with
  | nil => simp [cellsDrop, cellsFind]
  | cons e m ih =>
    obtain ⟨k, u⟩ := e
    simp only [cellsDrop]
    by_cases h : k = a
    · simp only [h, if_true, ih, cellsFind]
      by_cases hb : b = a
      · simp [hb]
      · simp [hb, Ne.symm hb]
    · simp only [h, if_false, cellsFind, ih]
      by_cases hk : k = b
      · subst hk; simp [h]
      · simp [hk]

variable [DecidableEq α]

/-- READ AFTER WRITE, where an unlisted address reads as `d`. -/
theorem cellsRead_write (d : α) (m : Cells α) (a b : Nat) (v : α) :
    cellsRead d (cellsWrite (some d) m a v) b = if b = a then v else cellsRead d m b := by
  unfold cellsRead cellsWrite
  split
  · next h => rw [cellsFind_drop]; split <;> simp_all
  · rw [cellsFind_put]; split <;> simp

theorem cellsFind_write_none (m : Cells α) (a b : Nat) (v : α) :
    cellsFind (cellsWrite none m a v) b = if b = a then some v else cellsFind m b := by
  simp [cellsWrite, cellsFind_put]

/-- READ AFTER WRITE of a message cell. -/
theorem cellsFind_memWrite (m : Memory) (a b : Nat) (v : Byte) :
    cellsFind (memWrite m a v) b = if b = a then some v else cellsFind m b :=
  cellsFind_write_none m a b v

/-! ## The canonical form -/

omit [DecidableEq α] in
theorem cellsRising_mono {lo lo' : Nat} {m : Cells α} (h : lo' ≤ lo) (hr : cellsRising (some lo) m = true) :
    cellsRising (some lo') m = true := by
  cases m with
  | nil => rfl
  | cons e m =>
    simp only [cellsRising, Bool.and_eq_true, decide_eq_true_eq] at hr ⊢
    exact ⟨by omega, hr.2⟩

omit [DecidableEq α] in
theorem cellsRising_none {lo : Nat} {m : Cells α} (hr : cellsRising (some lo) m = true) :
    cellsRising none m = true := by
  cases m with
  | nil => rfl
  | cons e m =>
    simp only [cellsRising, Bool.and_eq_true] at hr ⊢
    exact hr.2

omit [DecidableEq α] in
theorem cellsRising_put {lo : Nat} {m : Cells α} {a : Nat} (v : α) (ha : lo < a)
    (hr : cellsRising (some lo) m = true) : cellsRising (some lo) (cellsPut m a v) = true := by
  induction m generalizing lo with
  | nil => simp [cellsPut, cellsRising, ha]
  | cons e m ih =>
    obtain ⟨k, u⟩ := e
    simp only [cellsRising, Bool.and_eq_true, decide_eq_true_eq] at hr
    simp only [cellsPut]
    split
    · simp [cellsRising, hr.2, *]
    · split
      · subst k; simp [cellsRising, ha, hr.2]
      · simp only [cellsRising, Bool.and_eq_true, decide_eq_true_eq]
        exact ⟨hr.1, ih (by omega) hr.2⟩

omit [DecidableEq α] in
theorem cellsRising_put_none {m : Cells α} {a : Nat} (v : α) (hr : cellsRising none m = true) :
    cellsRising none (cellsPut m a v) = true := by
  cases m with
  | nil => rfl
  | cons e m =>
    obtain ⟨k, u⟩ := e
    simp only [cellsRising] at hr
    simp only [cellsPut]
    split
    · simp [cellsRising, *]
    · split
      · subst k; simpa [cellsRising] using hr
      · exact cellsRising_put v (by omega) hr

omit [DecidableEq α] in
theorem cellsRising_drop {lo : Nat} {m : Cells α} (a : Nat) (hr : cellsRising (some lo) m = true) :
    cellsRising (some lo) (cellsDrop m a) = true := by
  induction m generalizing lo with
  | nil => rfl
  | cons e m ih =>
    obtain ⟨k, u⟩ := e
    simp only [cellsRising, Bool.and_eq_true, decide_eq_true_eq] at hr
    simp only [cellsDrop]
    split
    · exact ih (cellsRising_mono (Nat.le_of_lt hr.1) hr.2)
    · simp only [cellsRising, Bool.and_eq_true, decide_eq_true_eq]
      exact ⟨hr.1, ih hr.2⟩

omit [DecidableEq α] in
theorem cellsRising_drop_none {m : Cells α} (a : Nat) (hr : cellsRising none m = true) :
    cellsRising none (cellsDrop m a) = true := by
  cases m with
  | nil => rfl
  | cons e m =>
    obtain ⟨k, u⟩ := e
    simp only [cellsRising] at hr
    simp only [cellsDrop]
    split
    · exact cellsRising_none (cellsRising_drop a hr)
    · exact cellsRising_drop a hr

omit [DecidableEq α] in
/-- A property of every entry survives listing an entry that has it. -/
theorem all_put (p : Nat × α → Bool) {m : Cells α} {a : Nat} {v : α} (hm : m.all p = true)
    (hv : p (a, v) = true) : (cellsPut m a v).all p = true := by
  induction m with
  | nil => simp [cellsPut, hv]
  | cons e m ih =>
    obtain ⟨k, u⟩ := e
    simp only [List.all_cons, Bool.and_eq_true] at hm
    simp only [cellsPut]
    split
    · simp [hv, hm.1, hm.2]
    · split
      · simp [hv, hm.2]
      · simp [hm.1, ih hm.2]

omit [DecidableEq α] in
theorem all_drop (p : Nat × α → Bool) {m : Cells α} (a : Nat) (hm : m.all p = true) :
    (cellsDrop m a).all p = true := by
  induction m with
  | nil => rfl
  | cons e m ih =>
    obtain ⟨k, u⟩ := e
    simp only [List.all_cons, Bool.and_eq_true] at hm
    simp only [cellsDrop]
    split
    · exact ih hm.2
    · simp [hm.1, ih hm.2]

/-- A property of every entry survives a write of an entry that has it. -/
theorem all_write (p : Nat × α → Bool) (d : Option α) {m : Cells α} {a : Nat} {v : α} (hm : m.all p = true)
    (hv : p (a, v) = true) : (cellsWrite d m a v).all p = true := by
  unfold cellsWrite
  split
  · exact all_drop p a hm
  · exact all_put p hm hv

/-- EVERY WRITE KEEPS THE CANONICAL FORM. -/
theorem cellsWf_write {d : Option α} {m : Cells α} (a : Nat) (v : α) (hm : cellsWf d m = true) :
    cellsWf d (cellsWrite d m a v) = true := by
  simp only [cellsWf, Bool.and_eq_true] at hm ⊢
  unfold cellsWrite
  split
  · exact ⟨cellsRising_drop_none a hm.1, all_drop _ a hm.2⟩
  · next h => exact ⟨cellsRising_put_none v hm.1, all_put _ hm.2 (by simpa using fun e => h e.symm)⟩

theorem memWf_write {cap : Nat} {m : Memory} {i : Nat} (b : Byte) (hm : Memory.wf cap m = true) (hi : i < cap) :
    Memory.wf cap (memWrite m i b) = true := by
  simp only [Memory.wf, Bool.and_eq_true] at hm ⊢
  exact ⟨cellsWf_write i b hm.1, all_write _ _ hm.2 (by simpa using hi)⟩

/-! ## Equal readings in canonical form are equal data -/

omit [DecidableEq α] in
theorem cellsFind_none_of_rising {lo : Nat} {m : Cells α} (hr : cellsRising (some lo) m = true) {a : Nat}
    (ha : a ≤ lo) : cellsFind m a = none := by
  induction m generalizing lo with
  | nil => rfl
  | cons e m ih =>
    obtain ⟨k, u⟩ := e
    simp only [cellsRising, Bool.and_eq_true, decide_eq_true_eq] at hr
    simp only [cellsFind, show k ≠ a by omega, if_false]
    exact ih hr.2 (by omega)

omit [DecidableEq α] in
theorem cells_ext_rising {m m' : Cells α} : cellsRising none m = true → cellsRising none m' = true →
    (∀ a, cellsFind m a = cellsFind m' a) → m = m' := by
  induction m generalizing m' with
  | nil =>
    intro _ _ h
    cases m' with
    | nil => rfl
    | cons e m' => have := h e.1; simp [cellsFind] at this
  | cons e m ih =>
    obtain ⟨k, u⟩ := e
    intro h1 h2 h
    cases m' with
    | nil => have := h k; simp [cellsFind] at this
    | cons e' m' =>
      obtain ⟨k', u'⟩ := e'
      simp only [cellsRising] at h1 h2
      have hk : k = k' := by
        rcases Nat.lt_trichotomy k k' with hlt | heq | hgt
        · have := h k
          simp [cellsFind, show k' ≠ k by omega, cellsFind_none_of_rising h2 (Nat.le_of_lt hlt)] at this
        · exact heq
        · have := h k'
          simp [cellsFind, show k ≠ k' by omega, cellsFind_none_of_rising h1 (Nat.le_of_lt hgt)] at this
      subst hk
      have hu : u = u' := by have := h k; simpa [cellsFind] using this
      subst hu
      congr 1
      refine ih (cellsRising_none h1) (cellsRising_none h2) fun a => ?_
      by_cases ha : k = a
      · subst ha
        rw [cellsFind_none_of_rising h1 (Nat.le_refl _), cellsFind_none_of_rising h2 (Nat.le_refl _)]
      · simpa [cellsFind, ha] using h a

omit [DecidableEq α] in
theorem cellsFind_mem {m : Cells α} {a : Nat} {v : α} (h : cellsFind m a = some v) : (a, v) ∈ m := by
  induction m with
  | nil => simp [cellsFind] at h
  | cons e m ih =>
    obtain ⟨k, u⟩ := e
    simp only [cellsFind] at h
    split at h
    · simp_all
    · exact List.mem_cons_of_mem _ (ih h)

/-- In canonical form a memory is determined by what its addresses read as. -/
theorem cells_ext {d : α} {m m' : Cells α} (hm : cellsWf (some d) m = true) (hm' : cellsWf (some d) m' = true)
    (h : ∀ a, cellsRead d m a = cellsRead d m' a) : m = m' := by
  simp only [cellsWf, Bool.and_eq_true, List.all_eq_true, decide_eq_true_eq] at hm hm'
  refine cells_ext_rising hm.1 hm'.1 fun a => ?_
  have ha := h a
  unfold cellsRead at ha
  cases h1 : cellsFind m a with
  | none =>
    cases h2 : cellsFind m' a with
    | none => rfl
    | some v => have := hm'.2 _ (cellsFind_mem h2); simp_all
  | some u =>
    cases h2 : cellsFind m' a with
    | none => have := hm.2 _ (cellsFind_mem h1); simp_all
    | some v => simp_all

end Sys2Proof.Machine
end

