-- ==== Sys2Proof/Laws/Positions.lean ====
section
/-! SUPPORT. The laws of the position advances (20_memory R41; 41_bitstream R96 to R98) and of the capacity
arithmetic (R99 to R101). -/

namespace Sys2Proof.Machine

open Sys2Proof

/-- Distinct in-bounds pixels have distinct linear indices (20_memory R41). -/
theorem linearIndex_inj {w x y x' y' : Nat} (hx : x < w) (hx' : x' < w)
    (h : linearIndex w x y = linearIndex w x' y') : x = x' ∧ y = y' := by
  unfold linearIndex at h
  have h1 : (y * w + x) / w = y := by
    rw [Nat.mul_comm, Nat.mul_add_div (by omega), Nat.div_eq_of_lt hx]; omega
  have h2 : (y' * w + x') / w = y' := by
    rw [Nat.mul_comm, Nat.mul_add_div (by omega), Nat.div_eq_of_lt hx']; omega
  have hy : y = y' := by rw [← h1, ← h2, h]
  subst hy
  omega

theorem linearIndex_lt {w h x y : Nat} (hx : x < w) (hy : y < h) : linearIndex w x y < w * h := by
  unfold linearIndex
  calc y * w + x < y * w + w := by omega
    _ = (y + 1) * w := by ring
    _ ≤ h * w := Nat.mul_le_mul_right w hy
    _ = w * h := Nat.mul_comm ..

/-- The pixel with linear index n is (n mod W, n div W) (20_memory R41). -/
theorem linearIndex_mod_div (w n : Nat) : linearIndex w (n % w) (n / w) = n := by
  unfold linearIndex; rw [Nat.mul_comm]; exact Nat.div_add_mod n w

theorem mod_lt_div_lt {w h n : Nat} (hn : n < w * h) : n % w < w ∧ n / w < h := by
  have hw : 0 < w := Nat.pos_of_ne_zero (by rintro rfl; omega)
  exact ⟨Nat.mod_lt _ hw, Nat.div_lt_of_lt_mul hn⟩

/-- One ScanNext is one more pixel in row-major order (R96). -/
theorem scanNext_mod_div {w : Nat} (hw : 0 < w) (n : Nat) :
    scanNext w (n % w) (n / w) = ((n + 1) % w, (n + 1) / w) := by
  have hd := Nat.div_add_mod n w
  have hm := Nat.mod_lt n hw
  unfold scanNext
  split
  · next h =>
    have e : n + 1 = w * (n / w + 1) := by rw [Nat.mul_add, Nat.mul_one]; omega
    rw [e, Nat.mul_mod_right, Nat.mul_div_cancel_left _ hw]
  · next h =>
    have e : n + 1 = w * (n / w) + (n % w + 1) := by omega
    have hlt : n % w + 1 < w := by omega
    rw [e, Nat.mul_add_mod, Nat.mod_eq_of_lt hlt, Nat.mul_add_div hw, Nat.div_eq_of_lt hlt]
    rfl

/-- The last pixel is the one with linear index W * H - 1 (R97). -/
theorem isLast_iff {w h x y : Nat} (hx : x < w) (hy : y < h) :
    isLast w h x y = true ↔ linearIndex w x y + 1 = w * h := by
  simp only [isLast, Bool.and_eq_true, decide_eq_true_eq]
  constructor
  · rintro ⟨hx', hy'⟩
    unfold linearIndex
    rw [← hy', Nat.mul_add, Nat.mul_one, Nat.mul_comm w y]; omega
  · intro hl
    by_contra hc
    have hlt : linearIndex w x y + 1 < w * h := by
      rcases Nat.lt_or_ge (x + 1) w with h1 | h1
      · exact Nat.lt_of_le_of_lt (Nat.le_of_eq (by simp [linearIndex, Nat.add_assoc])) (linearIndex_lt h1 hy)
      · have hxe : x + 1 = w := by omega
        have hy1 : y + 1 < h := by omega
        have : linearIndex w x y + 1 = linearIndex w 0 (y + 1) := by
          simp only [linearIndex, Nat.add_mul, Nat.one_mul]; omega
        rw [this]
        exact linearIndex_lt (by omega) hy1
    omega

/-- BitNext counts: 8 * byteidx + bitidx grows by one (R98), while the byte index does not wrap. -/
theorem bitNext_count (bi : Word) (bj : BitIndex) (h : bi.toNat + 1 < 2 ^ 32) :
    8 * (bitNext bi bj).1.toNat + (bitNext bi bj).2.toNat = 8 * bi.toNat + bj.toNat + 1 := by
  have := bj.isLt
  unfold bitNext
  split
  · next h7 =>
    subst h7
    simp only [BitVec.toNat_add, BitVec.toNat_ofNat]
    omega
  · next h7 =>
    have h7' : bj.toNat ≠ 7 := fun e => h7 (BitVec.eq_of_toNat_eq (by simpa using e))
    simp only [BitVec.toNat_add, BitVec.toNat_ofNat]
    omega

/-- The check may compare the two byte counts: no multiplication by 8 is needed (R100). -/
theorem capacityExceeded_iff (w h l : Nat) :
    capacityExceeded w h l = true ↔ requiredBytes l > availBytes w h := by
  unfold capacityExceeded requiredBits availBytes capacityBits
  rw [decide_eq_true_eq]
  generalize w * h = n
  omega

/-- No product of two dimensions wraps (R101). -/
theorem dims_product_lt (w h : Dim) : w.toNat * h.toNat < 2 ^ 32 := by
  have hw : w.toNat ≤ 65535 := by have := w.isLt; omega
  have hh : h.toNat ≤ 65535 := by have := h.isLt; omega
  calc w.toNat * h.toNat ≤ 65535 * 65535 := Nat.mul_le_mul hw hh
    _ < 2 ^ 32 := by norm_num

end Sys2Proof.Machine
end

