-- ==== Sys2Proof/Laws/Grid.lean ====
section
/-! SUPPORT. The laws of pixel memory (40_pixelgrid R82 to R87). -/

namespace Sys2Proof.Machine

open Sys2Proof

/-- The pixel with linear index n. -/
def pixelN (g : Grid) (n : Nat) : Pixel := cellsRead Pixel.blank g.pix n

theorem pixelAt_eq_pixelN (g : Grid) (x y : Nat) : pixelAt g x y = pixelN g (linearIndex g.w.toNat x y) := rfl

theorem blueLsb_eq (g : Grid) (n : Nat) : blueLsb g n = extractBit (pixelN g n).blue := rfl

theorem inBounds_iff (g : Grid) (x y : Nat) : inBounds g x y = true ↔ x < g.w.toNat ∧ y < g.h.toNat := by
  simp [inBounds]

theorem getBlue_eq_some {g : Grid} {x y : Nat} {b : Byte} (h : getBlue g x y = some b) :
    x < g.w.toNat ∧ y < g.h.toNat ∧ b = (pixelAt g x y).blue := by
  unfold getBlue at h
  split at h
  · next hb => exact ⟨((inBounds_iff ..).1 hb).1, ((inBounds_iff ..).1 hb).2, (Option.some.inj h).symm⟩
  · cases h

theorem getBlue_of_inBounds {g : Grid} {x y : Nat} (hx : x < g.w.toNat) (hy : y < g.h.toNat) :
    getBlue g x y = some (pixelAt g x y).blue := by
  simp [getBlue, (inBounds_iff g x y).2 ⟨hx, hy⟩]

theorem setBlue_of_inBounds {g : Grid} {x y : Nat} (b : Byte) (hx : x < g.w.toNat) (hy : y < g.h.toNat) :
    setBlue g x y b = some (putPixel g x y { pixelAt g x y with blue := b }) := by
  simp [setBlue, (inBounds_iff g x y).2 ⟨hx, hy⟩]

theorem setBlue_eq_some {g g' : Grid} {x y : Nat} {b : Byte} (h : setBlue g x y b = some g') :
    x < g.w.toNat ∧ y < g.h.toNat ∧ g' = putPixel g x y { pixelAt g x y with blue := b } := by
  unfold setBlue at h
  split at h
  · next hb => exact ⟨((inBounds_iff ..).1 hb).1, ((inBounds_iff ..).1 hb).2, (Option.some.inj h).symm⟩
  · cases h

@[simp] theorem putPixel_w (g : Grid) (x y : Nat) (p : Pixel) : (putPixel g x y p).w = g.w := rfl
@[simp] theorem putPixel_h (g : Grid) (x y : Nat) (p : Pixel) : (putPixel g x y p).h = g.h := rfl

/-- A pixel write, seen by linear index. -/
theorem pixelN_putPixel (g : Grid) (x y : Nat) (p : Pixel) (n : Nat) :
    pixelN (putPixel g x y p) n = if n = linearIndex g.w.toNat x y then p else pixelN g n :=
  cellsRead_write ..

/-- A pixel write, seen by coordinates: no other pixel changes (R85, R86). -/
theorem pixelAt_putPixel {g : Grid} {x y x' y' : Nat} (p : Pixel) (hx : x < g.w.toNat) (hx' : x' < g.w.toNat) :
    pixelAt (putPixel g x y p) x' y' = if x' = x ∧ y' = y then p else pixelAt g x' y' := by
  rw [pixelAt_eq_pixelN, putPixel_w, pixelN_putPixel]
  by_cases h : x' = x ∧ y' = y
  · simp [h.1, h.2]
  · rw [if_neg h, if_neg fun e => h (linearIndex_inj hx' hx e)]; rfl

theorem pixWf_other {ow n k : Nat} {m : Cells Pixel} (hm : Grid.pixWf ow n m = true) :
    (cellsRead Pixel.blank m k).other < 2 ^ ow := by
  simp only [Grid.pixWf, Bool.and_eq_true, List.all_eq_true, decide_eq_true_eq] at hm
  unfold cellsRead
  cases h : cellsFind m k with
  | none => exact Nat.two_pow_pos ow
  | some v => exact (hm.2 _ (cellsFind_mem h)).2

/-- A pixel write keeps the grid well formed. -/
theorem gridWf_putPixel {c : Config} {g : Grid} {x y : Nat} {p : Pixel} (hg : g.wf c) (hx : x < g.w.toNat)
    (hy : y < g.h.toNat) (hp : p.other < 2 ^ c.otherw) : (putPixel g x y p).wf c := by
  obtain ⟨hw, hh, hpix⟩ := hg
  refine ⟨hw, hh, ?_⟩
  simp only [Grid.pixWf, Bool.and_eq_true] at hpix ⊢
  refine ⟨cellsWf_write _ _ hpix.1, all_write _ _ hpix.2 ?_⟩
  simp only [Bool.and_eq_true, decide_eq_true_eq]
  exact ⟨linearIndex_lt hx hy, hp⟩

theorem pixelAt_other_lt {c : Config} {g : Grid} (hg : g.wf c) (x y : Nat) :
    (pixelAt g x y).other < 2 ^ c.otherw := pixWf_other hg.2.2

/-- Two well-formed grids of the same size whose pixels read the same are the same grid. -/
theorem grid_ext {c c' : Config} {g g' : Grid} (hg : g.wf c) (hg' : g'.wf c') (hw : g.w = g'.w) (hh : g.h = g'.h)
    (h : ∀ n, pixelN g n = pixelN g' n) : g = g' := by
  obtain ⟨w, hgt, pix⟩ := g
  obtain ⟨w', hgt', pix'⟩ := g'
  simp only at hw hh
  subst hw hh
  congr 1
  have h1 := hg.2.2
  have h2 := hg'.2.2
  simp only [Grid.pixWf, Bool.and_eq_true] at h1 h2
  exact cells_ext h1.1 h2.1 h

end Sys2Proof.Machine
end

