-- ==== Sys2Proof/Laws/State.lean ====
section
/-! SUPPORT. One lemma per field per state update, each true by rfl, so that no later proof unfolds a record
update. -/

namespace Sys2Proof.Machine

open Sys2Proof

section SetSt
variable (v : SeqState) (s : State)
@[simp] theorem setSt_cfg : (setSt v s).cfg = s.cfg := rfl
@[simp] theorem setSt_grid : (setSt v s).grid = s.grid := rfl
@[simp] theorem setSt_msgin : (setSt v s).msgin = s.msgin := rfl
@[simp] theorem setSt_msgout : (setSt v s).msgout = s.msgout := rfl
@[simp] theorem setSt_mlen : (setSt v s).mlen = s.mlen := rfl
@[simp] theorem setSt_olen : (setSt v s).olen = s.olen := rfl
@[simp] theorem setSt_avail : (setSt v s).avail = s.avail := rfl
@[simp] theorem setSt_req : (setSt v s).req = s.req := rfl
@[simp] theorem setSt_wreg : (setSt v s).wreg = s.wreg := rfl
@[simp] theorem setSt_hreg : (setSt v s).hreg = s.hreg := rfl
@[simp] theorem setSt_st : (setSt v s).st = v := rfl
@[simp] theorem setSt_fcause : (setSt v s).fcause = s.fcause := rfl
@[simp] theorem setSt_x : (setSt v s).x = s.x := rfl
@[simp] theorem setSt_y : (setSt v s).y = s.y := rfl
@[simp] theorem setSt_byteIdx : (setSt v s).byteIdx = s.byteIdx := rfl
@[simp] theorem setSt_bitIdx : (setSt v s).bitIdx = s.bitIdx := rfl
@[simp] theorem setSt_curByte : (setSt v s).curByte = s.curByte := rfl
@[simp] theorem setSt_script : (setSt v s).script = s.script := rfl
@[simp] theorem setSt_replies : (setSt v s).replies = s.replies := rfl
@[simp] theorem setSt_freeCtr : (setSt v s).freeCtr = s.freeCtr := rfl
end SetSt

section SetXY
variable (p : Nat × Nat) (s : State)
@[simp] theorem setXY_cfg : (setXY p s).cfg = s.cfg := rfl
@[simp] theorem setXY_grid : (setXY p s).grid = s.grid := rfl
@[simp] theorem setXY_msgin : (setXY p s).msgin = s.msgin := rfl
@[simp] theorem setXY_msgout : (setXY p s).msgout = s.msgout := rfl
@[simp] theorem setXY_mlen : (setXY p s).mlen = s.mlen := rfl
@[simp] theorem setXY_olen : (setXY p s).olen = s.olen := rfl
@[simp] theorem setXY_avail : (setXY p s).avail = s.avail := rfl
@[simp] theorem setXY_req : (setXY p s).req = s.req := rfl
@[simp] theorem setXY_wreg : (setXY p s).wreg = s.wreg := rfl
@[simp] theorem setXY_hreg : (setXY p s).hreg = s.hreg := rfl
@[simp] theorem setXY_st : (setXY p s).st = s.st := rfl
@[simp] theorem setXY_fcause : (setXY p s).fcause = s.fcause := rfl
@[simp] theorem setXY_x : (setXY p s).x = fitDim s.cfg.xw p.1 := rfl
@[simp] theorem setXY_y : (setXY p s).y = fitDim s.cfg.yw p.2 := rfl
@[simp] theorem setXY_byteIdx : (setXY p s).byteIdx = s.byteIdx := rfl
@[simp] theorem setXY_bitIdx : (setXY p s).bitIdx = s.bitIdx := rfl
@[simp] theorem setXY_curByte : (setXY p s).curByte = s.curByte := rfl
@[simp] theorem setXY_script : (setXY p s).script = s.script := rfl
@[simp] theorem setXY_replies : (setXY p s).replies = s.replies := rfl
@[simp] theorem setXY_freeCtr : (setXY p s).freeCtr = s.freeCtr := rfl
end SetXY

section SetBitPos
variable (p : Word × BitIndex) (s : State)
@[simp] theorem setBitPos_cfg : (setBitPos p s).cfg = s.cfg := rfl
@[simp] theorem setBitPos_grid : (setBitPos p s).grid = s.grid := rfl
@[simp] theorem setBitPos_msgin : (setBitPos p s).msgin = s.msgin := rfl
@[simp] theorem setBitPos_msgout : (setBitPos p s).msgout = s.msgout := rfl
@[simp] theorem setBitPos_mlen : (setBitPos p s).mlen = s.mlen := rfl
@[simp] theorem setBitPos_olen : (setBitPos p s).olen = s.olen := rfl
@[simp] theorem setBitPos_avail : (setBitPos p s).avail = s.avail := rfl
@[simp] theorem setBitPos_req : (setBitPos p s).req = s.req := rfl
@[simp] theorem setBitPos_wreg : (setBitPos p s).wreg = s.wreg := rfl
@[simp] theorem setBitPos_hreg : (setBitPos p s).hreg = s.hreg := rfl
@[simp] theorem setBitPos_st : (setBitPos p s).st = s.st := rfl
@[simp] theorem setBitPos_fcause : (setBitPos p s).fcause = s.fcause := rfl
@[simp] theorem setBitPos_x : (setBitPos p s).x = s.x := rfl
@[simp] theorem setBitPos_y : (setBitPos p s).y = s.y := rfl
@[simp] theorem setBitPos_byteIdx : (setBitPos p s).byteIdx = p.1 := rfl
@[simp] theorem setBitPos_bitIdx : (setBitPos p s).bitIdx = p.2 := rfl
@[simp] theorem setBitPos_curByte : (setBitPos p s).curByte = s.curByte := rfl
@[simp] theorem setBitPos_script : (setBitPos p s).script = s.script := rfl
@[simp] theorem setBitPos_replies : (setBitPos p s).replies = s.replies := rfl
@[simp] theorem setBitPos_freeCtr : (setBitPos p s).freeCtr = s.freeCtr := rfl
end SetBitPos

section SampleDims
variable (s : State)
@[simp] theorem sampleDims_cfg : (sampleDims s).cfg = s.cfg := rfl
@[simp] theorem sampleDims_grid : (sampleDims s).grid = s.grid := rfl
@[simp] theorem sampleDims_msgin : (sampleDims s).msgin = s.msgin := rfl
@[simp] theorem sampleDims_msgout : (sampleDims s).msgout = s.msgout := rfl
@[simp] theorem sampleDims_mlen : (sampleDims s).mlen = s.mlen := rfl
@[simp] theorem sampleDims_olen : (sampleDims s).olen = s.olen := rfl
@[simp] theorem sampleDims_avail : (sampleDims s).avail = s.avail := rfl
@[simp] theorem sampleDims_req : (sampleDims s).req = s.req := rfl
@[simp] theorem sampleDims_wreg : (sampleDims s).wreg = s.grid.w := rfl
@[simp] theorem sampleDims_hreg : (sampleDims s).hreg = s.grid.h := rfl
@[simp] theorem sampleDims_st : (sampleDims s).st = s.st := rfl
@[simp] theorem sampleDims_fcause : (sampleDims s).fcause = s.fcause := rfl
@[simp] theorem sampleDims_x : (sampleDims s).x = s.x := rfl
@[simp] theorem sampleDims_y : (sampleDims s).y = s.y := rfl
@[simp] theorem sampleDims_byteIdx : (sampleDims s).byteIdx = s.byteIdx := rfl
@[simp] theorem sampleDims_bitIdx : (sampleDims s).bitIdx = s.bitIdx := rfl
@[simp] theorem sampleDims_curByte : (sampleDims s).curByte = s.curByte := rfl
@[simp] theorem sampleDims_script : (sampleDims s).script = s.script := rfl
@[simp] theorem sampleDims_replies : (sampleDims s).replies = s.replies := rfl
@[simp] theorem sampleDims_freeCtr : (sampleDims s).freeCtr = s.freeCtr := rfl
end SampleDims

section StoreCapacity
variable (s : State)
@[simp] theorem storeCapacity_cfg : (storeCapacity s).cfg = s.cfg := rfl
@[simp] theorem storeCapacity_grid : (storeCapacity s).grid = s.grid := rfl
@[simp] theorem storeCapacity_msgin : (storeCapacity s).msgin = s.msgin := rfl
@[simp] theorem storeCapacity_msgout : (storeCapacity s).msgout = s.msgout := rfl
@[simp] theorem storeCapacity_mlen : (storeCapacity s).mlen = s.mlen := rfl
@[simp] theorem storeCapacity_olen : (storeCapacity s).olen = s.olen := rfl
@[simp] theorem storeCapacity_avail : (storeCapacity s).avail = BitVec.ofNat 32 (availBytes s.wreg.toNat s.hreg.toNat) := rfl
@[simp] theorem storeCapacity_req : (storeCapacity s).req = BitVec.ofNat 32 (requiredBytes s.mlen.toNat) := rfl
@[simp] theorem storeCapacity_wreg : (storeCapacity s).wreg = s.wreg := rfl
@[simp] theorem storeCapacity_hreg : (storeCapacity s).hreg = s.hreg := rfl
@[simp] theorem storeCapacity_st : (storeCapacity s).st = s.st := rfl
@[simp] theorem storeCapacity_fcause : (storeCapacity s).fcause = s.fcause := rfl
@[simp] theorem storeCapacity_x : (storeCapacity s).x = s.x := rfl
@[simp] theorem storeCapacity_y : (storeCapacity s).y = s.y := rfl
@[simp] theorem storeCapacity_byteIdx : (storeCapacity s).byteIdx = s.byteIdx := rfl
@[simp] theorem storeCapacity_bitIdx : (storeCapacity s).bitIdx = s.bitIdx := rfl
@[simp] theorem storeCapacity_curByte : (storeCapacity s).curByte = s.curByte := rfl
@[simp] theorem storeCapacity_script : (storeCapacity s).script = s.script := rfl
@[simp] theorem storeCapacity_replies : (storeCapacity s).replies = s.replies := rfl
@[simp] theorem storeCapacity_freeCtr : (storeCapacity s).freeCtr = s.freeCtr := rfl
end StoreCapacity

section SetGrid
variable (g : Grid) (s : State)
@[simp] theorem setGrid_cfg : (setGrid g s).cfg = s.cfg := rfl
@[simp] theorem setGrid_grid : (setGrid g s).grid = g := rfl
@[simp] theorem setGrid_msgin : (setGrid g s).msgin = s.msgin := rfl
@[simp] theorem setGrid_msgout : (setGrid g s).msgout = s.msgout := rfl
@[simp] theorem setGrid_mlen : (setGrid g s).mlen = s.mlen := rfl
@[simp] theorem setGrid_olen : (setGrid g s).olen = s.olen := rfl
@[simp] theorem setGrid_avail : (setGrid g s).avail = s.avail := rfl
@[simp] theorem setGrid_req : (setGrid g s).req = s.req := rfl
@[simp] theorem setGrid_wreg : (setGrid g s).wreg = s.wreg := rfl
@[simp] theorem setGrid_hreg : (setGrid g s).hreg = s.hreg := rfl
@[simp] theorem setGrid_st : (setGrid g s).st = s.st := rfl
@[simp] theorem setGrid_fcause : (setGrid g s).fcause = s.fcause := rfl
@[simp] theorem setGrid_x : (setGrid g s).x = s.x := rfl
@[simp] theorem setGrid_y : (setGrid g s).y = s.y := rfl
@[simp] theorem setGrid_byteIdx : (setGrid g s).byteIdx = s.byteIdx := rfl
@[simp] theorem setGrid_bitIdx : (setGrid g s).bitIdx = s.bitIdx := rfl
@[simp] theorem setGrid_curByte : (setGrid g s).curByte = s.curByte := rfl
@[simp] theorem setGrid_script : (setGrid g s).script = s.script := rfl
@[simp] theorem setGrid_replies : (setGrid g s).replies = s.replies := rfl
@[simp] theorem setGrid_freeCtr : (setGrid g s).freeCtr = s.freeCtr := rfl
end SetGrid

section SetMlen
variable (v : Word) (s : State)
@[simp] theorem setMlen_cfg : (setMlen v s).cfg = s.cfg := rfl
@[simp] theorem setMlen_grid : (setMlen v s).grid = s.grid := rfl
@[simp] theorem setMlen_msgin : (setMlen v s).msgin = s.msgin := rfl
@[simp] theorem setMlen_msgout : (setMlen v s).msgout = s.msgout := rfl
@[simp] theorem setMlen_mlen : (setMlen v s).mlen = v := rfl
@[simp] theorem setMlen_olen : (setMlen v s).olen = s.olen := rfl
@[simp] theorem setMlen_avail : (setMlen v s).avail = s.avail := rfl
@[simp] theorem setMlen_req : (setMlen v s).req = s.req := rfl
@[simp] theorem setMlen_wreg : (setMlen v s).wreg = s.wreg := rfl
@[simp] theorem setMlen_hreg : (setMlen v s).hreg = s.hreg := rfl
@[simp] theorem setMlen_st : (setMlen v s).st = s.st := rfl
@[simp] theorem setMlen_fcause : (setMlen v s).fcause = s.fcause := rfl
@[simp] theorem setMlen_x : (setMlen v s).x = s.x := rfl
@[simp] theorem setMlen_y : (setMlen v s).y = s.y := rfl
@[simp] theorem setMlen_byteIdx : (setMlen v s).byteIdx = s.byteIdx := rfl
@[simp] theorem setMlen_bitIdx : (setMlen v s).bitIdx = s.bitIdx := rfl
@[simp] theorem setMlen_curByte : (setMlen v s).curByte = s.curByte := rfl
@[simp] theorem setMlen_script : (setMlen v s).script = s.script := rfl
@[simp] theorem setMlen_replies : (setMlen v s).replies = s.replies := rfl
@[simp] theorem setMlen_freeCtr : (setMlen v s).freeCtr = s.freeCtr := rfl
end SetMlen

section SetMsgin
variable (i : Nat) (b : Byte) (s : State)
@[simp] theorem setMsgin_cfg : (setMsgin i b s).cfg = s.cfg := rfl
@[simp] theorem setMsgin_grid : (setMsgin i b s).grid = s.grid := rfl
@[simp] theorem setMsgin_msgin : (setMsgin i b s).msgin = memWrite s.msgin i b := rfl
@[simp] theorem setMsgin_msgout : (setMsgin i b s).msgout = s.msgout := rfl
@[simp] theorem setMsgin_mlen : (setMsgin i b s).mlen = s.mlen := rfl
@[simp] theorem setMsgin_olen : (setMsgin i b s).olen = s.olen := rfl
@[simp] theorem setMsgin_avail : (setMsgin i b s).avail = s.avail := rfl
@[simp] theorem setMsgin_req : (setMsgin i b s).req = s.req := rfl
@[simp] theorem setMsgin_wreg : (setMsgin i b s).wreg = s.wreg := rfl
@[simp] theorem setMsgin_hreg : (setMsgin i b s).hreg = s.hreg := rfl
@[simp] theorem setMsgin_st : (setMsgin i b s).st = s.st := rfl
@[simp] theorem setMsgin_fcause : (setMsgin i b s).fcause = s.fcause := rfl
@[simp] theorem setMsgin_x : (setMsgin i b s).x = s.x := rfl
@[simp] theorem setMsgin_y : (setMsgin i b s).y = s.y := rfl
@[simp] theorem setMsgin_byteIdx : (setMsgin i b s).byteIdx = s.byteIdx := rfl
@[simp] theorem setMsgin_bitIdx : (setMsgin i b s).bitIdx = s.bitIdx := rfl
@[simp] theorem setMsgin_curByte : (setMsgin i b s).curByte = s.curByte := rfl
@[simp] theorem setMsgin_script : (setMsgin i b s).script = s.script := rfl
@[simp] theorem setMsgin_replies : (setMsgin i b s).replies = s.replies := rfl
@[simp] theorem setMsgin_freeCtr : (setMsgin i b s).freeCtr = s.freeCtr := rfl
end SetMsgin

section AppendOut
variable (b : Byte) (s : State)
@[simp] theorem appendOut_cfg : (appendOut b s).cfg = s.cfg := rfl
@[simp] theorem appendOut_grid : (appendOut b s).grid = s.grid := rfl
@[simp] theorem appendOut_msgin : (appendOut b s).msgin = s.msgin := rfl
@[simp] theorem appendOut_msgout : (appendOut b s).msgout = memWrite s.msgout s.olen.toNat b := rfl
@[simp] theorem appendOut_mlen : (appendOut b s).mlen = s.mlen := rfl
@[simp] theorem appendOut_olen : (appendOut b s).olen = s.olen + 1#32 := rfl
@[simp] theorem appendOut_avail : (appendOut b s).avail = s.avail := rfl
@[simp] theorem appendOut_req : (appendOut b s).req = s.req := rfl
@[simp] theorem appendOut_wreg : (appendOut b s).wreg = s.wreg := rfl
@[simp] theorem appendOut_hreg : (appendOut b s).hreg = s.hreg := rfl
@[simp] theorem appendOut_st : (appendOut b s).st = s.st := rfl
@[simp] theorem appendOut_fcause : (appendOut b s).fcause = s.fcause := rfl
@[simp] theorem appendOut_x : (appendOut b s).x = s.x := rfl
@[simp] theorem appendOut_y : (appendOut b s).y = s.y := rfl
@[simp] theorem appendOut_byteIdx : (appendOut b s).byteIdx = s.byteIdx := rfl
@[simp] theorem appendOut_bitIdx : (appendOut b s).bitIdx = s.bitIdx := rfl
@[simp] theorem appendOut_curByte : (appendOut b s).curByte = s.curByte := rfl
@[simp] theorem appendOut_script : (appendOut b s).script = s.script := rfl
@[simp] theorem appendOut_replies : (appendOut b s).replies = s.replies := rfl
@[simp] theorem appendOut_freeCtr : (appendOut b s).freeCtr = s.freeCtr := rfl
end AppendOut

section SetRunning
variable (b : Byte) (j : BitIndex) (s : State)
@[simp] theorem setRunning_cfg : (setRunning b j s).cfg = s.cfg := rfl
@[simp] theorem setRunning_grid : (setRunning b j s).grid = s.grid := rfl
@[simp] theorem setRunning_msgin : (setRunning b j s).msgin = s.msgin := rfl
@[simp] theorem setRunning_msgout : (setRunning b j s).msgout = s.msgout := rfl
@[simp] theorem setRunning_mlen : (setRunning b j s).mlen = s.mlen := rfl
@[simp] theorem setRunning_olen : (setRunning b j s).olen = s.olen := rfl
@[simp] theorem setRunning_avail : (setRunning b j s).avail = s.avail := rfl
@[simp] theorem setRunning_req : (setRunning b j s).req = s.req := rfl
@[simp] theorem setRunning_wreg : (setRunning b j s).wreg = s.wreg := rfl
@[simp] theorem setRunning_hreg : (setRunning b j s).hreg = s.hreg := rfl
@[simp] theorem setRunning_st : (setRunning b j s).st = s.st := rfl
@[simp] theorem setRunning_fcause : (setRunning b j s).fcause = s.fcause := rfl
@[simp] theorem setRunning_x : (setRunning b j s).x = s.x := rfl
@[simp] theorem setRunning_y : (setRunning b j s).y = s.y := rfl
@[simp] theorem setRunning_byteIdx : (setRunning b j s).byteIdx = s.byteIdx := rfl
@[simp] theorem setRunning_bitIdx : (setRunning b j s).bitIdx = j := rfl
@[simp] theorem setRunning_curByte : (setRunning b j s).curByte = b := rfl
@[simp] theorem setRunning_script : (setRunning b j s).script = s.script := rfl
@[simp] theorem setRunning_replies : (setRunning b j s).replies = s.replies := rfl
@[simp] theorem setRunning_freeCtr : (setRunning b j s).freeCtr = s.freeCtr := rfl
end SetRunning

section Reply
variable (r : Reply) (s : State)
@[simp] theorem reply_cfg : (reply r s).cfg = s.cfg := rfl
@[simp] theorem reply_grid : (reply r s).grid = s.grid := rfl
@[simp] theorem reply_msgin : (reply r s).msgin = s.msgin := rfl
@[simp] theorem reply_msgout : (reply r s).msgout = s.msgout := rfl
@[simp] theorem reply_mlen : (reply r s).mlen = s.mlen := rfl
@[simp] theorem reply_olen : (reply r s).olen = s.olen := rfl
@[simp] theorem reply_avail : (reply r s).avail = s.avail := rfl
@[simp] theorem reply_req : (reply r s).req = s.req := rfl
@[simp] theorem reply_wreg : (reply r s).wreg = s.wreg := rfl
@[simp] theorem reply_hreg : (reply r s).hreg = s.hreg := rfl
@[simp] theorem reply_st : (reply r s).st = s.st := rfl
@[simp] theorem reply_fcause : (reply r s).fcause = s.fcause := rfl
@[simp] theorem reply_x : (reply r s).x = s.x := rfl
@[simp] theorem reply_y : (reply r s).y = s.y := rfl
@[simp] theorem reply_byteIdx : (reply r s).byteIdx = s.byteIdx := rfl
@[simp] theorem reply_bitIdx : (reply r s).bitIdx = s.bitIdx := rfl
@[simp] theorem reply_curByte : (reply r s).curByte = s.curByte := rfl
@[simp] theorem reply_script : (reply r s).script = s.script := rfl
@[simp] theorem reply_replies : (reply r s).replies = r :: s.replies := rfl
@[simp] theorem reply_freeCtr : (reply r s).freeCtr = s.freeCtr := rfl
end Reply

section SetScript
variable (l : List HostMove) (s : State)
@[simp] theorem setScript_cfg : (setScript l s).cfg = s.cfg := rfl
@[simp] theorem setScript_grid : (setScript l s).grid = s.grid := rfl
@[simp] theorem setScript_msgin : (setScript l s).msgin = s.msgin := rfl
@[simp] theorem setScript_msgout : (setScript l s).msgout = s.msgout := rfl
@[simp] theorem setScript_mlen : (setScript l s).mlen = s.mlen := rfl
@[simp] theorem setScript_olen : (setScript l s).olen = s.olen := rfl
@[simp] theorem setScript_avail : (setScript l s).avail = s.avail := rfl
@[simp] theorem setScript_req : (setScript l s).req = s.req := rfl
@[simp] theorem setScript_wreg : (setScript l s).wreg = s.wreg := rfl
@[simp] theorem setScript_hreg : (setScript l s).hreg = s.hreg := rfl
@[simp] theorem setScript_st : (setScript l s).st = s.st := rfl
@[simp] theorem setScript_fcause : (setScript l s).fcause = s.fcause := rfl
@[simp] theorem setScript_x : (setScript l s).x = s.x := rfl
@[simp] theorem setScript_y : (setScript l s).y = s.y := rfl
@[simp] theorem setScript_byteIdx : (setScript l s).byteIdx = s.byteIdx := rfl
@[simp] theorem setScript_bitIdx : (setScript l s).bitIdx = s.bitIdx := rfl
@[simp] theorem setScript_curByte : (setScript l s).curByte = s.curByte := rfl
@[simp] theorem setScript_script : (setScript l s).script = l := rfl
@[simp] theorem setScript_replies : (setScript l s).replies = s.replies := rfl
@[simp] theorem setScript_freeCtr : (setScript l s).freeCtr = s.freeCtr := rfl
end SetScript

section DrawFree
variable (s : State)
@[simp] theorem drawFree_cfg : (drawFree s).cfg = s.cfg := rfl
@[simp] theorem drawFree_grid : (drawFree s).grid = s.grid := rfl
@[simp] theorem drawFree_msgin : (drawFree s).msgin = s.msgin := rfl
@[simp] theorem drawFree_msgout : (drawFree s).msgout = s.msgout := rfl
@[simp] theorem drawFree_mlen : (drawFree s).mlen = s.mlen := rfl
@[simp] theorem drawFree_olen : (drawFree s).olen = s.olen := rfl
@[simp] theorem drawFree_avail : (drawFree s).avail = s.avail := rfl
@[simp] theorem drawFree_req : (drawFree s).req = s.req := rfl
@[simp] theorem drawFree_wreg : (drawFree s).wreg = s.wreg := rfl
@[simp] theorem drawFree_hreg : (drawFree s).hreg = s.hreg := rfl
@[simp] theorem drawFree_st : (drawFree s).st = s.st := rfl
@[simp] theorem drawFree_fcause : (drawFree s).fcause = s.fcause := rfl
@[simp] theorem drawFree_x : (drawFree s).x = s.x := rfl
@[simp] theorem drawFree_y : (drawFree s).y = s.y := rfl
@[simp] theorem drawFree_byteIdx : (drawFree s).byteIdx = s.byteIdx := rfl
@[simp] theorem drawFree_bitIdx : (drawFree s).bitIdx = s.bitIdx := rfl
@[simp] theorem drawFree_curByte : (drawFree s).curByte = s.curByte := rfl
@[simp] theorem drawFree_script : (drawFree s).script = s.script := rfl
@[simp] theorem drawFree_replies : (drawFree s).replies = s.replies := rfl
@[simp] theorem drawFree_freeCtr : (drawFree s).freeCtr = s.freeCtr + 1 := rfl
end DrawFree

section RaiseFault
variable (c : FaultCause) (s : State)
@[simp] theorem raiseFault_cfg : (raiseFault c s).cfg = s.cfg := rfl
@[simp] theorem raiseFault_grid : (raiseFault c s).grid = s.grid := rfl
@[simp] theorem raiseFault_msgin : (raiseFault c s).msgin = s.msgin := rfl
@[simp] theorem raiseFault_msgout : (raiseFault c s).msgout = s.msgout := rfl
@[simp] theorem raiseFault_mlen : (raiseFault c s).mlen = s.mlen := rfl
@[simp] theorem raiseFault_olen : (raiseFault c s).olen = s.olen := rfl
@[simp] theorem raiseFault_avail : (raiseFault c s).avail = s.avail := rfl
@[simp] theorem raiseFault_req : (raiseFault c s).req = s.req := rfl
@[simp] theorem raiseFault_wreg : (raiseFault c s).wreg = s.wreg := rfl
@[simp] theorem raiseFault_hreg : (raiseFault c s).hreg = s.hreg := rfl
@[simp] theorem raiseFault_st : (raiseFault c s).st = .faulted := rfl
@[simp] theorem raiseFault_fcause : (raiseFault c s).fcause = c := rfl
@[simp] theorem raiseFault_x : (raiseFault c s).x = s.x := rfl
@[simp] theorem raiseFault_y : (raiseFault c s).y = s.y := rfl
@[simp] theorem raiseFault_byteIdx : (raiseFault c s).byteIdx = s.byteIdx := rfl
@[simp] theorem raiseFault_bitIdx : (raiseFault c s).bitIdx = s.bitIdx := rfl
@[simp] theorem raiseFault_curByte : (raiseFault c s).curByte = s.curByte := rfl
@[simp] theorem raiseFault_script : (raiseFault c s).script = s.script := rfl
@[simp] theorem raiseFault_replies : (raiseFault c s).replies = s.replies := rfl
@[simp] theorem raiseFault_freeCtr : (raiseFault c s).freeCtr = s.freeCtr := rfl
end RaiseFault

section ApplyReset
variable (s : State)
@[simp] theorem applyReset_cfg : (applyReset s).cfg = s.cfg := rfl
@[simp] theorem applyReset_grid : (applyReset s).grid = s.grid := rfl
@[simp] theorem applyReset_msgin : (applyReset s).msgin = s.msgin := rfl
@[simp] theorem applyReset_msgout : (applyReset s).msgout = s.msgout := rfl
@[simp] theorem applyReset_mlen : (applyReset s).mlen = 0 := rfl
@[simp] theorem applyReset_olen : (applyReset s).olen = 0 := rfl
@[simp] theorem applyReset_avail : (applyReset s).avail = 0 := rfl
@[simp] theorem applyReset_req : (applyReset s).req = 0 := rfl
@[simp] theorem applyReset_wreg : (applyReset s).wreg = 0 := rfl
@[simp] theorem applyReset_hreg : (applyReset s).hreg = 0 := rfl
@[simp] theorem applyReset_st : (applyReset s).st = .idle := rfl
@[simp] theorem applyReset_fcause : (applyReset s).fcause = .none := rfl
@[simp] theorem applyReset_x : (applyReset s).x = 0 := rfl
@[simp] theorem applyReset_y : (applyReset s).y = 0 := rfl
@[simp] theorem applyReset_byteIdx : (applyReset s).byteIdx = 0 := rfl
@[simp] theorem applyReset_bitIdx : (applyReset s).bitIdx = 0 := rfl
@[simp] theorem applyReset_curByte : (applyReset s).curByte = 0 := rfl
@[simp] theorem applyReset_script : (applyReset s).script = s.script := rfl
@[simp] theorem applyReset_replies : (applyReset s).replies = s.replies := rfl
@[simp] theorem applyReset_freeCtr : (applyReset s).freeCtr = s.freeCtr := rfl
end ApplyReset

section BeginEncode
variable (s : State)
@[simp] theorem beginEncode_cfg : (beginEncode s).cfg = s.cfg := rfl
@[simp] theorem beginEncode_grid : (beginEncode s).grid = s.grid := rfl
@[simp] theorem beginEncode_msgin : (beginEncode s).msgin = s.msgin := rfl
@[simp] theorem beginEncode_msgout : (beginEncode s).msgout = s.msgout := rfl
@[simp] theorem beginEncode_mlen : (beginEncode s).mlen = s.mlen := rfl
@[simp] theorem beginEncode_olen : (beginEncode s).olen = s.olen := rfl
@[simp] theorem beginEncode_avail : (beginEncode s).avail = s.avail := rfl
@[simp] theorem beginEncode_req : (beginEncode s).req = s.req := rfl
@[simp] theorem beginEncode_wreg : (beginEncode s).wreg = s.wreg := rfl
@[simp] theorem beginEncode_hreg : (beginEncode s).hreg = s.hreg := rfl
@[simp] theorem beginEncode_st : (beginEncode s).st = .encBusy := rfl
@[simp] theorem beginEncode_fcause : (beginEncode s).fcause = s.fcause := rfl
@[simp] theorem beginEncode_x : (beginEncode s).x = fitDim s.cfg.xw 0 := rfl
@[simp] theorem beginEncode_y : (beginEncode s).y = fitDim s.cfg.yw 0 := rfl
@[simp] theorem beginEncode_byteIdx : (beginEncode s).byteIdx = 0 := rfl
@[simp] theorem beginEncode_bitIdx : (beginEncode s).bitIdx = 0 := rfl
@[simp] theorem beginEncode_curByte : (beginEncode s).curByte = s.curByte := rfl
@[simp] theorem beginEncode_script : (beginEncode s).script = s.script := rfl
@[simp] theorem beginEncode_replies : (beginEncode s).replies = s.replies := rfl
@[simp] theorem beginEncode_freeCtr : (beginEncode s).freeCtr = s.freeCtr := rfl
end BeginEncode

section BeginDecode
variable (s : State)
@[simp] theorem beginDecode_cfg : (beginDecode s).cfg = s.cfg := rfl
@[simp] theorem beginDecode_grid : (beginDecode s).grid = s.grid := rfl
@[simp] theorem beginDecode_msgin : (beginDecode s).msgin = s.msgin := rfl
@[simp] theorem beginDecode_msgout : (beginDecode s).msgout = s.msgout := rfl
@[simp] theorem beginDecode_mlen : (beginDecode s).mlen = s.mlen := rfl
@[simp] theorem beginDecode_olen : (beginDecode s).olen = 0 := rfl
@[simp] theorem beginDecode_avail : (beginDecode s).avail = s.avail := rfl
@[simp] theorem beginDecode_req : (beginDecode s).req = s.req := rfl
@[simp] theorem beginDecode_wreg : (beginDecode s).wreg = s.wreg := rfl
@[simp] theorem beginDecode_hreg : (beginDecode s).hreg = s.hreg := rfl
@[simp] theorem beginDecode_st : (beginDecode s).st = .decBusy := rfl
@[simp] theorem beginDecode_fcause : (beginDecode s).fcause = s.fcause := rfl
@[simp] theorem beginDecode_x : (beginDecode s).x = fitDim s.cfg.xw 0 := rfl
@[simp] theorem beginDecode_y : (beginDecode s).y = fitDim s.cfg.yw 0 := rfl
@[simp] theorem beginDecode_byteIdx : (beginDecode s).byteIdx = s.byteIdx := rfl
@[simp] theorem beginDecode_bitIdx : (beginDecode s).bitIdx = 0 := rfl
@[simp] theorem beginDecode_curByte : (beginDecode s).curByte = 0 := rfl
@[simp] theorem beginDecode_script : (beginDecode s).script = s.script := rfl
@[simp] theorem beginDecode_replies : (beginDecode s).replies = s.replies := rfl
@[simp] theorem beginDecode_freeCtr : (beginDecode s).freeCtr = s.freeCtr := rfl
end BeginDecode

end Sys2Proof.Machine
end

