-- ==== Sys2Proof/Laws/Invariant.lean ====
section
/-! SUPPORT. What each shared operation does to the invariant (10_state R28), and the engine's scan steps under it:
one lemma each, which the proofs about `step` cite. -/

namespace Sys2Proof.Machine

open Sys2Proof

theorem fitDim_lt {b : Nat} (n : Nat) (hb : b ≤ 16) : (fitDim b n).toNat < 2 ^ b := by
  have h1 : n % 2 ^ b < 2 ^ b := Nat.mod_lt _ (Nat.two_pow_pos b)
  have h2 : 2 ^ b ≤ 2 ^ 16 := Nat.pow_le_pow_right (by norm_num) hb
  simp only [fitDim, BitVec.toNat_ofNat]
  rw [Nat.mod_eq_of_lt (by omega)]
  exact h1

theorem fitDim_toNat {b n : Nat} (hb : b ≤ 16) (hn : n < 2 ^ b) : (fitDim b n).toNat = n := by
  have h2 : 2 ^ b ≤ 2 ^ 16 := Nat.pow_le_pow_right (by norm_num) hb
  simp only [fitDim, BitVec.toNat_ofNat]
  rw [Nat.mod_eq_of_lt hn, Nat.mod_eq_of_lt (by omega)]

/-! ## Updates outside the machine -/

theorem sameMachine_refl (s : State) : SameMachine s s := rfl

/-- The invariant speaks of the machine only, not of the model's own fields. -/
theorem inv_of_sameMachine {s t : State} (h : SameMachine s t) (hi : StateInv s) : StateInv t := by
  rw [h]
  exact ⟨hi.cfg, hi.grid, hi.msgin, hi.msgout, hi.wreg, hi.hreg, hi.x, hi.y, hi.olen, hi.fault,
    fun e => by obtain ⟨h1, h2, h3, h4, h5, h6, h7, h8, h9, h10, h11, h12, h13⟩ := hi.enc e
                exact ⟨h1, h2, h3, h4, h5, h6, h7, h8, h9, h10, h11, h12, h13⟩,
    fun e => by obtain ⟨h1, h2, h3, h4, h5, h6, h7, h8, h9⟩ := hi.dec e
                exact ⟨h1, h2, h3, h4, h5, h6, h7, h8, h9⟩⟩

theorem sameMachine_reply (r : Reply) (s : State) : SameMachine s (reply r s) := rfl
theorem sameMachine_setScript (l : List HostMove) (s : State) : SameMachine s (setScript l s) := rfl
theorem sameMachine_drawFree (s : State) : SameMachine s (drawFree s) := rfl

theorem SameMachine.trans {s t u : State} (h : SameMachine s t) (h' : SameMachine t u) : SameMachine s u := by
  unfold SameMachine at *
  rw [h', h]

theorem StateInv.reply {s : State} (hi : StateInv s) (r : Reply) : StateInv (reply r s) :=
  inv_of_sameMachine (sameMachine_reply r s) hi

theorem StateInv.setScript {s : State} (hi : StateInv s) (l : List HostMove) : StateInv (setScript l s) :=
  inv_of_sameMachine (sameMachine_setScript l s) hi

/-! ## Updates in a state that is not BUSY -/

theorem not_scanning_of_not_busy {s : State} (hb : busy s = false) : s.st ≠ .encBusy ∧ s.st ≠ .decBusy := by
  constructor <;> intro h <;> simp [busy, h] at hb

theorem busy_iff (s : State) : busy s = true ↔ s.st = .encBusy ∨ s.st = .decBusy := by
  cases h : s.st <;> simp [busy, h]

theorem busy_of_ready {s : State} (h : ready s = true) : busy s = false := by
  cases e : s.st <;> simp_all [ready, busy]

/-- READY means not faulted, and then there is no fault cause. -/
theorem StateInv.fcause_of_ready {s : State} (hi : StateInv s) (hr : ready s = true) : s.fcause = .none := by
  by_contra h
  have := hi.fault.2 h
  simp [ready, this] at hr

/-- Fault entry keeps the invariant, whatever the state (60_exceptions R181). -/
theorem StateInv.raiseFault {s : State} (hi : StateInv s) {c : FaultCause} (hc : c ≠ .none) : StateInv (raiseFault c s) where
  cfg := hi.cfg
  grid := hi.grid
  msgin := hi.msgin
  msgout := hi.msgout
  wreg := hi.wreg
  hreg := hi.hreg
  x := hi.x
  y := hi.y
  olen := hi.olen
  fault := by simp [hc]
  enc := by intro h; simp at h
  dec := by intro h; simp at h

theorem StateInv.applyReset {s : State} (hi : StateInv s) : StateInv (applyReset s) where
  cfg := hi.cfg
  grid := hi.grid
  msgin := hi.msgin
  msgout := hi.msgout
  wreg := Nat.two_pow_pos _
  hreg := Nat.two_pow_pos _
  x := Nat.two_pow_pos _
  y := Nat.two_pow_pos _
  olen := Nat.zero_le _
  fault := by simp
  enc := by intro h; simp at h
  dec := by intro h; simp at h

theorem StateInv.setGrid {s : State} (hi : StateInv s) (hb : busy s = false) {g : Grid} (hg : g.wf s.cfg) :
    StateInv (setGrid g s) where
  cfg := hi.cfg
  grid := hg
  msgin := hi.msgin
  msgout := hi.msgout
  wreg := hi.wreg
  hreg := hi.hreg
  x := hi.x
  y := hi.y
  olen := hi.olen
  fault := hi.fault
  enc := fun h => absurd h (not_scanning_of_not_busy hb).1
  dec := fun h => absurd h (not_scanning_of_not_busy hb).2

theorem StateInv.setMlen {s : State} (hi : StateInv s) (hb : busy s = false) (v : Word) : StateInv (setMlen v s) where
  cfg := hi.cfg
  grid := hi.grid
  msgin := hi.msgin
  msgout := hi.msgout
  wreg := hi.wreg
  hreg := hi.hreg
  x := hi.x
  y := hi.y
  olen := hi.olen
  fault := hi.fault
  enc := fun h => absurd h (not_scanning_of_not_busy hb).1
  dec := fun h => absurd h (not_scanning_of_not_busy hb).2

theorem StateInv.setMsgin {s : State} (hi : StateInv s) (hb : busy s = false) {i : Nat} (b : Byte) (h : i < s.cfg.mcap) :
    StateInv (setMsgin i b s) where
  cfg := hi.cfg
  grid := hi.grid
  msgin := memWf_write b hi.msgin h
  msgout := hi.msgout
  wreg := hi.wreg
  hreg := hi.hreg
  x := hi.x
  y := hi.y
  olen := hi.olen
  fault := hi.fault
  enc := fun h => absurd h (not_scanning_of_not_busy hb).1
  dec := fun h => absurd h (not_scanning_of_not_busy hb).2

theorem StateInv.sampleDims {s : State} (hi : StateInv s) (hb : busy s = false) : StateInv (sampleDims s) where
  cfg := hi.cfg
  grid := hi.grid
  msgin := hi.msgin
  msgout := hi.msgout
  wreg := hi.grid.1
  hreg := hi.grid.2.1
  x := hi.x
  y := hi.y
  olen := hi.olen
  fault := hi.fault
  enc := fun h => absurd h (not_scanning_of_not_busy hb).1
  dec := fun h => absurd h (not_scanning_of_not_busy hb).2

/-! ## The START steps -/

theorem dim_pos {d : Dim} (h : d ≠ 0#16) : 1 ≤ d.toNat := by
  rcases Nat.eq_zero_or_pos d.toNat with h0 | h0
  · exact absurd (BitVec.eq_of_toNat_eq h0) h
  · exact h0

theorem messageWritten_iff (s : State) :
    messageWritten s = true ↔ ∀ i < s.mlen.toNat, (cellsFind s.msgin i).isSome = true := by
  simp [messageWritten]

/-- A launch that passed its checks has exact REQ and AVAIL registers (41_bitstream R101). -/
theorem storeCapacity_exact {s : State} (hc : s.cfg.wf) (hm : s.mlen.toNat ≤ s.cfg.mcap) :
    (storeCapacity s).req.toNat = s.mlen.toNat + 1 ∧
      (storeCapacity s).avail.toNat = s.wreg.toNat * s.hreg.toNat / 8 := by
  obtain ⟨-, -, -, -, -, hcap⟩ := hc
  have hp := dims_product_lt s.wreg s.hreg
  constructor
  · simp only [storeCapacity_req, requiredBytes, BitVec.toNat_ofNat]
    exact Nat.mod_eq_of_lt (by omega)
  · simp only [storeCapacity_avail, availBytes, capacityBits, BitVec.toNat_ofNat]
    exact Nat.mod_eq_of_lt (by omega)

theorem StateInv.capExceeded {s : State} (hi : StateInv s) (hn : s.fcause = .none) :
    StateInv (setSt .capExceeded (storeCapacity s)) where
  cfg := hi.cfg
  grid := hi.grid
  msgin := hi.msgin
  msgout := hi.msgout
  wreg := hi.wreg
  hreg := hi.hreg
  x := hi.x
  y := hi.y
  olen := hi.olen
  fault := by simp [hn]
  enc := by intro h; simp at h
  dec := by intro h; simp at h

theorem StateInv.beginEncode {s : State} (hi : StateInv s) (hn : s.fcause = .none) (hw : s.wreg = s.grid.w)
    (hh : s.hreg = s.grid.h) (hw0 : s.wreg ≠ 0#16) (hh0 : s.hreg ≠ 0#16) (hm : s.mlen.toNat ≤ s.cfg.mcap)
    (hf : capacityExceeded s.wreg.toNat s.hreg.toNat s.mlen.toNat = false) (hwr : messageWritten s = true) :
    StateInv (beginEncode (storeCapacity s)) where
  cfg := hi.cfg
  grid := hi.grid
  msgin := hi.msgin
  msgout := hi.msgout
  wreg := hi.wreg
  hreg := hi.hreg
  x := by simpa [Machine.beginEncode] using fitDim_lt 0 hi.cfg.2.1
  y := by simpa [Machine.beginEncode] using fitDim_lt 0 hi.cfg.2.2.2.1
  olen := hi.olen
  fault := by simp [Machine.beginEncode, hn]
  enc := by
    intro _
    obtain ⟨hr, ha⟩ := storeCapacity_exact hi.cfg hm
    have hx : (fitDim s.cfg.xw 0).toNat = 0 := fitDim_toNat hi.cfg.2.1 (Nat.two_pow_pos _)
    have hy : (fitDim s.cfg.yw 0).toNat = 0 := fitDim_toNat hi.cfg.2.2.2.1 (Nat.two_pow_pos _)
    have hf' : 8 * (s.mlen.toNat + 1) ≤ s.wreg.toNat * s.hreg.toNat := by
      simpa [capacityExceeded, requiredBits, requiredBytes, capacityBits] using hf
    have hr' : (BitVec.ofNat 32 (requiredBytes s.mlen.toNat)).toNat = s.mlen.toNat + 1 := hr
    have hv : encVisited (Machine.beginEncode (storeCapacity s)) = 0 := rfl
    exact {
      wreg_pos := dim_pos hw0
      hreg_pos := dim_pos hh0
      wreg_grid := hw
      hreg_grid := hh
      mlen_le := hm
      req_eq := hr
      fits := by change 8 * (storeCapacity s).req.toNat ≤ _; rw [hr]; exact hf'
      byteIdx_lt := by change 0 < (storeCapacity s).req.toNat; omega
      x_eq := by rw [hv, Nat.zero_mod]; exact hx
      y_eq := by rw [hv, Nat.zero_div]; exact hy
      visited_lt := by rw [hv]; exact Nat.mul_pos (dim_pos hw0) (dim_pos hh0)
      avail_eq := ha
      written := (messageWritten_iff s).1 hwr }
  dec := by intro h; simp [Machine.beginEncode] at h

theorem StateInv.beginDecode {s : State} (hi : StateInv s) (hn : s.fcause = .none) (hw : s.wreg = s.grid.w)
    (hh : s.hreg = s.grid.h) (hw0 : s.wreg ≠ 0#16) (hh0 : s.hreg ≠ 0#16) : StateInv (beginDecode s) where
  cfg := hi.cfg
  grid := hi.grid
  msgin := hi.msgin
  msgout := hi.msgout
  wreg := hi.wreg
  hreg := hi.hreg
  x := fitDim_lt 0 hi.cfg.2.1
  y := fitDim_lt 0 hi.cfg.2.2.2.1
  olen := Nat.zero_le _
  fault := by simp [Machine.beginDecode, hn]
  enc := by intro h; simp [Machine.beginDecode] at h
  dec := by
    intro _
    have hx : (fitDim s.cfg.xw 0).toNat = 0 := fitDim_toNat hi.cfg.2.1 (Nat.two_pow_pos _)
    have hy : (fitDim s.cfg.yw 0).toNat = 0 := fitDim_toNat hi.cfg.2.2.2.1 (Nat.two_pow_pos _)
    have hv : decVisited (Machine.beginDecode s) = 0 := by simp [decVisited, hx, hy]
    exact {
      wreg_pos := dim_pos hw0
      hreg_pos := dim_pos hh0
      wreg_grid := hw
      hreg_grid := hh
      x_lt := by rw [beginDecode_x, hx]; exact dim_pos hw0
      y_lt := by rw [beginDecode_y, hy]; exact dim_pos hh0
      visited_lt := by rw [hv]; exact Nat.mul_pos (dim_pos hw0) (dim_pos hh0)
      bitIdx_eq := by rw [hv]; rfl
      olen_eq := by rw [hv]; rfl }

/-! ## The ENCODE scan step -/

/-- The coordinates of a running ENCODE are in bounds (42_encode R119). -/
theorem EncScanning.inBounds {s : State} (h : EncScanning s) : s.x.toNat < s.grid.w.toNat ∧ s.y.toNat < s.grid.h.toNat := by
  rw [← h.wreg_grid, ← h.hreg_grid, h.x_eq, h.y_eq]
  exact mod_lt_div_lt h.visited_lt

/-- A running ENCODE has a payload byte (10_state R28 (c), 60_exceptions R191). -/
theorem EncScanning.payload {s : State} (h : EncScanning s) : ∃ p, payload s s.byteIdx.toNat = some p := by
  have hb := h.byteIdx_lt
  rw [h.req_eq] at hb
  unfold Machine.payload
  split
  · next hlt => exact Option.isSome_iff_exists.1 (h.written _ hlt)
  · rw [if_pos (by omega)]; exact ⟨_, rfl⟩

theorem encodeAdvance_done {s : State} (h : (bitNext s.byteIdx s.bitIdx).1 = s.req) :
    encodeAdvance s = setSt .encDone (setBitPos (bitNext s.byteIdx s.bitIdx) s) := if_pos h

theorem encodeAdvance_more {s : State} (h : ¬ (bitNext s.byteIdx s.bitIdx).1 = s.req) :
    encodeAdvance s = setXY (scanNext s.wreg.toNat s.x.toNat s.y.toNat) (setBitPos (bitNext s.byteIdx s.bitIdx) s) :=
  if_neg h

/-- Pixel memory after an ENCODE scan step with payload byte `p`. -/
def embeddedGrid (s : State) (p : Byte) : Grid :=
  putPixel s.grid s.x.toNat s.y.toNat { pixelAt s.grid s.x.toNat s.y.toNat with
    blue := embedBit (pixelAt s.grid s.x.toNat s.y.toNat).blue (payloadBit p s.bitIdx.toNat) }

/-- THE ENCODE SCAN STEP of a running ENCODE (42_encode R112). -/
theorem encodeScanStep_scanning {s : State} (h : EncScanning s) {p : Byte}
    (hp : payload s s.byteIdx.toNat = some p) :
    encodeScanStep s = .next (encodeAdvance (setGrid (embeddedGrid s p) s)) := by
  obtain ⟨hx, hy⟩ := h.inBounds
  simp only [encodeScanStep, hp, getBlue_of_inBounds hx hy, setBlue_of_inBounds _ hx hy, embeddedGrid]

/-- What an ENCODE scan step can do, in every state. -/
theorem encodeScanStep_cases {s t : State} (h : encodeScanStep s = .next t) :
    t = raiseFault .gridBounds s ∨
      ∃ p, payload s s.byteIdx.toNat = some p ∧ s.x.toNat < s.grid.w.toNat ∧ s.y.toNat < s.grid.h.toNat ∧
        t = encodeAdvance (setGrid (embeddedGrid s p) s) := by
  unfold encodeScanStep at h
  split at h
  · cases h
  · next p hp =>
    split at h
    · cases h; exact .inl rfl
    · next blue hb =>
      obtain ⟨hx, hy, rfl⟩ := getBlue_eq_some hb
      rw [setBlue_of_inBounds _ hx hy] at h
      cases h
      exact .inr ⟨p, hp, hx, hy, rfl⟩

/-- An ENCODE scan step visits exactly one more pixel (41_bitstream R98). -/
theorem EncScanning.bitNext_count {s : State} (h : EncScanning s) :
    8 * (bitNext s.byteIdx s.bitIdx).1.toNat + (bitNext s.byteIdx s.bitIdx).2.toNat = encVisited s + 1 := by
  have h1 := h.byteIdx_lt
  have h2 := s.req.isLt
  exact Machine.bitNext_count _ _ (by omega)

theorem embeddedGrid_wf {c : Config} {s : State} (hg : s.grid.wf c) (hx : s.x.toNat < s.grid.w.toNat)
    (hy : s.y.toNat < s.grid.h.toNat) (p : Byte) : (embeddedGrid s p).wf c :=
  gridWf_putPixel hg hx hy (pixelAt_other_lt hg _ _)

/-- The two ends of an ENCODE scan step, by the number of visited pixels (42_encode R112, R119). -/
theorem EncScanning.done_iff {s : State} (h : EncScanning s) :
    (bitNext s.byteIdx s.bitIdx).1 = s.req ↔ encVisited s + 1 = 8 * s.req.toNat := by
  have hc := h.bitNext_count
  have hb := h.byteIdx_lt
  have h7 := (bitNext s.byteIdx s.bitIdx).2.isLt
  have hbj := s.bitIdx.isLt
  have hdef : encVisited s = 8 * s.byteIdx.toNat + s.bitIdx.toNat := rfl
  constructor
  · intro e; rw [e] at hc; omega
  · intro e; exact BitVec.eq_of_toNat_eq (by omega)

/-- The position after an ENCODE scan step that goes on. -/
theorem EncScanning.next_xy {s : State} (hi : StateInv s) (h : EncScanning s)
    (hn : encVisited s + 1 < s.wreg.toNat * s.hreg.toNat) :
    (fitDim s.cfg.xw (scanNext s.wreg.toNat s.x.toNat s.y.toNat).1).toNat = (encVisited s + 1) % s.wreg.toNat ∧
      (fitDim s.cfg.yw (scanNext s.wreg.toNat s.x.toNat s.y.toNat).2).toNat = (encVisited s + 1) / s.wreg.toNat := by
  rw [h.x_eq, h.y_eq, scanNext_mod_div h.wreg_pos]
  obtain ⟨hm, hd⟩ := mod_lt_div_lt hn
  exact ⟨fitDim_toNat hi.cfg.2.1 (by have := hi.wreg; omega), fitDim_toNat hi.cfg.2.2.2.1 (by have := hi.hreg; omega)⟩

/-- A running ENCODE's scan step keeps the invariant. -/
theorem StateInv.encodeAdvance {s : State} (hi : StateInv s) (hb : s.st = .encBusy) (p : Byte) :
    StateInv (encodeAdvance (Machine.setGrid (embeddedGrid s p) s)) := by
  have h := hi.enc hb
  obtain ⟨hx, hy⟩ := h.inBounds
  have hg : (embeddedGrid s p).wf s.cfg := embeddedGrid_wf hi.grid hx hy p
  have hn : s.fcause = .none := by
    by_contra hc; have := hi.fault.2 hc; rw [hb] at this; cases this
  by_cases hd : (bitNext s.byteIdx s.bitIdx).1 = s.req
  · rw [encodeAdvance_done (s := Machine.setGrid (embeddedGrid s p) s) hd]
    exact {
      cfg := hi.cfg, grid := hg, msgin := hi.msgin, msgout := hi.msgout
      wreg := hi.wreg, hreg := hi.hreg, x := hi.x, y := hi.y, olen := hi.olen
      fault := by simp [hn]
      enc := by intro e; simp at e
      dec := by intro e; simp at e }
  · rw [encodeAdvance_more (s := Machine.setGrid (embeddedGrid s p) s) hd]
    have hlt : encVisited s + 1 < 8 * s.req.toNat := by
      have hne' : ¬ encVisited s + 1 = 8 * s.req.toNat := fun e => hd (h.done_iff.2 e)
      have := h.byteIdx_lt
      have := s.bitIdx.isLt
      have hdef : encVisited s = 8 * s.byteIdx.toNat + s.bitIdx.toNat := rfl
      omega
    have hlt' : encVisited s + 1 < s.wreg.toNat * s.hreg.toNat := by have := h.fits; omega
    obtain ⟨hx', hy'⟩ := h.next_xy hi hlt'
    have hc := h.bitNext_count
    exact {
      cfg := hi.cfg, grid := hg, msgin := hi.msgin, msgout := hi.msgout
      wreg := hi.wreg, hreg := hi.hreg
      x := fitDim_lt _ hi.cfg.2.1
      y := fitDim_lt _ hi.cfg.2.2.2.1
      olen := hi.olen
      fault := hi.fault
      enc := fun _ => {
        wreg_pos := h.wreg_pos, hreg_pos := h.hreg_pos
        wreg_grid := h.wreg_grid, hreg_grid := h.hreg_grid
        mlen_le := h.mlen_le, req_eq := h.req_eq, fits := h.fits
        byteIdx_lt := by
          change (bitNext s.byteIdx s.bitIdx).1.toNat < s.req.toNat
          omega
        x_eq := by
          change (fitDim s.cfg.xw _).toNat = (8 * (bitNext s.byteIdx s.bitIdx).1.toNat + (bitNext s.byteIdx s.bitIdx).2.toNat) % s.wreg.toNat
          rw [hc]; exact hx'
        y_eq := by
          change (fitDim s.cfg.yw _).toNat = (8 * (bitNext s.byteIdx s.bitIdx).1.toNat + (bitNext s.byteIdx s.bitIdx).2.toNat) / s.wreg.toNat
          rw [hc]; exact hy'
        visited_lt := by
          change 8 * (bitNext s.byteIdx s.bitIdx).1.toNat + (bitNext s.byteIdx s.bitIdx).2.toNat < _
          rw [hc]; exact hlt'
        avail_eq := h.avail_eq
        written := h.written }
      dec := by intro e; simp [hb] at e }

/-! ## The DECODE scan step -/

theorem DecScanning.inBounds {s : State} (h : DecScanning s) : s.x.toNat < s.grid.w.toNat ∧ s.y.toNat < s.grid.h.toNat := by
  rw [← h.wreg_grid, ← h.hreg_grid]
  exact ⟨h.x_lt, h.y_lt⟩

/-- What a DECODE scan step can do, in every state. -/
theorem decodeScanStep_cases {s t : State} (h : decodeScanStep s = .next t) :
    t = raiseFault .gridBounds s ∨
      (s.x.toNat < s.grid.w.toNat ∧ s.y.toNat < s.grid.h.toNat ∧
        t = decodeShifted (shiftIn s.curByte (extractBit (pixelAt s.grid s.x.toNat s.y.toNat).blue)) s) := by
  unfold decodeScanStep at h
  split at h
  · cases h; exact .inl rfl
  · next blue hb =>
    obtain ⟨hx, hy, rfl⟩ := getBlue_eq_some hb
    cases h
    exact .inr ⟨hx, hy, rfl⟩

/-- THE DECODE SCAN STEP of a running DECODE (43_decode R132): the visited pixel is the one with linear index
n = Y * W + X. -/
theorem decodeScanStep_scanning {s : State} (h : DecScanning s) :
    decodeScanStep s = .next (decodeShifted (shiftIn s.curByte (blueLsb s.grid (decVisited s))) s) := by
  obtain ⟨hx, hy⟩ := h.inBounds
  simp only [decodeScanStep, getBlue_of_inBounds hx hy, pixelAt_eq_pixelN, blueLsb_eq, decVisited, h.wreg_grid,
    linearIndex]

theorem DecScanning.last_iff {s : State} (h : DecScanning s) :
    isLast s.wreg.toNat s.hreg.toNat s.x.toNat s.y.toNat = true ↔ decVisited s + 1 = s.wreg.toNat * s.hreg.toNat :=
  isLast_iff h.x_lt h.y_lt

/-- One more pixel in row-major order. -/
theorem scanNext_linear {w x y : Nat} (hx : x < w) :
    (scanNext w x y).2 * w + (scanNext w x y).1 = y * w + x + 1 ∧ (scanNext w x y).1 < w := by
  unfold scanNext
  split
  · next h => exact ⟨by rw [Nat.add_mul, Nat.one_mul]; omega, by omega⟩
  · next h => exact ⟨rfl, by simp only; omega⟩

theorem scanNext_row {w h x y : Nat} (hx : x < w) (hn : y * w + x + 1 < w * h) : (scanNext w x y).2 < h := by
  obtain ⟨he, -⟩ := scanNext_linear (y := y) hx
  by_contra hc
  have h1 : h * w ≤ (scanNext w x y).2 * w := Nat.mul_le_mul_right w (by omega)
  rw [Nat.mul_comm h w] at h1
  omega

/-- The invariant at the end of a DECODE scan step that goes on, from what the updates before it left. -/
theorem StateInv.decodeAdvance {s u : State} (hi : StateInv s) (hb : s.st = .decBusy)
    (hc : u.cfg = s.cfg) (hg : u.grid = s.grid) (hmi : u.msgin = s.msgin)
    (hmo : Memory.wf s.cfg.mcap u.msgout = true) (hw : u.wreg = s.wreg) (hh : u.hreg = s.hreg) (hst : u.st = s.st)
    (hfc : u.fcause = s.fcause) (hx : u.x = s.x) (hy : u.y = s.y) (hol : u.olen.toNat ≤ s.cfg.mcap)
    (hbit : u.bitIdx.toNat = (decVisited s + 1) % 8) (hlen : u.olen.toNat = (decVisited s + 1) / 8) :
    StateInv (decodeAdvance u) := by
  have h := hi.dec hb
  have hn : s.fcause = .none := by
    by_contra hcc; have := hi.fault.2 hcc; rw [hb] at this; cases this
  unfold Machine.decodeAdvance
  rw [hw, hh, hx, hy]
  split
  · exact {
      cfg := by simpa [hc] using hi.cfg
      grid := by simpa [hc, hg] using hi.grid
      msgin := by simpa [hc, hmi] using hi.msgin
      msgout := by simpa [hc] using hmo
      wreg := by simpa [hc, hw] using hi.wreg
      hreg := by simpa [hc, hh] using hi.hreg
      x := by simpa [hc, hx] using hi.x
      y := by simpa [hc, hy] using hi.y
      olen := by simpa [hc] using hol
      fault := by simp [hfc, hn]
      enc := by intro e; simp at e
      dec := by intro e; simp at e }
  · next hl =>
    have hl' : ¬ decVisited s + 1 = s.wreg.toNat * s.hreg.toNat := fun e => hl (h.last_iff.2 e)
    have hlt : decVisited s + 1 < s.wreg.toNat * s.hreg.toNat := by have := h.visited_lt; omega
    obtain ⟨he, hx1⟩ := scanNext_linear (y := s.y.toNat) h.x_lt
    have hy1 : (scanNext s.wreg.toNat s.x.toNat s.y.toNat).2 < s.hreg.toNat := scanNext_row h.x_lt hlt
    have hx2 : (fitDim u.cfg.xw (scanNext s.wreg.toNat s.x.toNat s.y.toNat).1).toNat = (scanNext s.wreg.toNat s.x.toNat s.y.toNat).1 := by
      rw [hc]; exact fitDim_toNat hi.cfg.2.1 (by have := hi.wreg; omega)
    have hy2 : (fitDim u.cfg.yw (scanNext s.wreg.toNat s.x.toNat s.y.toNat).2).toNat = (scanNext s.wreg.toNat s.x.toNat s.y.toNat).2 := by
      rw [hc]; exact fitDim_toNat hi.cfg.2.2.2.1 (by have := hi.hreg; omega)
    have hv : decVisited (setXY (scanNext s.wreg.toNat s.x.toNat s.y.toNat) u) = decVisited s + 1 := by
      simp only [decVisited, setXY_x, setXY_y, setXY_wreg, hx2, hy2, hw]
      exact he
    exact {
      cfg := by simpa [hc] using hi.cfg
      grid := by simpa [hc, hg] using hi.grid
      msgin := by simpa [hc, hmi] using hi.msgin
      msgout := by simpa [hc] using hmo
      wreg := by simpa [hc, hw] using hi.wreg
      hreg := by simpa [hc, hh] using hi.hreg
      x := by rw [setXY_x, setXY_cfg, hc]; exact fitDim_lt _ hi.cfg.2.1
      y := by rw [setXY_y, setXY_cfg, hc]; exact fitDim_lt _ hi.cfg.2.2.2.1
      olen := by simpa [hc] using hol
      fault := by simp only [setXY_st, setXY_fcause, hst, hfc]; exact hi.fault
      enc := by intro e; simp [hst, hb] at e
      dec := fun _ => {
        wreg_pos := by simpa [hw] using h.wreg_pos
        hreg_pos := by simpa [hh] using h.hreg_pos
        wreg_grid := by simpa [hw, hg] using h.wreg_grid
        hreg_grid := by simpa [hh, hg] using h.hreg_grid
        x_lt := by rw [setXY_x, hx2, setXY_wreg, hw]; exact hx1
        y_lt := by rw [setXY_y, hy2, setXY_hreg, hh]; exact hy1
        visited_lt := by rw [hv, setXY_wreg, setXY_hreg, hw, hh]; exact hlt
        bitIdx_eq := by rw [hv]; exact hbit
        olen_eq := by rw [hv]; exact hlen } }

theorem bitIdx_seven_iff (j : BitIndex) : j = 7#3 ↔ j.toNat = 7 :=
  ⟨fun h => by rw [h]; rfl, fun h => BitVec.eq_of_toNat_eq h⟩

theorem bitIdx_succ {j : BitIndex} (h : j ≠ 7#3) : (j + 1#3).toNat = j.toNat + 1 := by
  have := j.isLt
  have : j.toNat ≠ 7 := fun e => h ((bitIdx_seven_iff j).2 e)
  simp only [BitVec.toNat_add, BitVec.toNat_ofNat]
  omega

theorem olen_succ {s : State} (hi : StateInv s) (h : s.olen.toNat ≠ s.cfg.mcap) :
    (s.olen + 1#32).toNat = s.olen.toNat + 1 ∧ s.olen.toNat + 1 ≤ s.cfg.mcap := by
  have h1 := hi.olen
  have h2 := hi.cfg.2.2.2.2.2
  simp only [BitVec.toNat_add, BitVec.toNat_ofNat]
  omega

/-- A running DECODE's scan step keeps the invariant, whatever byte the shift-in gave. -/
theorem StateInv.decodeShifted {s : State} (hi : StateInv s) (hb : s.st = .decBusy) (cb : Byte) : StateInv (decodeShifted cb s) := by
  have h := hi.dec hb
  have hn : s.fcause = .none := by
    by_contra hcc; have := hi.fault.2 hcc; rw [hb] at this; cases this
  have hbit := h.bitIdx_eq
  have hlen := h.olen_eq
  unfold Machine.decodeShifted
  split
  · next h7 =>
    rw [(bitIdx_seven_iff _).1 h7] at hbit
    split
    · exact {
        cfg := hi.cfg, grid := hi.grid, msgin := hi.msgin, msgout := hi.msgout
        wreg := hi.wreg, hreg := hi.hreg, x := hi.x, y := hi.y, olen := hi.olen
        fault := by simp [hn]
        enc := by intro e; simp at e
        dec := by intro e; simp at e }
    · split
      · exact hi.raiseFault (by decide)
      · next hfull =>
        obtain ⟨ho, hle⟩ := olen_succ hi hfull
        exact hi.decodeAdvance hb rfl rfl rfl (memWf_write cb hi.msgout (by omega)) rfl rfl rfl rfl rfl rfl
          (by simpa [ho] using hle) (by simp; omega) (by simp [ho]; omega)
  · next h7 =>
    have hs := bitIdx_succ h7
    have := s.bitIdx.isLt
    have h7' : s.bitIdx.toNat ≠ 7 := fun e => h7 ((bitIdx_seven_iff _).2 e)
    exact hi.decodeAdvance hb rfl rfl rfl hi.msgout rfl rfl rfl rfl rfl rfl hi.olen
      (by simp [hs]; omega) (by simp; omega)

end Sys2Proof.Machine
end

