-- ==== Sys2Proof/Laws/Step.lean ====
section
/-! SUPPORT. What the START steps, the host port and one step can do: one lemma each. -/

namespace Sys2Proof.Machine

open Sys2Proof

/-! ## Decoding -/

theorem decode_encode (i : Instr) : decode (encode i) = .instr i := by cases i <;> rfl

theorem decode_eq_instr {w : Word} {i : Instr} (h : decode w = .instr i) : w = encode i := by
  unfold decode at h
  split at h
  · next h1 => cases h; exact h1
  · split at h
    · next h2 => cases h; exact h2
    · cases h

/-! ## Runs -/

@[simp] theorem run_zero (s : State) : run 0 s = .next s := rfl

theorem run_succ {s t : State} (h : step s = .next t) (k : Nat) : run (k + 1) s = run k t := by
  simp [run, h]

theorem run_one {s t : State} (h : step s = .next t) : run 1 s = .next t := run_succ h 0

theorem run_add {s t : State} {j : Nat} (h : run j s = .next t) (k : Nat) : run (j + k) s = run k t := by
  induction j generalizing s with
  | zero => cases h; rw [Nat.zero_add]
  | succ j ih =>
    rw [show j + 1 + k = j + k + 1 by omega]
    cases hs : step s with
    | next u =>
      rw [run_succ hs] at h ⊢
      exact ih h
    | fault r => simp [run, hs] at h
    | refused r => simp [run, hs] at h

/-- A property that one step keeps is kept by a run. -/
theorem run_induction {P : State → Prop} (hstep : ∀ s t, P s → step s = .next t → P t) {k : Nat} {s t : State}
    (hs : P s) (h : run k s = .next t) : P t := by
  induction k generalizing s with
  | zero => cases h; exact hs
  | succ k ih =>
    cases hst : step s with
    | next u => rw [run_succ hst] at h; exact ih (hstep _ _ hs hst) h
    | fault r => simp [run, hst] at h
    | refused r => simp [run, hst] at h

theorem step_nil {s : State} (h : s.script = []) : step s = engineStep s := by simp [step, h]

theorem step_cons {s : State} {m : HostMove} {rest : List HostMove} (h : s.script = m :: rest) :
    step s = hostMove m (setScript rest s) := by simp [step, h]

/-- The engine's turn, in whichever of its three forms, is one step of the engine. -/
theorem EngineTurn.step {s v : State} (h : EngineTurn s v) : Machine.step s = engineStep v := by
  rcases h with ⟨h, rfl⟩ | ⟨rest, h, rfl⟩ | ⟨rest, h, hb, rfl⟩
  · exact step_nil h
  · exact step_cons h
  · rw [step_cons h]
    have : setScript (.wait :: rest) (setScript rest v) = v := by rw [← h]; rfl
    show (if busy v then engineStep (setScript (.wait :: rest) (setScript rest v)) else _) = _
    rw [hb, if_pos rfl, this]

theorem engineStep_encBusy {s : State} (h : s.st = .encBusy) : engineStep s = encodeScanStep s := by
  simp [engineStep, h]

theorem engineStep_decBusy {s : State} (h : s.st = .decBusy) : engineStep s = decodeScanStep s := by
  simp [engineStep, h]

theorem engineStep_idle {s : State} (h : busy s = false) : engineStep s = .next s := by
  cases e : s.st <;> simp_all [engineStep, busy]

theorem EngineTurn.sameMachine {s v : State} (h : EngineTurn s v) : SameMachine s v := by
  rcases h with ⟨-, rfl⟩ | ⟨rest, -, rfl⟩ | ⟨rest, -, -, rfl⟩ <;> rfl

/-- A WAIT while ST is not BUSY only leaves the script. -/
theorem step_wait_idle {s : State} {rest : List HostMove} (hs : s.script = .wait :: rest) (hb : busy s = false) :
    Machine.step s = .next (setScript rest s) := by
  rw [step_cons hs]
  show (if busy s then _ else _) = _
  rw [hb]; rfl

theorem encodeAdvance_setScript (l : List HostMove) (s : State) :
    encodeAdvance (setScript l s) = setScript l (encodeAdvance s) := by
  unfold encodeAdvance; rw [apply_ite (setScript l)]; rfl

theorem decodeAdvance_setScript (l : List HostMove) (s : State) :
    decodeAdvance (setScript l s) = setScript l (decodeAdvance s) := by
  unfold decodeAdvance; rw [apply_ite (setScript l)]; rfl

theorem decodeShifted_setScript (cb : Byte) (l : List HostMove) (s : State) :
    decodeShifted cb (setScript l s) = setScript l (decodeShifted cb s) := by
  unfold decodeShifted
  rw [apply_ite (setScript l), apply_ite (setScript l), apply_ite (setScript l), ← decodeAdvance_setScript,
    ← decodeAdvance_setScript]
  rfl

/-- The engine neither reads nor changes the host's coming moves. -/
theorem engineStep_setScript {s t : State} (l : List HostMove) (h : engineStep s = .next t) :
    engineStep (setScript l s) = .next (setScript l t) := by
  cases hb : busy s with
  | false => rw [engineStep_idle hb] at h; cases h; exact engineStep_idle hb
  | true =>
    rcases (busy_iff s).1 hb with he | hd
    · rw [engineStep_encBusy he] at h
      rw [engineStep_encBusy (s := setScript l s) he]
      unfold encodeScanStep at h ⊢
      simp only [show payload (setScript l s) = payload s from rfl, setScript_grid, setScript_x, setScript_y, setScript_byteIdx, setScript_bitIdx]
      split at h
      · cases h
      · split at h
        · cases h; rfl
        · split at h
          · cases h; rfl
          · cases h; exact congrArg Host.Outcome.next (encodeAdvance_setScript l (setGrid _ s))
    · rw [engineStep_decBusy hd] at h
      rw [engineStep_decBusy (s := setScript l s) hd]
      unfold decodeScanStep at h ⊢
      simp only [setScript_grid, setScript_x, setScript_y, setScript_curByte]
      split at h
      · cases h; rfl
      · cases h; rw [decodeShifted_setScript]

/-! ## START -/

/-- What the START step of ENCODE can do. -/
theorem execEncode_cases {s t : State} (h : execEncode s = .next t) :
    (ready s = false ∧ t = s) ∨
    (ready s = true ∧
      ((t = raiseFault .badDim (sampleDims s) ∧ (s.grid.w = 0#16 ∨ s.grid.h = 0#16)) ∨
       (t = raiseFault .badMlen (sampleDims s) ∧ s.grid.w ≠ 0#16 ∧ s.grid.h ≠ 0#16 ∧ s.cfg.mcap < s.mlen.toNat) ∨
       (t = setSt .capExceeded (storeCapacity (sampleDims s)) ∧ s.grid.w ≠ 0#16 ∧ s.grid.h ≠ 0#16 ∧
          s.mlen.toNat ≤ s.cfg.mcap ∧ capacityExceeded s.grid.w.toNat s.grid.h.toNat s.mlen.toNat = true) ∨
       (t = beginEncode (storeCapacity (sampleDims s)) ∧ s.grid.w ≠ 0#16 ∧ s.grid.h ≠ 0#16 ∧
          s.mlen.toNat ≤ s.cfg.mcap ∧ capacityExceeded s.grid.w.toNat s.grid.h.toNat s.mlen.toNat = false ∧
          messageWritten s = true))) := by
  unfold execEncode at h
  split at h
  · next hr =>
    refine .inr ⟨hr, ?_⟩
    unfold encodeStart at h
    split at h
    · next hd => cases h; exact .inl ⟨rfl, hd⟩
    · next hd =>
      obtain ⟨hw, hh⟩ := not_or.1 hd
      split at h
      · next hm => cases h; exact .inr (.inl ⟨rfl, hw, hh, hm⟩)
      · next hm =>
        have hm' : s.mlen.toNat ≤ s.cfg.mcap := Nat.le_of_not_lt hm
        unfold encodeLaunch at h
        split at h
        · next hc => cases h; exact .inr (.inr (.inl ⟨rfl, hw, hh, hm', hc⟩))
        · next hc =>
          split at h
          · next hwr => cases h; exact .inr (.inr (.inr ⟨rfl, hw, hh, hm', by simpa using hc, hwr⟩))
          · cases h
  · next hr => cases h; exact .inl ⟨by simpa using hr, rfl⟩

/-- What the START step of DECODE can do. -/
theorem execDecode_cases {s t : State} (h : execDecode s = .next t) :
    (ready s = false ∧ t = s) ∨
    (ready s = true ∧
      ((t = raiseFault .badDim (sampleDims s) ∧ (s.grid.w = 0#16 ∨ s.grid.h = 0#16)) ∨
       (t = beginDecode (sampleDims s) ∧ s.grid.w ≠ 0#16 ∧ s.grid.h ≠ 0#16))) := by
  unfold execDecode at h
  split at h
  · next hr =>
    refine .inr ⟨hr, ?_⟩
    unfold decodeStart at h
    split at h
    · next hd => cases h; exact .inl ⟨rfl, hd⟩
    · next hd => cases h; exact .inr ⟨rfl, not_or.1 hd⟩
  · next hr => cases h; exact .inl ⟨by simpa using hr, rfl⟩

theorem StateInv.exec {s t : State} (hi : StateInv s) {i : Instr} (h : exec i s = .next t) : StateInv t := by
  cases i with
  | encode =>
    rcases execEncode_cases h with ⟨-, rfl⟩ | ⟨hr, hc⟩
    · exact hi
    · have hb := busy_of_ready hr
      have hs : StateInv (Machine.sampleDims s) := hi.sampleDims hb
      have hn : (Machine.sampleDims s).fcause = .none := hi.fcause_of_ready hr
      rcases hc with ⟨rfl, -⟩ | ⟨rfl, -⟩ | ⟨rfl, -⟩ | ⟨rfl, hw, hh, hm, hf, hwr⟩
      · exact hs.raiseFault (by decide)
      · exact hs.raiseFault (by decide)
      · exact hs.capExceeded hn
      · exact hs.beginEncode hn rfl rfl hw hh hm hf hwr
  | decode =>
    rcases execDecode_cases h with ⟨-, rfl⟩ | ⟨hr, hc⟩
    · exact hi
    · have hb := busy_of_ready hr
      have hs : StateInv (Machine.sampleDims s) := hi.sampleDims hb
      have hn : (Machine.sampleDims s).fcause = .none := hi.fcause_of_ready hr
      rcases hc with ⟨rfl, -⟩ | ⟨rfl, hw, hh⟩
      · exact hs.raiseFault (by decide)
      · exact hs.beginDecode hn rfl rfl hw hh

theorem startCommand_instr {v : Word} {i : Instr} (h : decode v = .instr i) (s : State) :
    startCommand v s = exec i s := by simp [startCommand, h]

theorem startCommand_illegal {v : Word} (h : decode v = .rejected .illegalCommand) (s : State) :
    startCommand v s = .next (raiseFault .illegalCmd s) := by simp [startCommand, h]

theorem startCommand_cases {v : Word} {s t : State} (h : startCommand v s = .next t) :
    (∃ i, v = encode i ∧ exec i s = .next t) ∨ t = raiseFault .illegalCmd s := by
  unfold startCommand at h
  split at h
  · next i hd => exact .inl ⟨i, decode_eq_instr hd, h⟩
  · cases h; exact .inr rfl

/-! ## The host port -/

@[simp] theorem resolve_regAddr (c : Config) (r : RegName) : resolve c (regAddr r) = some (.reg r) := by
  cases r <;> rfl

/-- A port read changes nothing of the machine (44_host_port R150, 20_memory R50). -/
theorem sameMachine_hostRead (a : HostAddr) (s : State) : SameMachine s (hostRead a s) := by
  unfold hostRead
  split
  · rfl
  · next t _ =>
    split
    · cases t with
      | reg r => rfl
      | msgin i => simp only [readTarget, readCell]; split <;> rfl
      | msgout i => simp only [readTarget, readCell]; split <;> rfl
    · rfl

theorem resolve_msgin_lt {c : Config} {a : HostAddr} {i : Nat} (h : resolve c a = some (.msgin i)) : i < c.mcap := by
  simp only [resolve, cellTarget] at h
  split at h
  · cases hr : regOfIndex a.index.toNat <;> simp [hr] at h
  · split at h
    · split at h
      · next hlt => cases h; exact hlt
      · cases h
    · split at h
      · split at h <;> cases h
      · cases h

/-- What a port write can do. -/
theorem hostWrite_cases {a : HostAddr} {v : Word} {s t : State} (h : hostWrite a v s = .next t) :
    t = reply .err s ∨
    (ready s = true ∧ resolve s.cfg a = some (.reg .cmd) ∧ startCommand v (reply .ok s) = .next t) ∨
    (ready s = true ∧ resolve s.cfg a = some (.reg .mlen) ∧ t = setMlen v (reply .ok s)) ∨
    (ready s = true ∧ ∃ i, i < s.cfg.mcap ∧ resolve s.cfg a = some (.msgin i) ∧
      t = setMsgin i (v.setWidth 8) (reply .ok s)) := by
  unfold hostWrite at h
  split at h
  · cases h; exact .inl rfl
  · next tg htg =>
    split at h
    · next hw =>
      cases tg with
      | reg r =>
        cases r with
        | cmd => exact .inr (.inl ⟨hw, htg, h⟩)
        | mlen => cases h; exact .inr (.inr (.inl ⟨hw, htg, rfl⟩))
        | _ => cases h; exact .inl rfl
      | msgin i => cases h; exact .inr (.inr (.inr ⟨hw, i, resolve_msgin_lt htg, htg, rfl⟩))
      | msgout i => cases h; exact .inl rfl
    · cases h; exact .inl rfl

theorem hostWrite_regCmd (v : Word) (s : State) :
    hostWrite (regAddr .cmd) v s = if ready s then startCommand v (reply .ok s) else .next (reply .err s) := by
  unfold hostWrite
  rw [resolve_regAddr]
  rfl

theorem ready_reply (r : Reply) (s : State) : ready (reply r s) = ready s := rfl
theorem ready_setScript (l : List HostMove) (s : State) : ready (setScript l s) = ready s := rfl
theorem busy_reply (r : Reply) (s : State) : busy (reply r s) = busy s := rfl
theorem busy_setScript (l : List HostMove) (s : State) : busy (setScript l s) = busy s := rfl

theorem StateInv.hostWrite {s t : State} (hi : StateInv s) {a : HostAddr} {v : Word} (h : hostWrite a v s = .next t) : StateInv t := by
  rcases hostWrite_cases h with rfl | ⟨-, -, hs⟩ | ⟨hr, -, rfl⟩ | ⟨hr, i, hlt, -, rfl⟩
  · exact hi.reply _
  · rcases startCommand_cases hs with ⟨i, -, he⟩ | rfl
    · exact (hi.reply _).exec he
    · exact (hi.reply _).raiseFault (by decide)
  · exact (hi.reply .ok).setMlen (busy_of_ready hr) v
  · exact (hi.reply .ok).setMsgin (busy_of_ready hr) _ hlt

/-! ## The host's moves on pixel memory -/

theorem onGrid_eq_next {s t : State} {k : StepResult} (h : onGrid s k = .next t) : busy s = false ∧ k = .next t := by
  unfold onGrid at h
  split at h
  · cases h
  · next hb => exact ⟨by simpa using hb, h⟩

/-- What a host move on pixel memory can leave: a well-formed grid in a machine that is otherwise the same. -/
theorem hostLoadGrid_cases {g : Grid} {s t : State} (h : hostLoadGrid g s = .next t) :
    g.wf s.cfg ∧ t = setGrid g s := by
  unfold hostLoadGrid at h
  split at h
  · next hg => cases h; exact ⟨hg, rfl⟩
  · cases h

theorem hostWriteBlue_cases {x y : Nat} {b : Byte} {s t : State} (h : hostWriteBlue x y b s = .next t) :
    x < s.grid.w.toNat ∧ y < s.grid.h.toNat ∧
      t = setGrid (putPixel s.grid x y { pixelAt s.grid x y with blue := b }) s := by
  unfold hostWriteBlue at h
  split at h
  · next hb => cases h; exact ⟨((inBounds_iff ..).1 hb).1, ((inBounds_iff ..).1 hb).2, rfl⟩
  · cases h

theorem hostWriteOther_cases {x y o : Nat} {s t : State} (h : hostWriteOther x y o s = .next t) :
    x < s.grid.w.toNat ∧ y < s.grid.h.toNat ∧ o < 2 ^ s.cfg.otherw ∧
      t = setGrid (putPixel s.grid x y { pixelAt s.grid x y with other := o }) s := by
  unfold hostWriteOther at h
  split at h
  · next hb => cases h; exact ⟨((inBounds_iff ..).1 hb.1).1, ((inBounds_iff ..).1 hb.1).2, hb.2, rfl⟩
  · cases h

theorem hostReadPixel_cases {x y : Nat} {s t : State} (h : hostReadPixel x y s = .next t) :
    t = reply (.pixel (pixelAt s.grid x y)) s := by
  unfold hostReadPixel at h
  split at h
  · cases h; rfl
  · cases h

/-- What a host move on pixel memory can do to the machine: nothing, or replace GRID by a well-formed grid. -/
theorem gridMove_cases {s t : State} (hg : s.grid.wf s.cfg) {k : StepResult}
    (hk : (∃ g, k = hostLoadGrid g s) ∨ (∃ x y b, k = hostWriteBlue x y b s) ∨ (∃ x y o, k = hostWriteOther x y o s) ∨
      (∃ x y, k = hostReadPixel x y s)) (h : onGrid s k = .next t) :
    busy s = false ∧ (SameMachine s t ∨ ∃ g, g.wf s.cfg ∧ t = setGrid g s) := by
  obtain ⟨hb, h⟩ := onGrid_eq_next h
  refine ⟨hb, ?_⟩
  rcases hk with ⟨g, rfl⟩ | ⟨x, y, b, rfl⟩ | ⟨x, y, o, rfl⟩ | ⟨x, y, rfl⟩
  · obtain ⟨hw, rfl⟩ := hostLoadGrid_cases h
    exact .inr ⟨_, hw, rfl⟩
  · obtain ⟨hx, hy, rfl⟩ := hostWriteBlue_cases h
    exact .inr ⟨_, gridWf_putPixel hg hx hy (p := { pixelAt s.grid x y with blue := b }) (pixelAt_other_lt hg x y), rfl⟩
  · obtain ⟨hx, hy, ho, rfl⟩ := hostWriteOther_cases h
    exact .inr ⟨_, gridWf_putPixel hg hx hy ho, rfl⟩
  · rw [hostReadPixel_cases h]
    exact .inl rfl

/-! ## One step -/

/-- SAY ONCE WHAT A STEP CAN DO: the engine acted (and then only in the engine's turn, with the machine as before
it), or the host did. -/
theorem step_cases {s t : State} (h : step s = .next t) :
    (∃ u, SameMachine s u ∧ engineStep u = .next t) ∨
    (∃ rest, s.script = .reset :: rest ∧ t = applyReset (setScript rest s)) ∨
    (∃ a rest, s.script = .read a :: rest ∧ t = hostRead a (setScript rest s)) ∨
    (∃ a v rest, s.script = .write a v :: rest ∧ hostWrite a v (setScript rest s) = .next t) ∨
    (∃ m rest k, s.script = m :: rest ∧ hostMove m (setScript rest s) = onGrid (setScript rest s) k ∧
      ((∃ g, k = hostLoadGrid g (setScript rest s)) ∨ (∃ x y b, k = hostWriteBlue x y b (setScript rest s)) ∨
       (∃ x y o, k = hostWriteOther x y o (setScript rest s)) ∨ (∃ x y, k = hostReadPixel x y (setScript rest s))) ∧
      onGrid (setScript rest s) k = .next t) ∨
    (∃ rest, s.script = .wait :: rest ∧ busy s = false ∧ t = setScript rest s) := by
  cases hs : s.script with
  | nil => rw [step_nil hs] at h; exact .inl ⟨s, rfl, h⟩
  | cons m rest =>
    rw [step_cons hs] at h
    cases m with
    | reset => cases h; exact .inr (.inl ⟨rest, rfl, rfl⟩)
    | read a => cases h; exact .inr (.inr (.inl ⟨a, rest, rfl, rfl⟩))
    | write a v => exact .inr (.inr (.inr (.inl ⟨a, v, rest, rfl, h⟩)))
    | loadGrid g => exact .inr (.inr (.inr (.inr (.inl ⟨_, rest, _, rfl, rfl, .inl ⟨g, rfl⟩, h⟩))))
    | writeBlue x y b => exact .inr (.inr (.inr (.inr (.inl ⟨_, rest, _, rfl, rfl, .inr (.inl ⟨x, y, b, rfl⟩), h⟩))))
    | writeOther x y o =>
      exact .inr (.inr (.inr (.inr (.inl ⟨_, rest, _, rfl, rfl, .inr (.inr (.inl ⟨x, y, o, rfl⟩)), h⟩))))
    | readPixel x y => exact .inr (.inr (.inr (.inr (.inl ⟨_, rest, _, rfl, rfl, .inr (.inr (.inr ⟨x, y, rfl⟩)), h⟩))))
    | engineTurn => exact .inl ⟨setScript rest s, rfl, h⟩
    | wait =>
      simp only [hostMove] at h
      split at h
      · exact .inl ⟨_, (sameMachine_setScript rest s).trans (sameMachine_setScript _ _), h⟩
      · next hb => cases h; exact .inr (.inr (.inr (.inr (.inr ⟨rest, rfl, by simpa [busy_setScript] using hb, rfl⟩))))

theorem StateInv.engineStep {s t : State} (hi : StateInv s) (h : engineStep s = .next t) : StateInv t := by
  cases hb : busy s with
  | false => rw [engineStep_idle hb] at h; cases h; exact hi
  | true =>
    rcases (busy_iff s).1 hb with he | hd
    · rw [engineStep_encBusy he] at h
      rcases encodeScanStep_cases h with rfl | ⟨p, -, -, -, rfl⟩
      · exact hi.raiseFault (by decide)
      · exact hi.encodeAdvance he p
    · rw [engineStep_decBusy hd] at h
      rcases decodeScanStep_cases h with rfl | ⟨-, -, rfl⟩
      · exact hi.raiseFault (by decide)
      · exact hi.decodeShifted hd _

end Sys2Proof.Machine
end

