-- ==== Sys2Proof/Laws/HostPort.lean ====
section
/-! SUPPORT. The laws of the host port: what an address names, what a read and a write do, and one lemma that says once
what any step can do. -/

namespace Sys2Proof.Machine

open Sys2Proof

/-! ## Addresses (20_memory R51, 44_host_port R158) -/

theorem resolve_msgin {c : Config} {a : HostAddr} (h : a.space = 1#2) (hi : a.index.toNat < c.mcap) :
    resolve c a = some (.msgin a.index.toNat) := by
  unfold resolve
  rw [if_neg (by rw [h]; decide), if_pos h]
  exact if_pos hi

theorem resolve_msgout {c : Config} {a : HostAddr} (h : a.space = 2#2) (hi : a.index.toNat < c.mcap) :
    resolve c a = some (.msgout a.index.toNat) := by
  unfold resolve
  rw [if_neg (by rw [h]; decide), if_neg (by rw [h]; decide), if_pos h]
  exact if_pos hi

theorem regOfIndex_eq_some {n : Nat} {r : RegName} (h : regOfIndex n = some r) : n = regIndex r := by
  revert h
  unfold regOfIndex
  split <;> intro h <;> cases h <;> rfl

theorem regOfIndex_eq_none {n : Nat} : regOfIndex n = none ↔ 8 ≤ n := by
  unfold regOfIndex
  split <;> simp

/-- Each register has one address. -/
theorem eq_regAddr_of_resolve {c : Config} {a : HostAddr} {r : RegName} (h : resolve c a = some (.reg r)) :
    a = regAddr r := by
  simp only [resolve, cellTarget] at h
  split at h
  · next h0 =>
    cases hr : regOfIndex a.index.toNat with
    | none => simp [hr] at h
    | some r' =>
      simp only [hr, Option.map_some, Option.some.injEq, Target.reg.injEq] at h
      subst h
      have hn := regOfIndex_eq_some hr
      obtain ⟨sp, ix⟩ := a
      simp only at h0 hn
      subst h0
      unfold regAddr
      rw [← hn]
      simp
  · split at h
    · split at h <;> cases h
    · split at h
      · split at h <;> cases h
      · cases h

theorem msgin_of_resolve {c : Config} {a : HostAddr} {i : Nat} (h : resolve c a = some (.msgin i)) :
    a.space = 1#2 ∧ i = a.index.toNat := by
  simp only [resolve, cellTarget] at h
  split at h
  · cases hr : regOfIndex a.index.toNat <;> simp [hr] at h
  · split at h
    · next h1 => split at h <;> cases h; exact ⟨h1, rfl⟩
    · split at h
      · split at h <;> cases h
      · cases h

theorem msgout_of_resolve {c : Config} {a : HostAddr} {i : Nat} (h : resolve c a = some (.msgout i)) :
    a.space = 2#2 ∧ i = a.index.toNat := by
  simp only [resolve, cellTarget] at h
  split at h
  · cases hr : regOfIndex a.index.toNat <;> simp [hr] at h
  · split at h
    · split at h <;> cases h
    · split at h
      · next h2 => split at h <;> cases h; exact ⟨h2, rfl⟩
      · cases h

/-- The unmapped addresses (R158). -/
theorem resolve_eq_none {c : Config} {a : HostAddr} :
    resolve c a = none ↔ a.space = 3#2 ∨ (a.space = 0#2 ∧ 8 ≤ a.index.toNat) ∨
      ((a.space = 1#2 ∨ a.space = 2#2) ∧ c.mcap ≤ a.index.toNat) := by
  have hsp : a.space = 0#2 ∨ a.space = 1#2 ∨ a.space = 2#2 ∨ a.space = 3#2 := by
    generalize a.space = x
    revert x
    decide
  rcases hsp with h | h | h | h
  · simp [resolve, h, regOfIndex_eq_none]
  · simp [resolve, h, cellTarget]
  · simp [resolve, h, cellTarget]
  · simp [resolve, h]

/-! ## Reads and writes (R150, R151) -/

theorem step_read {s : State} {a : HostAddr} {rest : List HostMove} (h : s.script = .read a :: rest) :
    step s = .next (hostRead a (setScript rest s)) := by
  rw [step_cons h]; rfl

theorem step_write {s : State} {a : HostAddr} {v : Word} {rest : List HostMove} (h : s.script = .write a v :: rest) :
    step s = hostWrite a v (setScript rest s) := by
  rw [step_cons h]; rfl

/-- A CMD write: START, or turned away (R152, R153). -/
theorem step_cmd {s : State} {v : Word} {rest : List HostMove} (h : s.script = cmdMove v :: rest) :
    step s = if ready s then startCommand v (reply .ok (setScript rest s))
      else .next (reply .err (setScript rest s)) := by
  rw [step_cons h]
  exact hostWrite_regCmd v _

theorem hostRead_performed {s : State} {a : HostAddr} {t : Target} (h : resolve s.cfg a = some t)
    (hr : readAllowed s t = true) : hostRead a s = readTarget s t := by
  unfold hostRead; rw [h]; exact if_pos hr

theorem hostRead_refused {s : State} {a : HostAddr} (h : ∀ t, resolve s.cfg a = some t → readAllowed s t = false) :
    hostRead a s = reply .err s := by
  unfold hostRead
  split
  · rfl
  · next t ht => rw [h t ht]; rfl

theorem hostWrite_performed {s : State} {a : HostAddr} {v : Word} {t : Target} (h : resolve s.cfg a = some t)
    (hr : writeAllowed s t = true) : hostWrite a v s = writeTarget v s t := by
  unfold hostWrite; rw [h]; exact if_pos hr

theorem hostWrite_refused {s : State} {a : HostAddr} {v : Word}
    (h : ∀ t, resolve s.cfg a = some t → writeAllowed s t = false) : hostWrite a v s = .next (reply .err s) := by
  unfold hostWrite
  split
  · rfl
  · next t ht => rw [h t ht]; rfl

theorem readAllowed_of_not_busy {s : State} (h : busy s = false) (t : Target) : readAllowed s t = true := by
  unfold readAllowed
  split <;> simp [h]

/-- While BUSY only STATUS can be read (R152). -/
theorem readAllowed_of_busy {s : State} (h : busy s = true) (t : Target) :
    readAllowed s t = true ↔ t = .reg .status := by
  unfold readAllowed
  split <;> simp [h]

theorem ready_of_busy {s : State} (h : busy s = true) : ready s = false := by
  cases hr : ready s with
  | false => rfl
  | true => rw [busy_of_ready hr] at h; cases h

/-! ## What a command and an engine's turn leave alone -/

/-- What a command can change at most. -/
theorem exec_frame {i : Instr} {s t : State} (h : exec i s = .next t) :
    t.cfg = s.cfg ∧ t.grid = s.grid ∧ t.msgin = s.msgin ∧ t.msgout = s.msgout ∧ t.mlen = s.mlen ∧
      t.script = s.script ∧ t.replies = s.replies ∧
      (t.avail ≠ s.avail ∨ t.req ≠ s.req → i = .encode) ∧ (t.olen ≠ s.olen → i = .decode ∧ t.olen = 0) ∧
      (t.wreg ≠ s.wreg ∨ t.hreg ≠ s.hreg → t.wreg = s.grid.w ∧ t.hreg = s.grid.h) ∧
      (t.fcause = s.fcause ∨ (ready s = true ∧ t.st = .faulted)) := by
  cases i with
  | encode =>
    rcases execEncode_cases h with ⟨-, rfl⟩ | ⟨hr, ⟨rfl, -⟩ | ⟨rfl, -⟩ | ⟨rfl, -⟩ | ⟨rfl, -⟩⟩ <;> simp_all
  | decode =>
    rcases execDecode_cases h with ⟨-, rfl⟩ | ⟨hr, ⟨rfl, -⟩ | ⟨rfl, -⟩⟩ <;> simp_all

/-- What an engine's turn can change at most. -/
theorem engineStep_frame {s t : State} (h : engineStep s = .next t) :
    t.cfg = s.cfg ∧ t.msgin = s.msgin ∧ t.mlen = s.mlen ∧ t.avail = s.avail ∧ t.req = s.req ∧ t.wreg = s.wreg ∧
      t.hreg = s.hreg ∧ t.script = s.script ∧ t.replies = s.replies ∧
      (t.msgout ≠ s.msgout → s.st = .decBusy ∧ t.olen = s.olen + 1 ∧
        ∀ i, i ≠ s.olen.toNat → cellsFind t.msgout i = cellsFind s.msgout i) ∧
      (t.olen ≠ s.olen → s.st = .decBusy ∧ t.olen = s.olen + 1) ∧
      (t.grid ≠ s.grid → s.st = .encBusy ∧ t.grid.w = s.grid.w ∧ t.grid.h = s.grid.h) := by
  cases hb : busy s with
  | false => rw [engineStep_idle hb] at h; cases h; simp
  | true =>
    rcases (busy_iff s).1 hb with he | hd
    · rw [engineStep_encBusy he] at h
      rcases encodeScanStep_cases h with rfl | ⟨p, -, -, -, rfl⟩
      · simp
      · unfold encodeAdvance
        split <;> simp [he, embeddedGrid]
    · rw [engineStep_decBusy hd] at h
      rcases decodeScanStep_cases h with rfl | ⟨-, -, rfl⟩
      · simp
      · generalize shiftIn s.curByte (extractBit (pixelAt s.grid s.x.toNat s.y.toNat).blue) = cb
        have hc : ∀ i, i ≠ s.olen.toNat → cellsFind (memWrite s.msgout s.olen.toNat cb) i = cellsFind s.msgout i :=
          fun i hi => (cellsFind_memWrite _ _ _ _).trans (if_neg hi)
        unfold decodeShifted decodeAdvance
        repeat' split
        all_goals simp_all

/-- SAY ONCE, AND FINER THAN step_cases, WHAT A STEP CAN DO: the engine's turn, reset, nothing, a command, an illegal
command, a write of MLEN, a write of MSGIN, or a host move that replaces GRID. -/
theorem step_effect {s t : State} (h : step s = .next t) :
    (∃ u, EngineTurn s u ∧ engineStep u = .next t) ∨
    (∃ rest, s.script = .reset :: rest ∧ t = applyReset (setScript rest s)) ∨
    SameMachine s t ∨
    (ready s = true ∧ ∃ i rest u, SameMachine s u ∧ s.script = startMove i :: rest ∧ exec i u = .next t) ∨
    (ready s = true ∧ ∃ u, SameMachine s u ∧ t = raiseFault .illegalCmd u) ∨
    (ready s = true ∧ ∃ v rest u, SameMachine s u ∧ s.script = .write (regAddr .mlen) v :: rest ∧ t = setMlen v u) ∨
    (ready s = true ∧ ∃ a v rest u, SameMachine s u ∧ s.script = .write a v :: rest ∧ a.space = 1#2 ∧
      ∃ b, t = setMsgin a.index.toNat b u) ∨
    (busy s = false ∧ ∃ m rest u g, SameMachine s u ∧ s.script = m :: rest ∧
      ((∃ g, m = .loadGrid g) ∨ (∃ x y b, m = .writeBlue x y b) ∨ (∃ x y o, m = .writeOther x y o)) ∧
      t = setGrid g u) := by
  cases hs : s.script with
  | nil => rw [step_nil hs] at h; exact .inl ⟨s, .inl ⟨hs, rfl⟩, h⟩
  | cons m rest =>
    rw [step_cons hs] at h
    have hsm := sameMachine_setScript rest s
    have hok : SameMachine s (reply .ok (setScript rest s)) := rfl
    cases m with
    | reset => cases h; exact .inr (.inl ⟨rest, rfl, rfl⟩)
    | read a => cases h; exact .inr (.inr (.inl (hsm.trans (sameMachine_hostRead a _))))
    | write a v =>
      rcases hostWrite_cases h with rfl | ⟨hr, ha, hs'⟩ | ⟨hr, ha, rfl⟩ | ⟨hr, i, hlt, ha, rfl⟩
      · exact .inr (.inr (.inl rfl))
      · have hre := eq_regAddr_of_resolve ha
        subst hre
        rcases startCommand_cases hs' with ⟨i, rfl, he⟩ | rfl
        · exact .inr (.inr (.inr (.inl ⟨hr, i, rest, _, hok, rfl, he⟩)))
        · exact .inr (.inr (.inr (.inr (.inl ⟨hr, _, hok, rfl⟩))))
      · have hre := eq_regAddr_of_resolve ha
        subst hre
        exact .inr (.inr (.inr (.inr (.inr (.inl ⟨hr, v, rest, _, hok, rfl, rfl⟩)))))
      · obtain ⟨h1, rfl⟩ := msgin_of_resolve ha
        exact .inr (.inr (.inr (.inr (.inr (.inr (.inl ⟨hr, a, v, rest, _, hok, rfl, h1, _, rfl⟩))))))
    | loadGrid g =>
      obtain ⟨hb, h⟩ := onGrid_eq_next h
      obtain ⟨-, rfl⟩ := hostLoadGrid_cases h
      exact .inr (.inr (.inr (.inr (.inr (.inr (.inr ⟨hb, _, rest, _, _, hsm, rfl, .inl ⟨g, rfl⟩, rfl⟩))))))
    | writeBlue x y b =>
      obtain ⟨hb, h⟩ := onGrid_eq_next h
      obtain ⟨-, -, rfl⟩ := hostWriteBlue_cases h
      exact .inr (.inr (.inr (.inr (.inr (.inr (.inr
        ⟨hb, _, rest, _, _, hsm, rfl, .inr (.inl ⟨x, y, b, rfl⟩), rfl⟩))))))
    | writeOther x y o =>
      obtain ⟨hb, h⟩ := onGrid_eq_next h
      obtain ⟨-, -, -, rfl⟩ := hostWriteOther_cases h
      exact .inr (.inr (.inr (.inr (.inr (.inr (.inr
        ⟨hb, _, rest, _, _, hsm, rfl, .inr (.inr ⟨x, y, o, rfl⟩), rfl⟩))))))
    | readPixel x y =>
      obtain ⟨hb, h⟩ := onGrid_eq_next h
      rw [hostReadPixel_cases h]
      exact .inr (.inr (.inl rfl))
    | engineTurn => exact .inl ⟨setScript rest s, .inr (.inl ⟨rest, hs, rfl⟩), h⟩
    | wait =>
      rw [← step_cons hs] at h
      cases hb : busy s with
      | true =>
        have ht : EngineTurn s s := .inr (.inr ⟨rest, hs, hb, rfl⟩)
        exact .inl ⟨s, ht, ht.step.symm.trans h⟩
      | false =>
        rw [step_wait_idle hs hb] at h
        cases h; exact .inr (.inr (.inl hsm))

end Sys2Proof.Machine
end

