-- ==== Sys2Proof/Laws/Packing.lean ====
section
/-! SUPPORT. The laws of the closed forms Pack, Unpack and Lsbs (41_bitstream R102, R103). -/

namespace Sys2Proof.Machine

open Sys2Proof

theorem pack_length (p : List Byte) : (pack p).length = 8 * p.length := by simp [pack]

theorem pack_getElem? (p : List Byte) {n : Nat} (hn : n < 8 * p.length) :
    (pack p)[n]? = some (payloadBit (p.getD (n / 8) 0#8) (n % 8)) := by
  unfold pack; rw [List.getElem?_map, List.getElem?_range hn]; rfl

theorem unpack_length (b : List Bool) : (unpack b).length = b.length / 8 := by simp [unpack]

theorem unpack_getElem? (b : List Bool) {k : Nat} (hk : k < b.length / 8) :
    (unpack b)[k]? = some (byteOfBits fun j => b.getD (8 * k + j) false) := by
  unfold unpack; rw [List.getElem?_map, List.getElem?_range hk]; rfl

theorem lsbs_length (g : Grid) : (lsbs g).length = g.w.toNat * g.h.toNat := by simp [lsbs]

theorem lsbs_getElem? (g : Grid) {n : Nat} (h : n < g.w.toNat * g.h.toNat) : (lsbs g)[n]? = some (blueLsb g n) := by
  unfold lsbs; rw [List.getElem?_map, List.getElem?_range h]; rfl

/-- The value of an assembled byte: first bit most significant (30_encoding R70). -/
theorem byteOfBits_toNat (f : Nat → Bool) :
    (byteOfBits f).toNat = ((List.range 8).map fun j => (f j).toNat * 2 ^ (7 - j)).sum := by
  simp only [byteOfBits, List.range_succ, List.range_zero, List.nil_append, List.cons_append, List.map_cons,
    List.map_nil, List.sum_cons, List.sum_nil, BitVec.toNat_ofNat]
  have h := fun n => Bool.toNat_lt (f n)
  have h0 := h 0; have h1 := h 1; have h2 := h 2; have h3 := h 3
  have h4 := h 4; have h5 := h 5; have h6 := h 6; have h7 := h 7
  norm_num
  omega

end Sys2Proof.Machine
end

