-- ==== Sys2Proof/Laws/PerInstr.lean ====
section
/-! SUPPORT. Statements about every command as syntax, one lemma per constructor of Instr. -/

namespace Sys2Proof.Laws

/-- A command's word: it is one of the two rows of opcode_table.json, it decodes to the command, and the command
is well formed (30_encoding R61, R62). -/
def CommandWord.Statement (i : Sys2Proof.Instr) : Prop :=
  Sys2Proof.decode (Sys2Proof.encode i) = .instr i ∧
    Sys2Proof.decodeTableWord 32 (Sys2Proof.encode i).toNat = some i ∧ i.wf = true

theorem CommandWord.encode : CommandWord.Statement .encode := ⟨rfl, rfl, rfl⟩

theorem CommandWord.decode : CommandWord.Statement .decode := ⟨rfl, rfl, rfl⟩

end Sys2Proof.Laws
end

