-- ==== Sys2Proof/Laws/Progress.lean ====
section
/-! SUPPORT. What one scan step adds to the progress of a running operation: one more payload bit in the grid for
ENCODE, one more blue LSB in the running byte for DECODE. -/

namespace Sys2Proof.Machine

open Sys2Proof

theorem progress_of_not_busy {s : State} (h : busy s = false) : Progress s := by
  obtain ⟨he, hd⟩ := not_scanning_of_not_busy h
  exact ⟨fun e => absurd e he, fun e => absurd e hd, fun e => absurd e hd, fun e => absurd e hd⟩

theorem progress_of_sameMachine {s t : State} (h : SameMachine s t) (hp : Progress s) : Progress t := by
  rw [h]
  exact ⟨hp.enc, hp.out, hp.clean, hp.cur⟩

/-! ## ENCODE -/

/-- The pixel a running ENCODE visits is the one with linear index n. -/
theorem EncScanning.linearIndex {s : State} (h : EncScanning s) :
    linearIndex s.grid.w.toNat s.x.toNat s.y.toNat = encVisited s := by
  rw [h.x_eq, h.y_eq, ← h.wreg_grid]
  exact linearIndex_mod_div _ _

/-- The stream bit of the visited pixel is the payload bit the step embeds (41_bitstream R92). -/
theorem streamBit_visited {s : State} {p : Byte} (hp : payload s s.byteIdx.toNat = some p) :
    streamBit s (encVisited s) = some (payloadBit p s.bitIdx.toNat) := by
  have := s.bitIdx.isLt
  have h1 : encVisited s / 8 = s.byteIdx.toNat := by unfold encVisited; omega
  have h2 : encVisited s % 8 = s.bitIdx.toNat := by unfold encVisited; omega
  simp [streamBit, h1, h2, hp]

/-- Pixel memory after an ENCODE scan step, by linear index: the visited pixel carries the payload bit, no other pixel
changes (42_encode R112). -/
theorem EncScanning.pixelN_embedded {s : State} (h : EncScanning s) (p : Byte) (n : Nat) :
    pixelN (embeddedGrid s p) n =
      if n = encVisited s then
        { pixelN s.grid n with blue := embedBit (pixelN s.grid n).blue (payloadBit p s.bitIdx.toNat) }
      else pixelN s.grid n := by
  unfold embeddedGrid
  rw [pixelN_putPixel, h.linearIndex, pixelAt_eq_pixelN, h.linearIndex]
  split
  · next e => rw [e]
  · rfl

theorem EncScanning.blueLsb_embedded {s : State} (h : EncScanning s) (p : Byte) (n : Nat) :
    blueLsb (embeddedGrid s p) n =
      if n = encVisited s then payloadBit p s.bitIdx.toNat else blueLsb s.grid n := by
  rw [blueLsb_eq, h.pixelN_embedded]
  split
  · simp
  · rfl

theorem streamBit_congr {s t : State} (hm : t.mlen = s.mlen) (hi : t.msgin = s.msgin) (n : Nat) :
    streamBit t n = streamBit s n := by
  simp [streamBit, payload, hm, hi]

/-- The grid now carries n + 1 stream bits. -/
theorem Progress.embedded {s : State} (hp : Progress s) (hb : s.st = .encBusy) (h : EncScanning s) {p : Byte}
    (hpay : payload s s.byteIdx.toNat = some p) :
    ∀ n < encVisited s + 1, streamBit s n = some (blueLsb (embeddedGrid s p) n) := by
  intro n hn
  rw [h.blueLsb_embedded]
  split
  · next e => rw [e]; exact streamBit_visited hpay
  · next e => exact hp.enc hb n (by omega)

/-- A scan step of a running ENCODE keeps the progress. -/
theorem Progress.encodeAdvance {s : State} (hp : Progress s) (hb : s.st = .encBusy) (h : EncScanning s) {p : Byte}
    (hpay : payload s s.byteIdx.toNat = some p) :
    Progress (encodeAdvance (setGrid (embeddedGrid s p) s)) := by
  have hall := hp.embedded hb h hpay
  by_cases hd : (bitNext s.byteIdx s.bitIdx).1 = s.req
  · rw [encodeAdvance_done (s := setGrid (embeddedGrid s p) s) hd]
    exact progress_of_not_busy rfl
  · rw [encodeAdvance_more (s := setGrid (embeddedGrid s p) s) hd]
    refine ⟨fun _ n hn => ?_, fun e => ?_, fun e => ?_, fun e => ?_⟩
    · have hn' : n < 8 * (bitNext s.byteIdx s.bitIdx).1.toNat + (bitNext s.byteIdx s.bitIdx).2.toNat := hn
      rw [h.bitNext_count] at hn'
      exact (streamBit_congr rfl rfl n).trans (hall n hn')
    all_goals (simp [hb] at e)

/-! ## DECODE -/

theorem runningByte_eq_shiftMany (g : Grid) (first count : Nat) :
    runningByte g first count = shiftMany (fun j => blueLsb g (first + j)) 0#8 count := rfl

theorem runningByte_succ (g : Grid) (first count : Nat) :
    runningByte g first (count + 1) = shiftIn (runningByte g first count) (blueLsb g (first + count)) := by
  simp only [runningByte_eq_shiftMany, shiftMany_succ]

/-- Eight bits make the recovered byte (30_encoding R70). -/
theorem runningByte_eight (g : Grid) (k : Nat) : runningByte g (8 * k) 8 = recoveredByte g k := by
  rw [runningByte_eq_shiftMany, shiftMany_eight]; rfl

theorem DecScanning.visited_eq {s : State} (h : DecScanning s) :
    decVisited s = 8 * s.olen.toNat + s.bitIdx.toNat := by
  have h1 := h.bitIdx_eq
  have h2 := h.olen_eq
  omega

/-- The shift-in of the visited pixel's blue LSB extends the running byte by one bit. -/
theorem Progress.shifted {s : State} (hp : Progress s) (hb : s.st = .decBusy) (h : DecScanning s) :
    shiftIn s.curByte (blueLsb s.grid (decVisited s)) =
      runningByte s.grid (8 * s.olen.toNat) (s.bitIdx.toNat + 1) := by
  rw [runningByte_succ, ← h.visited_eq, ← hp.cur hb]

/-- The eighth shift completes the recovered byte at index OLEN. -/
theorem Progress.completed {s : State} (hp : Progress s) (hb : s.st = .decBusy) (h : DecScanning s)
    (h7 : s.bitIdx = 7#3) :
    shiftIn s.curByte (blueLsb s.grid (decVisited s)) = recoveredByte s.grid s.olen.toNat := by
  rw [hp.shifted hb h, h7]
  exact runningByte_eight _ _

theorem progress_decodeAdvance {u : State} (ho : ∀ k < u.olen.toNat, cellsFind u.msgout k = some (recoveredByte u.grid k))
    (hc : ∀ k < u.olen.toNat, recoveredByte u.grid k ≠ sentinel)
    (hr : u.curByte = runningByte u.grid (8 * u.olen.toNat) u.bitIdx.toNat) (hst : u.st = .decBusy) :
    Progress (decodeAdvance u) := by
  unfold decodeAdvance
  split
  · exact progress_of_not_busy rfl
  · exact ⟨fun e => by simp [hst] at e, fun _ => ho, fun _ => hc, fun _ => hr⟩

/-- The message buffer after one more recovered byte. -/
theorem Progress.appended {s : State} (hi : StateInv s) (hp : Progress s) (hb : s.st = .decBusy) {b : Byte}
    (hbb : b = recoveredByte s.grid s.olen.toNat) (hne : b ≠ sentinel) (hfull : s.olen.toNat ≠ s.cfg.mcap) :
    (appendOut b s).olen.toNat = s.olen.toNat + 1 ∧
    (∀ k < s.olen.toNat + 1, cellsFind (appendOut b s).msgout k = some (recoveredByte s.grid k)) ∧
    (∀ k < s.olen.toNat + 1, recoveredByte s.grid k ≠ sentinel) := by
  obtain ⟨ho, -⟩ := olen_succ hi hfull
  refine ⟨ho, fun k hk => ?_, fun k hk => ?_⟩
  · rw [appendOut_msgout, cellsFind_memWrite]
    split
    · next e => rw [e, hbb]
    · next e => exact hp.out hb k (by omega)
  · rcases Nat.lt_or_ge k s.olen.toNat with h | h
    · exact hp.clean hb k h
    · have e : k = s.olen.toNat := by omega
      rw [e, ← hbb]; exact hne

/-- A scan step of a running DECODE keeps the progress. -/
theorem Progress.decodeShifted {s : State} (hi : StateInv s) (hp : Progress s) (hb : s.st = .decBusy) :
    Progress (decodeShifted (shiftIn s.curByte (blueLsb s.grid (decVisited s))) s) := by
  have h := hi.dec hb
  unfold Machine.decodeShifted
  split
  · next h7 =>
    have hcomp := hp.completed hb h h7
    split
    · exact progress_of_not_busy rfl
    · next hs =>
      split
      · exact progress_of_not_busy rfl
      · next hfull =>
        obtain ⟨ho, hout, hclean⟩ := hp.appended hi hb hcomp hs hfull
        exact progress_decodeAdvance (fun k hk => hout k (ho ▸ hk)) (fun k hk => hclean k (ho ▸ hk)) rfl hb
  · next h7 =>
    refine progress_decodeAdvance (hp.out hb) (hp.clean hb) ?_ hb
    change _ = runningByte s.grid (8 * s.olen.toNat) (s.bitIdx + 1#3).toNat
    rw [bitIdx_succ h7]
    exact hp.shifted hb h

/-! ## START -/

theorem progress_beginEncode (s : State) : Progress (beginEncode s) := by
  refine ⟨fun _ n hn => ?_, fun e => ?_, fun e => ?_, fun e => ?_⟩
  · have : encVisited (beginEncode s) = 0 := rfl
    omega
  all_goals (simp [beginEncode] at e)

theorem progress_beginDecode (s : State) : Progress (beginDecode s) := by
  refine ⟨fun e => ?_, fun _ k hk => ?_, fun _ k hk => ?_, fun _ => ?_⟩
  · simp [beginDecode] at e
  · have : (beginDecode s).olen.toNat = 0 := rfl
    omega
  · have : (beginDecode s).olen.toNat = 0 := rfl
    omega
  · rfl

theorem Progress.exec {s t : State} {i : Instr} (hp : Progress s) (h : exec i s = .next t) : Progress t := by
  cases i with
  | encode =>
    rcases execEncode_cases h with ⟨-, rfl⟩ | ⟨-, ⟨rfl, -⟩ | ⟨rfl, -⟩ | ⟨rfl, -⟩ | ⟨rfl, -⟩⟩
    · exact hp
    · exact progress_of_not_busy rfl
    · exact progress_of_not_busy rfl
    · exact progress_of_not_busy rfl
    · exact progress_beginEncode _
  | decode =>
    rcases execDecode_cases h with ⟨-, rfl⟩ | ⟨-, ⟨rfl, -⟩ | ⟨rfl, -⟩⟩
    · exact hp
    · exact progress_of_not_busy rfl
    · exact progress_beginDecode _

theorem Progress.engineStep {s t : State} (hi : StateInv s) (hp : Progress s) (h : engineStep s = .next t) :
    Progress t := by
  cases hb : busy s with
  | false => rw [engineStep_idle hb] at h; cases h; exact hp
  | true =>
    rcases (busy_iff s).1 hb with he | hd
    · rw [engineStep_encBusy he] at h
      obtain ⟨p, hpay⟩ := (hi.enc he).payload
      rw [encodeScanStep_scanning (hi.enc he) hpay] at h
      cases h
      exact hp.encodeAdvance he (hi.enc he) hpay
    · rw [engineStep_decBusy hd, decodeScanStep_scanning (hi.dec hd)] at h
      cases h
      exact hp.decodeShifted hi hd

end Sys2Proof.Machine
end

