-- ==== Sys2Proof/Laws/Runs.lean ====
section
/-! SUPPORT. Running operations followed step by step: what the k-th scan step finds and leaves. -/

namespace Sys2Proof.Machine

open Sys2Proof

/-! ## From a command to its scan -/

theorem step_withFetchWord {s : State} (hr : ready s = true) {v : Word} {i : Instr} (h : decode v = .instr i)
    (nbits : Nat) : step (s.withFetchWord nbits v.toNat) = exec i (reply .ok s) := by
  have hw : BitVec.ofNat 32 v.toNat = v := by simp
  have hs : (s.withFetchWord nbits v.toNat).script = cmdMove v :: s.script := by
    simp [State.withFetchWord, hw]
  rw [step_cons hs]
  have hsame : setScript s.script (s.withFetchWord nbits v.toNat) = s := rfl
  rw [hsame]
  change hostWrite (regAddr .cmd) v s = _
  rw [hostWrite_regCmd, if_pos hr, startCommand_instr h]

theorem step_fetch_encode {s : State} (hr : ready s = true) :
    step (s.withFetchWord 32 1) = execEncode (reply .ok s) :=
  step_withFetchWord hr (v := 0x00000001#32) (i := .encode) rfl 32

theorem step_fetch_decode {s : State} (hr : ready s = true) :
    step (s.withFetchWord 32 2) = execDecode (reply .ok s) :=
  step_withFetchWord hr (v := 0x00000002#32) (i := .decode) rfl 32

/-- An ENCODE that passes every check enters its scan (42_encode R111, 60_exceptions R184 (6)). -/
theorem execEncode_begins {s : State} (hr : ready s = true) (hw : s.grid.w ≠ 0#16) (hh : s.grid.h ≠ 0#16)
    (hm : s.mlen.toNat ≤ s.cfg.mcap) (hf : 8 * (s.mlen.toNat + 1) ≤ s.grid.w.toNat * s.grid.h.toNat)
    (hwr : ∀ i < s.mlen.toNat, (cellsFind s.msgin i).isSome = true) :
    execEncode s = .next (beginEncode (storeCapacity (sampleDims s))) := by
  have h1 : capacityExceeded s.grid.w.toNat s.grid.h.toNat s.mlen.toNat = false := by
    simpa [capacityExceeded, requiredBits, requiredBytes, capacityBits] using hf
  have h2 : messageWritten s = true := (messageWritten_iff s).2 hwr
  unfold execEncode
  rw [if_pos hr]
  unfold encodeStart
  rw [if_neg (by exact not_or.2 ⟨hw, hh⟩), if_neg (by exact Nat.not_lt.2 hm)]
  unfold encodeLaunch
  rw [if_neg (by exact (Bool.not_eq_true _).mpr h1), if_pos (by exact h2)]

theorem execEncode_exceeds {s : State} (hr : ready s = true) (hw : s.grid.w ≠ 0#16) (hh : s.grid.h ≠ 0#16)
    (hm : s.mlen.toNat ≤ s.cfg.mcap) (hf : s.grid.w.toNat * s.grid.h.toNat < 8 * (s.mlen.toNat + 1)) :
    execEncode s = .next (setSt .capExceeded (storeCapacity (sampleDims s))) := by
  have h1 : capacityExceeded s.grid.w.toNat s.grid.h.toNat s.mlen.toNat = true := by
    simpa [capacityExceeded, requiredBits, requiredBytes, capacityBits] using hf
  unfold execEncode
  rw [if_pos hr]
  unfold encodeStart
  rw [if_neg (by exact not_or.2 ⟨hw, hh⟩), if_neg (by exact Nat.not_lt.2 hm)]
  unfold encodeLaunch
  rw [if_pos (by exact h1)]

theorem execDecode_begins {s : State} (hr : ready s = true) (hw : s.grid.w ≠ 0#16) (hh : s.grid.h ≠ 0#16) :
    execDecode s = .next (beginDecode (sampleDims s)) := by
  unfold execDecode
  rw [if_pos hr]
  unfold decodeStart
  rw [if_neg (by exact not_or.2 ⟨hw, hh⟩)]

theorem dim_ne_zero {d : Dim} (h : 1 ≤ d.toNat) : d ≠ 0#16 := by
  rintro rfl
  simp at h

/-! ## A running ENCODE -/

/-- `u` is a running ENCODE that has visited `k` pixels of the grid `g`, embedding `bit n` in pixel n; `ref` holds the
registers and buffers it does not write. -/
structure EncRun (ref : State) (g : Grid) (bit : Nat → Bool) (k : Nat) (u : State) : Prop where
  st : u.st = .encBusy
  inv : StateInv u
  quiet : u.script = []
  visited : encVisited u = k
  same : u = { ref with grid := u.grid, x := u.x, y := u.y, byteIdx := u.byteIdx, bitIdx := u.bitIdx, st := u.st }
  w : u.grid.w = g.w
  h : u.grid.h = g.h
  bits : ∀ n < 8 * (ref.mlen.toNat + 1), streamBit ref n = some (bit n)
  pix : ∀ n, pixelN u.grid n =
    if n < k then { pixelN g n with blue := embedBit (pixelN g n).blue (bit n) } else pixelN g n

/-- What an ENCODE that has embedded the first `k` bits has left of pixel memory. -/
theorem EncRun.embedded {ref : State} {g : Grid} {bit : Nat → Bool} {k : Nat} {u : State} (hu : EncRun ref g bit k u)
    {p : Byte} (hp : payload u u.byteIdx.toNat = some p) (n : Nat) :
    pixelN (embeddedGrid u p) n =
      if n < k + 1 then { pixelN g n with blue := embedBit (pixelN g n).blue (bit n) } else pixelN g n := by
  have h := hu.inv.enc hu.st
  have hm : u.mlen = ref.mlen := by rw [hu.same]
  have hi : u.msgin = ref.msgin := by rw [hu.same]
  have hk : k < 8 * (ref.mlen.toNat + 1) := by
    have h1 := h.byteIdx_lt
    have h2 := u.bitIdx.isLt
    rw [h.req_eq, hm] at h1
    rw [← hu.visited]
    unfold encVisited
    omega
  have hbit : payloadBit p u.bitIdx.toNat = bit k := by
    have h1 := streamBit_visited hp
    rw [hu.visited, streamBit_congr hm hi, hu.bits k hk] at h1
    exact (Option.some.inj h1).symm
  rw [h.pixelN_embedded, hu.visited, hu.pix n, hbit]
  by_cases e : n = k
  · subst e; simp
  · rw [if_neg e]
    by_cases e' : n < k
    · simp [e', show n < k + 1 by omega]
    · simp [e', show ¬ n < k + 1 by omega]

theorem scanFrame_trans {ref u v : State}
    (hu : u = { ref with grid := u.grid, x := u.x, y := u.y, byteIdx := u.byteIdx, bitIdx := u.bitIdx, st := u.st })
    (hv : v = { u with grid := v.grid, x := v.x, y := v.y, byteIdx := v.byteIdx, bitIdx := v.bitIdx, st := v.st }) :
    v = { ref with grid := v.grid, x := v.x, y := v.y, byteIdx := v.byteIdx, bitIdx := v.bitIdx, st := v.st } :=
  hv.trans (by rw [hu])

/-- ONE SCAN STEP of a running ENCODE: one pixel further, or done after the last payload bit (42_encode R112, R119). -/
theorem EncRun.step {ref : State} {g : Grid} {bit : Nat → Bool} {k : Nat} {u : State} (hu : EncRun ref g bit k u) :
    ∃ t, step u = .next t ∧
      (k + 1 < 8 * u.req.toNat → EncRun ref g bit (k + 1) t) ∧
      (k + 1 = 8 * u.req.toNat → t.st = .encDone ∧ StateInv t ∧ t.script = [] ∧ t.grid.w = g.w ∧ t.grid.h = g.h ∧
        t = { ref with grid := t.grid, x := t.x, y := t.y, byteIdx := t.byteIdx, bitIdx := t.bitIdx, st := t.st } ∧
        ∀ n, pixelN t.grid n =
          if n < k + 1 then { pixelN g n with blue := embedBit (pixelN g n).blue (bit n) } else pixelN g n) := by
  have h := hu.inv.enc hu.st
  obtain ⟨p, hp⟩ := h.payload
  have hs : Machine.step u = .next (encodeAdvance (setGrid (embeddedGrid u p) u)) := by
    rw [step_nil hu.quiet, engineStep_encBusy hu.st, encodeScanStep_scanning h hp]
  have hinv := hu.inv.encodeAdvance hu.st p
  refine ⟨_, hs, fun hk => ?_, fun hk => ?_⟩
  · have hd : ¬ (bitNext u.byteIdx u.bitIdx).1 = u.req := fun e => by
      have := h.done_iff.1 e
      rw [hu.visited] at this
      omega
    rw [encodeAdvance_more (s := setGrid (embeddedGrid u p) u) hd] at hinv ⊢
    exact {
      st := hu.st
      inv := hinv
      quiet := hu.quiet
      visited := by
        change 8 * (bitNext u.byteIdx u.bitIdx).1.toNat + (bitNext u.byteIdx u.bitIdx).2.toNat = k + 1
        rw [h.bitNext_count, hu.visited]
      same := scanFrame_trans hu.same rfl
      w := hu.w
      h := hu.h
      bits := hu.bits
      pix := hu.embedded hp }
  · have hd : (bitNext u.byteIdx u.bitIdx).1 = u.req := h.done_iff.2 (by rw [hu.visited]; exact hk)
    rw [encodeAdvance_done (s := setGrid (embeddedGrid u p) u) hd] at hinv ⊢
    exact ⟨rfl, hinv, hu.quiet, hu.w, hu.h, scanFrame_trans hu.same rfl, hu.embedded hp⟩

/-- The message of a state, bit by bit. -/
def messageBit (m : List Byte) (n : Nat) : Bool := payloadBit ((m ++ [sentinel]).getD (n / 8) 0#8) (n % 8)

theorem payload_of_holdsMessage {s : State} {m : List Byte} (h : HoldsMessage s m) {i : Nat} (hi : i ≤ m.length) :
    payload s i = some ((m ++ [sentinel]).getD i 0#8) := by
  obtain ⟨hl, hc⟩ := h
  unfold payload
  rw [hl]
  rcases Nat.lt_or_eq_of_le hi with h1 | h1
  · rw [if_pos h1, hc i h1]
    simp [List.getD_eq_getElem?_getD, List.getElem?_append_left h1, List.getElem?_eq_getElem h1]
  · subst h1
    simp

theorem streamBit_of_holdsMessage {s : State} {m : List Byte} (h : HoldsMessage s m) {n : Nat}
    (hn : n < 8 * (m.length + 1)) : streamBit s n = some (messageBit m n) := by
  unfold streamBit messageBit
  rw [payload_of_holdsMessage h (show n / 8 ≤ m.length by omega)]
  rfl

theorem written_of_holdsMessage {s : State} {m : List Byte} (h : HoldsMessage s m) :
    ∀ i < s.mlen.toNat, (cellsFind s.msgin i).isSome = true := by
  intro i hi
  rw [h.1] at hi
  rw [h.2 i hi, List.getElem?_eq_getElem hi]
  rfl

/-- The START of an ENCODE that fits is a running ENCODE with no pixel visited. -/
theorem encRun_start {s : State} {m : List Byte} (hi : StateInv s) (hr : ready s = true) (hq : s.script = [])
    (hm : HoldsMessage s m) (hcap : m.length ≤ s.cfg.mcap) (hw : 1 ≤ s.grid.w.toNat) (hh : 1 ≤ s.grid.h.toNat)
    (hf : 8 * (m.length + 1) ≤ s.grid.w.toNat * s.grid.h.toNat) :
    ∃ u, execEncode s = .next u ∧ EncRun u s.grid (messageBit m) 0 u ∧ u.mlen = s.mlen ∧ u.msgin = s.msgin ∧
      u.cfg = s.cfg := by
  have hl := hm.1
  have hex := execEncode_begins hr (dim_ne_zero hw) (dim_ne_zero hh) (by omega) (by rw [hl]; exact hf)
    (written_of_holdsMessage hm)
  refine ⟨_, hex, ?_, rfl, rfl, rfl⟩
  have hiu : StateInv (beginEncode (storeCapacity (sampleDims s))) := hi.exec (i := .encode) hex
  exact {
    st := rfl
    inv := hiu
    quiet := hq
    visited := rfl
    same := rfl
    w := rfl
    h := rfl
    bits := fun n hn => streamBit_of_holdsMessage (s := beginEncode (storeCapacity (sampleDims s))) hm
      (by change n < 8 * (s.mlen.toNat + 1) at hn; rw [hl] at hn; exact hn)
    pix := fun n => by simp }

theorem EncRun.req {ref : State} {g : Grid} {bit : Nat → Bool} {k : Nat} {u : State} (hu : EncRun ref g bit k u) :
    u.req.toNat = ref.mlen.toNat + 1 := by
  have := (hu.inv.enc hu.st).req_eq
  rw [this, hu.same]

/-- k scan steps of a running ENCODE that is not yet done (42_encode R119). -/
theorem EncRun.run {ref : State} {g : Grid} {bit : Nat → Bool} {u : State} (hu : EncRun ref g bit 0 u) {k : Nat}
    (hk : k < 8 * (ref.mlen.toNat + 1)) : ∃ t, Machine.run k u = .next t ∧ EncRun ref g bit k t := by
  induction k with
  | zero => exact ⟨u, rfl, hu⟩
  | succ k ih =>
    obtain ⟨t, ht, hrun⟩ := ih (by omega)
    obtain ⟨t', hs, hgo, -⟩ := hrun.step
    exact ⟨t', by rw [run_add ht 1]; exact run_one hs, hgo (by rw [hrun.req]; exact hk)⟩

/-- The whole scan of an ENCODE (42_encode R116). -/
theorem EncRun.finish {ref : State} {g : Grid} {bit : Nat → Bool} {u : State} (hu : EncRun ref g bit 0 u) :
    ∃ t, Machine.run (8 * (ref.mlen.toNat + 1)) u = .next t ∧ t.st = .encDone ∧ StateInv t ∧ t.script = [] ∧
      t.grid.w = g.w ∧ t.grid.h = g.h ∧
      t = { ref with grid := t.grid, x := t.x, y := t.y, byteIdx := t.byteIdx, bitIdx := t.bitIdx, st := t.st } ∧
      ∀ n, pixelN t.grid n =
        if n < 8 * (ref.mlen.toNat + 1) then { pixelN g n with blue := embedBit (pixelN g n).blue (bit n) }
        else pixelN g n := by
  obtain ⟨t, ht, hrun⟩ := hu.run (k := 8 * (ref.mlen.toNat + 1) - 1) (by omega)
  obtain ⟨t', hs, -, hdone⟩ := hrun.step
  have e : 8 * (ref.mlen.toNat + 1) - 1 + 1 = 8 * (ref.mlen.toNat + 1) := by omega
  have := hdone (by rw [hrun.req, e])
  rw [e] at this
  refine ⟨t', ?_, this.1, this.2.1, this.2.2.1, this.2.2.2.1, this.2.2.2.2.1, this.2.2.2.2.2.1, this.2.2.2.2.2.2⟩
  rw [← e, run_add ht 1]
  exact run_one hs

/-! ## A running DECODE -/

/-- `u` is a running DECODE that has visited `k` pixels of the grid `g`. -/
structure DecRun (c : Config) (g : Grid) (k : Nat) (u : State) : Prop where
  st : u.st = .decBusy
  inv : StateInv u
  prog : Progress u
  quiet : u.script = []
  cfg : u.cfg = c
  grid : u.grid = g
  visited : decVisited u = k

/-- The recovered bytes below `n` are in MSGOUT. -/
def HoldsRecovered (g : Grid) (n : Nat) (u : State) : Prop :=
  u.olen.toNat = n ∧ ∀ k < n, cellsFind u.msgout k = some (recoveredByte g k)

theorem decodeAdvance_last {s : State} (h : isLast s.wreg.toNat s.hreg.toNat s.x.toNat s.y.toNat = true) :
    decodeAdvance s = setSt .exhausted s := if_pos h

theorem decodeAdvance_more {s : State} (h : ¬ isLast s.wreg.toNat s.hreg.toNat s.x.toNat s.y.toNat = true) :
    decodeAdvance s = setXY (scanNext s.wreg.toNat s.x.toNat s.y.toNat) s := if_neg h

/-- ONE SCAN STEP of a running DECODE, in the order of its tests (43_decode R132, 60_exceptions R185). -/
theorem DecRun.step {c : Config} {g : Grid} {k : Nat} {u : State} (hu : DecRun c g k u) :
    ∃ t, step u = .next t ∧
      if k % 8 = 7 ∧ recoveredByte g (k / 8) = sentinel then
        t.st = .foundTerminator ∧ t.grid = g ∧ t.script = [] ∧ HoldsRecovered g (k / 8) t
      else if k % 8 = 7 ∧ k / 8 = c.mcap then
        t.st = .faulted ∧ t.fcause = .outFull ∧ t.grid = g ∧ t.script = [] ∧ HoldsRecovered g c.mcap t
      else if k + 1 = g.w.toNat * g.h.toNat then
        t.st = .exhausted ∧ t.grid = g ∧ t.script = [] ∧ HoldsRecovered g ((k + 1) / 8) t
      else DecRun c g (k + 1) t := by
  obtain ⟨hst, hinv, hprog, hq, rfl, rfl, rfl⟩ := hu
  have h := hinv.dec hst
  have hs : Machine.step u =
      .next (decodeShifted (shiftIn u.curByte (blueLsb u.grid (decVisited u))) u) := by
    rw [step_nil hq, engineStep_decBusy hst, decodeScanStep_scanning h]
  have hi' : StateInv (decodeShifted (shiftIn u.curByte (blueLsb u.grid (decVisited u))) u) := hinv.decodeShifted hst _
  have hp' := hprog.decodeShifted hinv hst
  refine ⟨_, hs, ?_⟩
  have hbit := h.bitIdx_eq
  have hlen := h.olen_eq
  have hlast := h.last_iff
  rw [h.wreg_grid, h.hreg_grid] at hlast
  have h7 : u.bitIdx = 7#3 ↔ decVisited u % 8 = 7 := by rw [bitIdx_seven_iff, hbit]
  -- what the last two tests leave, for the state `v` before the advance
  have hadv : ∀ v : State, v.wreg = u.wreg → v.hreg = u.hreg → v.x = u.x → v.y = u.y → v.grid = u.grid →
      v.script = [] → v.st = .decBusy → v.cfg = u.cfg → StateInv (decodeAdvance v) → Progress (decodeAdvance v) →
      HoldsRecovered u.grid ((decVisited u + 1) / 8) v →
      if decVisited u + 1 = u.grid.w.toNat * u.grid.h.toNat then
        (decodeAdvance v).st = .exhausted ∧ (decodeAdvance v).grid = u.grid ∧ (decodeAdvance v).script = [] ∧
          HoldsRecovered u.grid ((decVisited u + 1) / 8) (decodeAdvance v)
      else DecRun u.cfg u.grid (decVisited u + 1) (decodeAdvance v) := by
    intro v e1 e2 e3 e4 e5 e6 e7 e8 hiv hpv hrec
    by_cases hl : decVisited u + 1 = u.grid.w.toNat * u.grid.h.toNat
    · rw [if_pos hl]
      have hl' : isLast v.wreg.toNat v.hreg.toNat v.x.toNat v.y.toNat = true := by
        rw [e1, e2, e3, e4, h.wreg_grid, h.hreg_grid]; exact hlast.2 hl
      rw [decodeAdvance_last hl']
      exact ⟨rfl, e5, e6, hrec⟩
    · rw [if_neg hl]
      have hl' : ¬ isLast v.wreg.toNat v.hreg.toNat v.x.toNat v.y.toNat = true := by
        rw [e1, e2, e3, e4, h.wreg_grid, h.hreg_grid]; exact fun e => hl (hlast.1 e)
      rw [decodeAdvance_more hl'] at hiv hpv ⊢
      have hvis := (hiv.dec e7).visited_eq
      have h1 := (hiv.dec e7).bitIdx_eq
      refine { st := e7, inv := hiv, prog := hpv, quiet := e6, cfg := e8, grid := e5, visited := ?_ }
      obtain ⟨hx, -⟩ := scanNext_linear (y := u.y.toNat) h.x_lt
      have hy : (scanNext u.wreg.toNat u.x.toNat u.y.toNat).2 < u.hreg.toNat := by
        refine scanNext_row h.x_lt ?_
        have h2 := h.visited_lt
        have h3 : decVisited u + 1 ≠ u.wreg.toNat * u.hreg.toNat := by rw [h.wreg_grid, h.hreg_grid]; exact hl
        have h4 : decVisited u = u.y.toNat * u.wreg.toNat + u.x.toNat := rfl
        omega
      have hx1 := (scanNext_linear (y := u.y.toNat) h.x_lt).2
      have hx2 : (fitDim v.cfg.xw (scanNext v.wreg.toNat v.x.toNat v.y.toNat).1).toNat
          = (scanNext u.wreg.toNat u.x.toNat u.y.toNat).1 := by
        rw [e8, e1, e3, e4]; exact fitDim_toNat hinv.cfg.2.1 (by have := hinv.wreg; omega)
      have hy2 : (fitDim v.cfg.yw (scanNext v.wreg.toNat v.x.toNat v.y.toNat).2).toNat
          = (scanNext u.wreg.toNat u.x.toNat u.y.toNat).2 := by
        rw [e8, e1, e3, e4]; exact fitDim_toNat hinv.cfg.2.2.2.1 (by have := hinv.hreg; omega)
      unfold decVisited
      rw [setXY_x, setXY_y, setXY_wreg, hx2, hy2, e1]
      exact hx
  by_cases hb : decVisited u % 8 = 7
  · have hcomp := hprog.completed hst h (h7.2 hb)
    unfold decodeShifted at hi' hp' ⊢
    rw [if_pos (h7.2 hb)] at hi' hp' ⊢
    rw [hcomp, hlen] at hi' hp' ⊢
    by_cases hsen : recoveredByte u.grid (decVisited u / 8) = sentinel
    · rw [if_pos hsen] at hi' hp' ⊢
      rw [if_pos ⟨hb, hsen⟩]
      exact ⟨rfl, rfl, hq, hlen, fun k hk => hprog.out hst k (hlen ▸ hk)⟩
    · rw [if_neg hsen] at hi' hp' ⊢
      rw [if_neg (fun e => hsen e.2)]
      by_cases hfull : decVisited u / 8 = u.cfg.mcap
      · rw [if_pos hfull, if_pos ⟨hb, hfull⟩]
        exact ⟨rfl, rfl, rfl, hq, hfull ▸ hlen, fun k hk => hprog.out hst k (by omega)⟩
      · rw [if_neg hfull] at hi' hp' ⊢
        rw [if_neg (fun e => hfull e.2)]
        obtain ⟨ho, hout, -⟩ := hprog.appended hinv hst (b := recoveredByte u.grid (decVisited u / 8)) (by rw [hlen])
          hsen (by rw [hlen]; exact hfull)
        have hk8 : (decVisited u + 1) / 8 = decVisited u / 8 + 1 := by omega
        refine hadv _ rfl rfl rfl rfl rfl hq hst rfl hi' hp' ⟨?_, fun k hk => ?_⟩
        · rw [hk8, ← hlen]; exact ho
        · exact hout k (by omega)
  · have hb' : u.bitIdx ≠ 7#3 := fun e => hb (h7.1 e)
    unfold decodeShifted at hi' hp' ⊢
    rw [if_neg hb'] at hi' hp' ⊢
    rw [if_neg (fun e => hb e.1), if_neg (fun e => hb e.1)]
    have hk8 : (decVisited u + 1) / 8 = decVisited u / 8 := by omega
    refine hadv _ rfl rfl rfl rfl rfl hq hst rfl hi' hp' ⟨?_, fun k hk => ?_⟩
    · rw [hk8]; exact hlen
    · rw [hk8] at hk; exact hprog.out hst k (hlen ▸ hk)

/-- The START of a DECODE is a running DECODE with no pixel visited. -/
theorem decRun_start {s : State} (hi : StateInv s) (hr : ready s = true) (hq : s.script = [])
    (hw : 1 ≤ s.grid.w.toNat) (hh : 1 ≤ s.grid.h.toNat) :
    ∃ u, execDecode s = .next u ∧ DecRun s.cfg s.grid 0 u := by
  have hex := execDecode_begins hr (dim_ne_zero hw) (dim_ne_zero hh)
  have hiu : StateInv (beginDecode (sampleDims s)) := hi.exec (i := .decode) hex
  refine ⟨_, hex, { st := rfl, inv := hiu, prog := progress_beginDecode _, quiet := hq, cfg := rfl, grid := rfl,
                    visited := ?_ }⟩
  have h := (hiu.dec rfl).visited_eq
  exact h

/-- k scan steps of a running DECODE that meets neither a sentinel nor a full buffer nor the end of the grid. -/
theorem DecRun.run {c : Config} {g : Grid} {u : State} (hu : DecRun c g 0 u) {k : Nat}
    (hk : k < g.w.toNat * g.h.toNat) (hs : ∀ i < k / 8, recoveredByte g i ≠ sentinel) (hc : k / 8 ≤ c.mcap) :
    ∃ t, Machine.run k u = .next t ∧ DecRun c g k t := by
  induction k with
  | zero => exact ⟨u, rfl, hu⟩
  | succ k ih =>
    obtain ⟨t, ht, hrun⟩ := ih (by omega) (fun i hi => hs i (by omega)) (by omega)
    obtain ⟨t', hst, hcase⟩ := hrun.step
    rw [if_neg (fun e => hs (k / 8) (by omega) e.2), if_neg (by omega), if_neg (by omega)] at hcase
    exact ⟨t', by rw [run_add ht 1]; exact run_one hst, hcase⟩

end Sys2Proof.Machine
end

