-- ==== Sys2Proof/Tests/Slice0.lean ====
section
/-! SUPPORT. The model's own tests. Every expected value comes from spec/: the encodings of 30_encoding, the vectors of
95_test_vectors (named in the docstrings), or a rule. The witness_ theorems show, for each statement of
Certificates/Slice0/Obligations.lean that has hypotheses, concrete states and operands that meet them. -/

namespace Sys2Proof.Tests

open Sys2Proof Sys2Proof.Machine

/-! ## Helpers -/

/-- A W by H grid with these blue bytes in row-major order; every other field is 7. -/
def grid (w h : Dim) (blues : List Nat) : Grid := ⟨w, h, pixelCells 0 (blues.map fun b => ⟨BitVec.ofNat 8 b, 7⟩)⟩

/-- The message bytes from MSGIN[0] on. -/
def cells (bytes : List Nat) : Memory := (List.range bytes.length).map fun i => (i, BitVec.ofNat 8 (bytes.getD i 0))

/-- The reset state with this grid and this message. -/
def ready0 (g : Grid) (bytes : List Nat) : State :=
  { State.reset with grid := g, msgin := cells bytes, mlen := BitVec.ofNat 32 bytes.length }

/-- The next state of a step, if there is one. -/
def next? : StepResult → Option State
  | .next t => some t
  | .fault _ => none
  | .refused _ => none

/-- The blue bytes of a grid in row-major order. -/
def blues (g : Grid) : List Nat := (List.range (g.w.toNat * g.h.toNat)).map fun n =>
  (cellsRead Pixel.blank g.pix n).blue.toNat

/-- `s` with the host's moves `l` to come. -/
def host (l : List HostMove) (s : State) : State := { s with script := l }

/-- The empty message and GRID 4 by 2 of T-T1. -/
def t1 : State := ready0 (grid 4 2 [0xA0, 0xA1, 0xA2, 0xA3, 0xA4, 0xA5, 0xA6, 0xA7]) []

/-- T-T1, a running ENCODE of the empty message before its scan step at (x, y), bit index j: the blue bytes given. -/
def t1Scan (x y : Dim) (j : BitIndex) (bytes : List Nat) : State :=
  { t1 with grid := grid 4 2 bytes, wreg := 4, hreg := 2, req := 1, avail := 1, st := .encBusy, x := x, y := y,
            bitIdx := j }

/-- T-T1 before k = 3. -/
def t1k3 : State := t1Scan 3 0 3 [0xA0, 0xA1, 0xA3, 0xA3, 0xA4, 0xA5, 0xA6, 0xA7]

/-- T-T1 before k = 7, the last. -/
def t1k7 : State := t1Scan 3 1 7 [0xA0, 0xA1, 0xA3, 0xA3, 0xA5, 0xA5, 0xA7, 0xA7]

/-- GRID 4 by 4 and the message "A" of T-E2: an exact fit. -/
def fit : State := ready0
  (grid 4 4 [0x10, 0x21, 0x32, 0x43, 0x54, 0x65, 0x76, 0x87, 0x98, 0xA9, 0xBA, 0xCB, 0xDC, 0xED, 0xFE, 0x0F]) [0x41]

/-- A running ENCODE of T-E2 in its message byte: pixel (0, 0), bit index 0. -/
def fitScan : State := { fit with wreg := 4, hreg := 4, req := 2, avail := 2, st := .encBusy }

/-- GRID 3 by 3 of T-T3. -/
def t3 : State := ready0 (grid 3 3 [0x11, 0x10, 0x11, 0x10, 0x11, 0x10, 0x11, 0x10, 0x11]) []

/-- T-T3, a running DECODE. -/
def t3Scan (x y : Dim) (j : BitIndex) (cur : Byte) (olen : Word) (out : Memory) : State :=
  { t3 with wreg := 3, hreg := 3, st := .decBusy, x := x, y := y, bitIdx := j, curByte := cur, olen := olen,
            msgout := out }

/-- T-T3 before k = 1. -/
def t3k1 : State := t3Scan 1 0 1 0x01 0 []

/-- T-T3 before k = 7: the byte 0xAA completes. -/
def t3k7 : State := t3Scan 1 2 7 0x55 0 []

/-- T-T3 before k = 8: the last pixel, one bit of a byte. -/
def t3k8 : State := t3Scan 2 2 0 0x00 1 [(0, 0xAA)]

/-- T-T2 before k = 7: the sentinel completes at the last pixel. -/
def t2k7 : State :=
  { t1 with grid := grid 4 2 [0xA0, 0xA1, 0xA3, 0xA3, 0xA5, 0xA5, 0xA7, 0xA6], wreg := 4, hreg := 2, st := .decBusy,
            x := 3, y := 1, bitIdx := 7, curByte := 0x3F }

/-- T-D12, an instance with MCAP = 1, before its 16th scan step. -/
def full : State :=
  { State.reset with cfg := ⟨16, 16, 1, 24⟩, grid := grid 4 4 (List.replicate 16 0), wreg := 4, hreg := 4,
                     st := .decBusy, x := 3, y := 3, bitIdx := 7, olen := 1, msgout := [(0, 0)] }

/-- The start of T-D12. -/
def full0 : State := { State.reset with cfg := ⟨16, 16, 1, 24⟩, grid := grid 4 4 (List.replicate 16 0) }

/-- The grid of T-T2, before its DECODE. -/
def t2 : State := ready0 (grid 4 2 [0xA0, 0xA1, 0xA3, 0xA3, 0xA5, 0xA5, 0xA7, 0xA6]) []

/-- T-E3: 5 by 3 pixels, one bit short of "A". -/
def short : State := ready0 (grid 5 3 []) [0x41]

/-- A DECODE of GRID 8 by 1, all 0, before its last scan step: the byte completes at the last pixel. -/
def last8 : State :=
  { State.reset with grid := grid 8 1 (List.replicate 8 0), wreg := 8, hreg := 1, st := .decBusy, x := 7, bitIdx := 7 }

/-- After an illegal command (T-H6). -/
def faulty : State := { fit with st := .faulted, fcause := .illegalCmd, msgout := [(0, 0x41)] }

/-- GRID 4 by 4, all blank LSBs, and the message 7E, which is the sentinel itself (70_reset R205): an exact fit. -/
def tilde : State := ready0 (grid 4 4 (List.replicate 16 0)) [0x7E]

/-- The ENCODE of 7E after its message byte: the START step and 8 scan steps. -/
def tildeScan : State :=
  { tilde with grid := grid 4 4 [0, 1, 1, 1, 1, 1, 1, 0, 0, 0, 0, 0, 0, 0, 0, 0], wreg := 4, hreg := 4, req := 2, avail := 2,
               y := 2, byteIdx := 1, st := .encBusy, replies := [.ok] }

/-- The grid that ENCODE of 7E leaves: 7E twice, most significant bit first. -/
def tildeOut : State := ready0 (grid 4 4 [0, 1, 1, 1, 1, 1, 1, 0, 0, 1, 1, 1, 1, 1, 1, 0]) []

/-- A buffer of one cell and two bytes in the grid: 00, 7E (t = MCAP). -/
def tAtCap : State :=
  { State.reset with cfg := ⟨16, 16, 1, 24⟩, grid := grid 4 4 [0, 0, 0, 0, 0, 0, 0, 0, 0, 1, 1, 1, 1, 1, 1, 0] }

/-- A buffer of one cell and one byte in the grid, no sentinel (K = MCAP). -/
def kAtCap : State := { State.reset with cfg := ⟨16, 16, 1, 24⟩, grid := grid 4 2 (List.replicate 8 0) }

/-! ## Well-formedness: ill-formed terms are refused -/

theorem test_wf_config : Config.wf Config.reference ∧ Config.wf ⟨1, 1, 1, 0⟩ ∧ ¬ Config.wf ⟨0, 16, 1024, 24⟩ ∧
    ¬ Config.wf ⟨17, 16, 1024, 24⟩ ∧ ¬ Config.wf ⟨16, 0, 1024, 24⟩ ∧ ¬ Config.wf ⟨16, 17, 1024, 24⟩ ∧
    ¬ Config.wf ⟨16, 16, 0, 24⟩ ∧ ¬ Config.wf ⟨16, 16, 2 ^ 31, 24⟩ := by decide

theorem test_wf_instr : Instr.wf .encode = true ∧ Instr.wf .decode = true := by decide

theorem test_wf_memory : Memory.wf 2 [(0, 1), (1, 1)] = true ∧ Memory.wf 2 [(1, 1), (0, 1)] = false ∧
    Memory.wf 2 [(0, 1), (0, 1)] = false ∧ Memory.wf 2 [(2, 1)] = false := by decide

theorem test_wf_cells : cellsWf (some (0#8)) [(0, 1#8), (3, 0#8)] = false ∧ cellsRising (some 3) [(3, 1#8)] = false := by
  decide

theorem test_wf_grid : (grid 2 1 [1, 2]).wf Config.reference ∧
    ¬ Grid.wf Config.reference ⟨1, 1, [(1, ⟨1, 1⟩)]⟩ ∧ ¬ Grid.wf Config.reference ⟨1, 1, [(0, Pixel.blank)]⟩ ∧
    ¬ Grid.wf ⟨16, 16, 1024, 2⟩ ⟨1, 1, [(0, ⟨1, 4⟩)]⟩ ∧ ¬ Grid.wf ⟨1, 16, 1024, 24⟩ ⟨2, 1, []⟩ ∧
    ¬ Grid.wf ⟨16, 1, 1024, 24⟩ ⟨1, 2, []⟩ ∧
    ¬ Grid.wf Config.reference ⟨2, 1, [(1, ⟨1, 1⟩), (0, ⟨1, 1⟩)]⟩ := by decide

/-! ## Decoding: words written out from 30_encoding R61, R62, R63 -/

/-- ENCODE is bit 0 alone (R62). -/
theorem test_decode_encode_word : decode 0b00000000000000000000000000000001#32 = .instr .encode := by decide

/-- DECODE is bit 1 alone (R62). -/
theorem test_decode_decode_word : decode 0b00000000000000000000000000000010#32 = .instr .decode := by decide

/-- Every other word is illegal: 0, both bits, and words that differ from a command in one high bit (R63, T-H6). -/
theorem test_decode_illegal_words :
    [0x00000000#32, 0x00000003#32, 0x80000001#32, 0x80000002#32, 0x00000101#32, 0x00010002#32, 0xFFFFFFFF#32].map decode
      = List.replicate 7 (.rejected .illegalCommand) := by decide

/-- The register map (20_memory R51) and the flat form of a host address (30_encoding R60). -/
theorem test_host_addresses :
    [RegName.cmd, .status, .width, .height, .mlen, .olen, .avail, .req].map (fun r => (addrToBus (regAddr r)).toNat)
      = [0, 1, 2, 3, 4, 5, 6, 7] ∧
    addrToBus (msginAddr 5) = 0x100000005#34 ∧ addrToBus (msgoutAddr 0) = 0x200000000#34 ∧
    addrOfBus 0x3FFFFFFFF#34 = ⟨3, 0xFFFFFFFF⟩ := by decide

/-! ## The bitstream primitives: T-B1 to T-B22 -/

/-- T-B1, T-B3, T-B4. -/
theorem test_payloadBit :
    (List.range 8).map (payloadBit 0x68) = [false, true, true, false, true, false, false, false] ∧
    (List.range 8).map (payloadBit 0x7E) = [false, true, true, true, true, true, true, false] ∧
    payloadBit 0x80 0 = true ∧ payloadBit 0x01 0 = false ∧ payloadBit 0x01 7 = true := by decide

/-- T-B5, T-B6. -/
theorem test_embed_extract :
    [embedBit 0x00 false, embedBit 0x00 true, embedBit 0xFF false, embedBit 0xFF true, embedBit 0xA5 false,
      embedBit 0xA4 true] = [0x00, 0x01, 0xFE, 0xFF, 0xA4, 0xA5] ∧
    [extractBit 0x00, extractBit 0x01, extractBit 0xFE, extractBit 0xFF, extractBit 0x80] =
      [false, true, false, true, false] := by decide

/-- T-B8. -/
theorem test_shiftIn : [shiftIn 0xFF false, shiftIn 0x80 true, shiftIn 0xAA true] = [0xFE, 0x01, 0x55] := by decide

/-- T-B9 to T-B12, T-B21. -/
theorem test_positions :
    [scanNext 10 0 0, scanNext 10 8 0, scanNext 10 9 0, scanNext 10 9 8, scanNext 1 0 14] =
      [(1, 0), (9, 0), (0, 1), (0, 9), (0, 15)] ∧
    [isLast 10 10 9 9, isLast 10 10 9 8, isLast 10 10 8 9] = [true, false, false] ∧
    [bitNext 0 0, bitNext 0 6, bitNext 0 7, bitNext 2 7] = [(0, 1), (0, 7), (1, 0), (3, 0)] ∧
    linearIndex 10 3 2 = 23 := by decide

/-- T-B13 to T-B20. -/
theorem test_capacity :
    [capacityExceeded 10 10 2, capacityExceeded 4 4 1, capacityExceeded 5 3 1, capacityExceeded 7 1 0,
      capacityExceeded 8 1 0, capacityExceeded 10 10 11, capacityExceeded 10 10 12, capacityExceeded 65535 65535 1024] =
      [false, false, true, true, false, false, true, false] ∧
    [availBytes 10 10, availBytes 4 4, availBytes 5 3, availBytes 7 1, availBytes 65535 65535] =
      [12, 2, 1, 0, 536854528] := by decide

/-- T-B22. -/
theorem test_unpack : unpack [true, false, true, false, true, false, true, false, true, true] = [0xAA] := by decide

/-! ## ENCODE and DECODE, one step each -/

/-- START of ENCODE, T-T1: WREG = 4, HREG = 2, REQ = 1, AVAIL = 1, ENC_BUSY. -/
theorem test_encode_start : (next? (exec .encode t1)).map (fun t => (t.wreg, t.hreg, t.req, t.avail, t.st)) =
    some (4, 2, 1, 1, .encBusy) := by decide

/-- START of ENCODE, T-E3: one bit short. -/
theorem test_encode_exceeds :
    (next? (exec .encode (ready0 (grid 5 3 []) [0x41]))).map (fun t => (t.wreg, t.hreg, t.req, t.avail, t.st)) =
      some (5, 3, 2, 1, .capExceeded) := by decide

/-- The ENCODE scan step, T-T1 k = 3: the row wraps. -/
theorem test_encode_scan_wraps :
    (next? (step t1k3)).map (fun t => (blues t.grid, t.x, t.y, t.byteIdx, t.bitIdx, t.st)) =
      some ([0xA0, 0xA1, 0xA3, 0xA3, 0xA4, 0xA5, 0xA6, 0xA7], 0, 1, 0, 4, .encBusy) := by decide

/-- The ENCODE scan step, T-T1 k = 7: the last bit, 0, over A7. -/
theorem test_encode_scan_done :
    (next? (step t1k7)).map (fun t => (blues t.grid, t.x, t.y, t.byteIdx, t.bitIdx, t.st)) =
      some ([0xA0, 0xA1, 0xA3, 0xA3, 0xA5, 0xA5, 0xA7, 0xA6], 3, 1, 1, 0, .encDone) := by decide

/-- START of DECODE, T-T3. -/
theorem test_decode_start : (next? (exec .decode t3)).map (fun t => (t.wreg, t.hreg, t.olen, t.curByte, t.st)) =
    some (3, 3, 0, 0, .decBusy) := by decide

/-- The DECODE scan step, T-T3 k = 7: MSGOUT[0] <- AA, the byte registers cleared. -/
theorem test_decode_scan_stores :
    (next? (step t3k7)).map (fun t => (t.x, t.y, t.bitIdx, t.curByte)) = some (2, 2, 0, 0) ∧
    (next? (step t3k7)).map (fun t => (t.olen, cellsFind t.msgout 0, t.st)) = some (1, some 0xAA, .decBusy) := by decide

/-- The DECODE scan step, T-T2 k = 7: a sentinel completed at the last pixel is found, not exhausted. -/
theorem test_decode_scan_finds :
    (next? (step t2k7)).map (fun t => (t.x, t.y, t.bitIdx, t.curByte, t.olen, t.st)) =
      some (3, 1, 0, 0, 0, .foundTerminator) := by decide

/-- T-D12: STATUS = 0x47, OLEN = 1. -/
theorem test_decode_scan_full : (next? (step full)).map (fun t => (statusWord t, t.olen)) = some (0x47, 1) := by decide

/-! ## The host port: T-H1 to T-H12 -/

/-- T-H1. -/
theorem test_status_after_reset : (next? (step (host [.read (regAddr .status)] State.reset))).map (·.replies) =
    some [.data 0] := by decide

/-- T-H2: only v[7:0] is stored. -/
theorem test_msgin_write : (next? (step (host [.write (msginAddr 0) 0x168] State.reset))).map (fun t =>
    (t.msgin, t.replies)) = some ([(0, 0x68#8)], [.ok]) := by decide

/-- T-H4, T-H5: refused accesses. -/
theorem test_refused_accesses :
    ([.write (regAddr .status) 5, .write (regAddr .olen) 1, .write (msgoutAddr 0) 1, .read ⟨0, 8⟩, .write ⟨0, 8⟩ 0,
      .read (msginAddr 1024), .read ⟨3, 0⟩] : List HostMove).map
      (fun m => next? (step (host [m] State.reset))) =
    List.replicate 7 (some { State.reset with replies := [.err] }) := by decide

/-- T-H6: STATUS = 0x17, WIDTH not sampled. -/
theorem test_illegal_command : (next? (step (host [cmdMove 0x80000001] fit))).map (fun t =>
    (statusWord t, t.wreg, t.replies)) = some (0x17, 0, [.ok]) := by decide

/-- T-H10: while BUSY only STATUS can be read, and a command is refused. -/
theorem test_busy_accesses :
    ([.read (regAddr .mlen), .read (regAddr .status), cmdMove 2] : List HostMove).map
      (fun m => (next? (step (host [m] t3k1))).map (·.replies)) =
    [some [.err], some [.data 2], some [.err]] := by decide

/-- T-H11: reset clears the fault and keeps the buffers. -/
theorem test_reset_keeps_buffers : (next? (step (host [.reset] faulty))).map (fun t =>
    (statusWord t, t.mlen, cellsFind t.msgin 0, cellsFind t.msgout 0)) = some (0, 0, some 0x41, some 0x41) := by decide

/-- T-H12: the old outcome is simply overwritten. -/
theorem test_command_after_outcome :
    (next? (step (host [startMove .decode] { fit with st := .capExceeded }))).map (·.st) = some .decBusy := by decide

/-- withFetchWord: the very next step after reset runs the tabled command (a 1 by 1 grid cannot hold the sentinel). -/
theorem test_fetch : (next? (step (State.reset.withFetchWord 32 1))).map (·.st) = some .capExceeded ∧
    (next? (step (State.reset.withFetchWord 32 2))).map (·.st) = some .decBusy := by decide

/-- The GRID statement leaves blank pixels out (30_encoding R74). -/
theorem test_grid_statement : gridMove 2 2 [⟨0, 0⟩, ⟨1, 0⟩, ⟨0, 2⟩, ⟨0, 0⟩] =
    .loadGrid ⟨2, 2, [(1, ⟨1, 0⟩), (2, ⟨0, 2⟩)]⟩ := by decide

/-! ## Witnesses: the invariant and the progress -/

theorem inv_of_ready {s : State} (h : s.cfg.wf ∧ s.grid.wf s.cfg ∧ Memory.wf s.cfg.mcap s.msgin = true ∧
    Memory.wf s.cfg.mcap s.msgout = true ∧ s.wreg.toNat < 2 ^ s.cfg.xw ∧ s.hreg.toNat < 2 ^ s.cfg.yw ∧
    s.x.toNat < 2 ^ s.cfg.xw ∧ s.y.toNat < 2 ^ s.cfg.yw ∧ s.olen.toNat ≤ s.cfg.mcap ∧
    (s.st = .faulted ↔ s.fcause ≠ .none)) (he : s.st = .encBusy → EncScanning s) (hd : s.st = .decBusy → DecScanning s) :
    StateInv s :=
  ⟨h.1, h.2.1, h.2.2.1, h.2.2.2.1, h.2.2.2.2.1, h.2.2.2.2.2.1, h.2.2.2.2.2.2.1, h.2.2.2.2.2.2.2.1,
    h.2.2.2.2.2.2.2.2.1, h.2.2.2.2.2.2.2.2.2, he, hd⟩

theorem witness_inv_reset : StateInv State.reset :=
  inv_of_ready (by decide) (by intro h; cases h) (by intro h; cases h)

theorem witness_inv_fit : StateInv fit := inv_of_ready (by decide) (by intro h; cases h) (by intro h; cases h)

theorem witness_inv_faulty : StateInv faulty := inv_of_ready (by decide) (by intro h; cases h) (by intro h; cases h)

theorem witness_inv_fitScan : StateInv fitScan :=
  inv_of_ready (by decide) (fun _ => ⟨by decide, by decide, by decide, by decide, by decide, by decide, by decide, by decide,
    by decide, by decide, by decide, by decide, by decide⟩) (by intro h; cases h)

theorem witness_inv_t1k3 : StateInv t1k3 :=
  inv_of_ready (by decide) (fun _ => ⟨by decide, by decide, by decide, by decide, by decide, by decide, by decide, by decide,
    by decide, by decide, by decide, by decide, by decide⟩) (by intro h; cases h)

theorem witness_inv_t1k7 : StateInv t1k7 :=
  inv_of_ready (by decide) (fun _ => ⟨by decide, by decide, by decide, by decide, by decide, by decide, by decide, by decide,
    by decide, by decide, by decide, by decide, by decide⟩) (by intro h; cases h)

theorem decScanning_of {s : State} (h : 1 ≤ s.wreg.toNat ∧ 1 ≤ s.hreg.toNat ∧ s.wreg = s.grid.w ∧ s.hreg = s.grid.h ∧
    s.x.toNat < s.wreg.toNat ∧ s.y.toNat < s.hreg.toNat ∧ decVisited s < s.wreg.toNat * s.hreg.toNat ∧
    s.bitIdx.toNat = decVisited s % 8 ∧ s.olen.toNat = decVisited s / 8) : DecScanning s :=
  ⟨h.1, h.2.1, h.2.2.1, h.2.2.2.1, h.2.2.2.2.1, h.2.2.2.2.2.1, h.2.2.2.2.2.2.1, h.2.2.2.2.2.2.2.1, h.2.2.2.2.2.2.2.2⟩

theorem witness_inv_t3k1 : StateInv t3k1 :=
  inv_of_ready (by decide) (by intro h; cases h) (fun _ => decScanning_of (by decide))

theorem witness_inv_t3k7 : StateInv t3k7 :=
  inv_of_ready (by decide) (by intro h; cases h) (fun _ => decScanning_of (by decide))

theorem witness_inv_t3k8 : StateInv t3k8 :=
  inv_of_ready (by decide) (by intro h; cases h) (fun _ => decScanning_of (by decide))

theorem witness_inv_t2k7 : StateInv t2k7 :=
  inv_of_ready (by decide) (by intro h; cases h) (fun _ => decScanning_of (by decide))

theorem witness_inv_full : StateInv full :=
  inv_of_ready (by decide) (by intro h; cases h) (fun _ => decScanning_of (by decide))

theorem witness_inv_last8 : StateInv last8 :=
  inv_of_ready (by decide) (by intro h; cases h) (fun _ => decScanning_of (by decide))

theorem progress_dec {s : State} (hs : s.st = .decBusy)
    (h : (∀ k < s.olen.toNat, cellsFind s.msgout k = some (recoveredByte s.grid k)) ∧
      (∀ k < s.olen.toNat, recoveredByte s.grid k ≠ sentinel) ∧
      s.curByte = runningByte s.grid (8 * s.olen.toNat) s.bitIdx.toNat) : Progress s :=
  ⟨fun e => (SeqState.noConfusion (hs.symm.trans e)), fun _ => h.1, fun _ => h.2.1, fun _ => h.2.2⟩

theorem witness_progress_full : Progress full := progress_dec rfl (by decide)
theorem witness_progress_t2k7 : Progress t2k7 := progress_dec rfl (by decide)
theorem witness_progress_t3k8 : Progress t3k8 := progress_dec rfl (by decide)

theorem witness_progress_t1k7 : Progress t1k7 :=
  ⟨fun _ => by decide, (by intro h; cases h), (by intro h; cases h), (by intro h; cases h)⟩

theorem startable_fit : Startable fit := ⟨witness_inv_fit, rfl, rfl⟩

theorem startable_t1 : Startable t1 :=
  ⟨inv_of_ready (by decide) (by intro h; cases h) (by intro h; cases h), rfl, rfl⟩

theorem startable_t2 : Startable t2 :=
  ⟨inv_of_ready (by decide) (by intro h; cases h) (by intro h; cases h), rfl, rfl⟩

theorem startable_short : Startable short :=
  ⟨inv_of_ready (by decide) (by intro h; cases h) (by intro h; cases h), rfl, rfl⟩

theorem startable_full0 : Startable full0 :=
  ⟨inv_of_ready (by decide) (by intro h; cases h) (by intro h; cases h), rfl, rfl⟩

theorem startable_t3 : Startable t3 :=
  ⟨inv_of_ready (by decide) (by intro h; cases h) (by intro h; cases h), rfl, rfl⟩

theorem startable_tilde : Startable tilde :=
  ⟨inv_of_ready (by decide) (by intro h; cases h) (by intro h; cases h), rfl, rfl⟩

theorem startable_tildeOut : Startable tildeOut :=
  ⟨inv_of_ready (by decide) (by intro h; cases h) (by intro h; cases h), rfl, rfl⟩

theorem startable_tAtCap : Startable tAtCap :=
  ⟨inv_of_ready (by decide) (by intro h; cases h) (by intro h; cases h), rfl, rfl⟩

theorem startable_kAtCap : Startable kAtCap :=
  ⟨inv_of_ready (by decide) (by intro h; cases h) (by intro h; cases h), rfl, rfl⟩

/-! ## Witnesses: the hypotheses of the statements -/

/-- The premise EngineTurn of the scan step statements, in its three forms, for each operation: no move to come, a
move without an access, and a WAIT. (StateInv and Progress do not speak of the script; the states without moves are those of
the witnesses below.) -/
theorem witness_EngineTurn : ∀ v ∈ [fitScan, t1k3, t1k7, t2k7, full, last8, t3k7, t3k8, t3k1],
    (v.script = [] ∧ EngineTurn v v) ∧ EngineTurn (host [.engineTurn, .wait] v) (host [.wait] v) ∧
    EngineTurn (host [.wait] v) (host [.wait] v) := by
  intro v hv
  have hb : v.script = [] ∧ busy v = true := by revert v; decide
  exact ⟨⟨hb.1, .inl ⟨hb.1, rfl⟩⟩, .inr (.inl ⟨_, rfl, rfl⟩), .inr (.inr ⟨_, rfl, hb.2, rfl⟩)⟩

/-- EncDoneLeavesTheFrame, DecodeOutcomesDelimitTheMessage under a WAIT. -/
theorem witness_scan_under_wait :
    (StateInv (host [.wait] t1k7) ∧ Progress (host [.wait] t1k7) ∧
      ∃ t, step (host [.wait] t1k7) = .next t ∧ t.st = .encDone) ∧
    (StateInv (host [.wait] t2k7) ∧ Progress (host [.wait] t2k7) ∧
      ∃ t, step (host [.wait] t2k7) = .next t ∧ t.st = .foundTerminator) ∧
    (StateInv (host [.wait] full) ∧ Progress (host [.wait] full) ∧
      ∃ t, step (host [.wait] full) = .next t ∧ t.fcause = .outFull) :=
  ⟨⟨inv_of_ready (by decide) (fun _ => ⟨by decide, by decide, by decide, by decide, by decide, by decide, by decide,
      by decide, by decide, by decide, by decide, by decide, by decide⟩) (by intro h; cases h),
    ⟨fun _ => by decide, (by intro h; cases h), (by intro h; cases h), (by intro h; cases h)⟩, _, rfl, by decide⟩,
   ⟨inv_of_ready (by decide) (by intro h; cases h) (fun _ => decScanning_of (by decide)),
    progress_dec rfl (by decide), _, rfl, by decide⟩,
   ⟨inv_of_ready (by decide) (by intro h; cases h) (fun _ => decScanning_of (by decide)),
    progress_dec rfl (by decide), _, rfl, by decide⟩⟩

/-- EveryCommandWordIsEncodeDecodeOrIllegal, last clause; StepRunsTheDecodedCommand, second clause: the words next to the
two commands. -/
theorem witness_illegal_words : ∀ w ∈ [0x00000000#32, 0x00000003#32, 0xFFFFFFFF#32],
    (host [cmdMove w] fit).script = cmdMove w :: [] ∧ ready (host [cmdMove w] fit) = true ∧
      w ≠ 0x00000001#32 ∧ w ≠ 0x00000002#32 := by
  intro w hw
  refine ⟨rfl, rfl, ?_⟩
  simp only [List.mem_cons, List.not_mem_nil, or_false] at hw
  rcases hw with rfl | rfl | rfl <;> decide

/-- StepRunsTheDecodedCommand, first and third clauses. -/
theorem witness_StepRunsTheDecodedCommand : ∀ i ∈ [Instr.encode, Instr.decode],
    ready (host [startMove i] fit) = true ∧ (host [startMove i] fit).script = cmdMove (encode i) :: [] ∧
      decode (encode i) = .instr i := by decide

/-- CommandIsTurnedAwayUnlessReady: a BUSY state and FAULT. -/
theorem witness_CommandIsTurnedAwayUnlessReady : ∀ s ∈ [host [cmdMove 2] t3k1, host [cmdMove 2] fitScan,
    host [cmdMove 2] faulty], ready s = false ∧ s.script = cmdMove 2 :: [] := by decide

/-- CommandChecksComeInOrder: a state for each of its seven branches (the fourth with MLEN = MCAP + 1, the fifth one bit
short, the sixth an exact fit). -/
theorem witness_CommandChecksComeInOrder :
    (∀ s ∈ [host [cmdMove 1] faulty, host [cmdMove 1] (ready0 (grid 0 1 []) []), host [cmdMove 1] { fit with mlen := 1025 },
        host [cmdMove 1] (ready0 (grid 5 3 []) [0x41]), host [cmdMove 1] fit],
      s.script = cmdMove 1 :: [] ∧ (s.mlen.toNat ≤ s.cfg.mcap →
        8 * (s.mlen.toNat + 1) ≤ s.grid.w.toNat * s.grid.h.toNat →
        ∀ i < s.mlen.toNat, ∃ b ∈ [0x41#8], cellsFind s.msgin i = some b)) ∧
    (host [cmdMove 3] fit).script = cmdMove 3 :: [] ∧ (host [cmdMove 2] fit).script = cmdMove 2 :: [] := by decide

/-- EncodeStartStep: each clause at its boundary (a zero width and a zero height; MLEN = MCAP + 1; one bit short; an exact
fit, and MLEN = MCAP on a 128 by 65 grid; an unwritten cell). -/
theorem witness_EncodeStartStep :
    (ready (ready0 (grid 0 1 []) []) = true ∧ (ready0 (grid 0 1 []) []).grid.w.toNat = 0) ∧
    (ready (ready0 (grid 1 0 []) []) = true ∧ (ready0 (grid 1 0 []) []).grid.h.toNat = 0) ∧
    (ready { fit with mlen := 1025 } = true ∧ fit.grid.w.toNat ≠ 0 ∧ fit.grid.h.toNat ≠ 0 ∧ 1025 > fit.cfg.mcap) ∧
    (ready (ready0 (grid 5 3 []) [0x41]) = true ∧ 1 ≤ fit.cfg.mcap ∧ 8 * (1 + 1) > 5 * 3) ∧
    (ready fit = true ∧ fit.mlen.toNat ≤ fit.cfg.mcap ∧
      8 * (fit.mlen.toNat + 1) ≤ fit.grid.w.toNat * fit.grid.h.toNat ∧
      ∀ i < fit.mlen.toNat, ∃ b ∈ [0x41#8], cellsFind fit.msgin i = some b) ∧
    (1024 ≤ fit.cfg.mcap ∧ 8 * (1024 + 1) ≤ 128 * 65) ∧
    (ready { fit with msgin := [] } = true ∧ ∃ i < fit.mlen.toNat, cellsFind ([] : Memory) i = none) := by decide

/-- DecodeStartStep, ZeroDimensionFaults: a zero dimension, and the smallest grid. -/
theorem witness_DecodeStartStep :
    (ready (ready0 (grid 0 1 []) []) = true ∧ (ready0 (grid 0 1 []) []).grid.w.toNat = 0) ∧
    (ready (ready0 (grid 1 0 []) []) = true ∧ (ready0 (grid 1 0 []) []).grid.h.toNat = 0) ∧
    (ready State.reset = true ∧ State.reset.grid.w.toNat ≠ 0 ∧ State.reset.grid.h.toNat ≠ 0) := by decide

/-- CapacityFailureChangesNoPixel. -/
theorem witness_CapacityFailureChangesNoPixel : StateInv State.reset ∧ ready State.reset = true ∧
    ∃ t, exec .encode State.reset = .next t ∧ t.st = .capExceeded := ⟨witness_inv_reset, rfl, _, rfl, rfl⟩

/-- StartStepFrame: both commands complete, also where the state is not READY. -/
theorem witness_StartStepFrame : (∃ t, exec .encode fit = .next t) ∧ (∃ t, exec .decode fit = .next t) ∧
    (∃ t, exec .encode faulty = .next t) ∧ ∃ t, exec .decode t3k1 = .next t :=
  ⟨⟨_, rfl⟩, ⟨_, rfl⟩, ⟨_, rfl⟩, ⟨_, rfl⟩⟩

/-- EncodeScanStepEmbedsOneBit: a message byte, the sentinel, and the last step. -/
theorem witness_EncodeScanStepEmbedsOneBit :
    (StateInv fitScan ∧ fitScan.st = .encBusy ∧ fitScan.script = [] ∧ fitScan.byteIdx.toNat < fitScan.mlen.toNat ∧
      cellsFind fitScan.msgin fitScan.byteIdx.toNat = some 0x41#8) ∧
    (StateInv t1k3 ∧ t1k3.st = .encBusy ∧ t1k3.script = [] ∧ t1k3.byteIdx.toNat = t1k3.mlen.toNat) ∧
    (StateInv t1k7 ∧ t1k7.st = .encBusy ∧ t1k7.script = [] ∧ t1k7.byteIdx.toNat + 1 = t1k7.req.toNat ∧
      t1k7.bitIdx = 7#3) :=
  ⟨⟨witness_inv_fitScan, rfl, rfl, by decide, by decide⟩, ⟨witness_inv_t1k3, rfl, rfl, by decide⟩,
    ⟨witness_inv_t1k7, rfl, rfl, by decide, by decide⟩⟩

/-- EncodeScanStepFrame: a step that writes, one out of bounds, and one with no payload byte. -/
theorem witness_EncodeScanStepFrame : (t1k7.st = .encBusy ∧ ∃ t, step t1k7 = .next t) ∧
    ({ t1k7 with x := 4 }.st = .encBusy ∧ ∃ t, step { t1k7 with x := 4 } = .next t) ∧
    ({ fitScan with msgin := [] }.st = .encBusy ∧ payload { fitScan with msgin := [] } fitScan.byteIdx.toNat = none) :=
  ⟨⟨rfl, _, rfl⟩, ⟨rfl, _, rfl⟩, rfl, rfl⟩

/-- DecodeScanStepShiftsOneBit: a state for each of the six clauses. -/
theorem witness_DecodeScanStepShiftsOneBit :
    (StateInv t2k7 ∧ t2k7.st = .decBusy ∧ t2k7.script = [] ∧ t2k7.bitIdx = 7#3 ∧
      (t2k7.curByte <<< 1) ||| ((pixelAt t2k7.grid 3 1).blue &&& 1#8) = 0x7E#8) ∧
    (StateInv full ∧ full.st = .decBusy ∧ full.script = [] ∧ full.bitIdx = 7#3 ∧ full.olen.toNat = full.cfg.mcap ∧
      (full.curByte <<< 1) ||| ((pixelAt full.grid 3 3).blue &&& 1#8) ≠ 0x7E#8) ∧
    (StateInv last8 ∧ last8.st = .decBusy ∧ last8.script = [] ∧ last8.bitIdx = 7#3 ∧
      last8.olen.toNat ≠ last8.cfg.mcap ∧ last8.x.toNat = last8.wreg.toNat - 1 ∧ last8.y.toNat = last8.hreg.toNat - 1 ∧
      (last8.curByte <<< 1) ||| ((pixelAt last8.grid 7 0).blue &&& 1#8) ≠ 0x7E#8) ∧
    (StateInv t3k7 ∧ t3k7.st = .decBusy ∧ t3k7.script = [] ∧ t3k7.bitIdx = 7#3 ∧
      t3k7.olen.toNat ≠ t3k7.cfg.mcap ∧ t3k7.x.toNat ≠ t3k7.wreg.toNat - 1 ∧
      (t3k7.curByte <<< 1) ||| ((pixelAt t3k7.grid 1 2).blue &&& 1#8) ≠ 0x7E#8) ∧
    (StateInv t3k8 ∧ t3k8.st = .decBusy ∧ t3k8.script = [] ∧ t3k8.bitIdx ≠ 7#3 ∧
      t3k8.x.toNat = t3k8.wreg.toNat - 1 ∧ t3k8.y.toNat = t3k8.hreg.toNat - 1) ∧
    (StateInv t3k1 ∧ t3k1.st = .decBusy ∧ t3k1.script = [] ∧ t3k1.bitIdx ≠ 7#3 ∧
      t3k1.x.toNat ≠ t3k1.wreg.toNat - 1) :=
  ⟨⟨witness_inv_t2k7, rfl, rfl, rfl, by decide⟩, ⟨witness_inv_full, rfl, rfl, rfl, by decide, by decide⟩,
    ⟨witness_inv_last8, rfl, rfl, rfl, by decide, by decide, by decide, by decide⟩,
    ⟨witness_inv_t3k7, rfl, rfl, rfl, by decide, by decide, by decide⟩,
    ⟨witness_inv_t3k8, rfl, rfl, by decide, by decide, by decide⟩,
    ⟨witness_inv_t3k1, rfl, rfl, by decide, by decide⟩⟩

/-- DecodeScanStepFrame: a step that stores a byte. -/
theorem witness_DecodeScanStepFrame : t3k7.st = .decBusy ∧ ∃ t, step t3k7 = .next t ∧ t.olen ≠ t3k7.olen :=
  ⟨rfl, _, rfl, by decide⟩

/-- OutFullFaultKeepsTheRecoveredBytes. -/
theorem witness_OutFullFaultKeepsTheRecoveredBytes : StateInv full ∧ Progress full ∧ full.st = .decBusy ∧
    full.script = [] ∧ ∃ t, step full = .next t ∧ t.fcause = .outFull :=
  ⟨witness_inv_full, witness_progress_full, rfl, rfl, _, rfl, by decide⟩

/-- GridBoundsFaultIsUnreachable, first clause: X = W and Y = H, in both operations; second clause: a state that holds the
cause already. -/
theorem witness_GridBoundsFaultIsUnreachable :
    ({ t3k1 with x := 3 }.script = [] ∧ t3k1.grid.w.toNat ≤ 3 ∧ { t3k1 with x := 3 }.st = .decBusy) ∧
    ({ t1k7 with y := 2 }.script = [] ∧ t1k7.grid.h.toNat ≤ 2 ∧ { t1k7 with y := 2 }.st = .encBusy ∧
      (payload { t1k7 with y := 2 } 0).isSome = true) ∧
    (∃ t, step { faulty with fcause := .gridBounds } = .next t ∧ t.fcause = .gridBounds) :=
  ⟨by decide, by decide, _, rfl, rfl⟩

/-- AccessorReadsWhatItWrote: the corners of a grid, and the first coordinates outside it. -/
theorem witness_AccessorReadsWhatItWrote : (3 < fit.grid.w.toNat ∧ 3 < fit.grid.h.toNat) ∧
    ¬ (4 < fit.grid.w.toNat ∧ 3 < fit.grid.h.toNat) ∧ ¬ (3 < fit.grid.w.toNat ∧ 4 < fit.grid.h.toNat) := by decide

/-- MemoriesStayCanonical: the last cell of a buffer; a SetBlue; two equal grids. -/
theorem witness_MemoriesStayCanonical : (Memory.wf 2 [(0, 1)] = true ∧ 1 < 2) ∧
    (fit.grid.wf fit.cfg ∧ (setBlue fit.grid 3 3 0).isSome = true) := by decide

/-- PayloadIsMessageThenSentinel: a message of one byte; the bits j = 0 and j = 7. -/
theorem witness_PayloadIsMessageThenSentinel : HoldsMessage fit [0x41#8] ∧ HoldsMessage t1 [] ∧
    (15 < 8 * ([0x41#8].length + 1)) ∧ 0 ≤ 7 ∧ 7 ≤ 7 :=
  ⟨⟨by decide, by decide⟩, ⟨by decide, by decide⟩, by decide, by decide, by decide⟩

/-- PositionsCountInOrder, LastPixelHasTheLastIndex: a row end that is not the last pixel, and the last pixel. -/
theorem witness_positions : (9 < 10 ∧ 8 < 10 ∧ ¬ (9 = 10 - 1 ∧ 8 = 10 - 1)) ∧ (9 < 10 ∧ 9 = 10 - 1) ∧
    8 * 2 ^ 32 - 1 < 8 * 2 ^ 32 := by decide

/-- CapacityCheckIsExact: MLEN = MCAP. -/
theorem witness_CapacityCheckIsExact : { fit with mlen := 1024 }.cfg.wf ∧
    { fit with mlen := 1024 }.mlen.toNat = fit.cfg.mcap := by decide

/-- UnpackUndoesPack: the last byte and the last bit. -/
theorem witness_UnpackUndoesPack : 7 < 8 * [0x41#8].length ∧ 0 < [true, false, true, false, true, false, true, false].length / 8 := by
  decide

/-- HostReadReturnsTheRegister: a refused read of each kind, every register while idle, STATUS while BUSY, written cells of
both buffers. -/
theorem witness_HostReadReturnsTheRegister :
    (resolve fit.cfg ⟨0, 8⟩ = none ∧ busy fitScan = true ∧ regAddr .width ≠ regAddr .status) ∧
    (∀ r ∈ [RegName.cmd, .status, .width, .height, .mlen, .olen, .avail, .req],
      (host [.read (regAddr r)] fit).script = .read (regAddr r) :: [] ∧ busy (host [.read (regAddr r)] fit) = false) ∧
    (host [.read (regAddr .status)] fitScan).script = .read (regAddr .status) :: [] ∧
    (busy fit = false ∧ (msginAddr 0).space = 1#2 ∧ (msginAddr 0).index.toNat < fit.cfg.mcap ∧
      cellsFind fit.msgin (msginAddr 0).index.toNat = some 0x41#8) ∧
    (busy faulty = false ∧ (msgoutAddr 0).space = 2#2 ∧ (msgoutAddr 0).index.toNat < faulty.cfg.mcap ∧
      cellsFind faulty.msgout (msgoutAddr 0).index.toNat = some 0x41#8) := by decide

/-- HostWriteStoresMlenAndMsgin: the first MSGIN index outside the buffer, MLEN, the last MSGIN cell, CMD. -/
theorem witness_HostWriteStoresMlenAndMsgin : ready fit = true ∧
    (msginAddr 1024 ≠ regAddr .cmd ∧ msginAddr 1024 ≠ regAddr .mlen ∧
      ¬ ((msginAddr 1024).space = 1#2 ∧ (msginAddr 1024).index.toNat < fit.cfg.mcap)) ∧
    (host [.write (regAddr .mlen) 5] fit).script = .write (regAddr .mlen) 5 :: [] ∧
    (host [.write (msginAddr 1023) 5] fit).script = .write (msginAddr 1023) 5 :: [] ∧
    (msginAddr 1023).space = 1#2 ∧ (msginAddr 1023).index.toNat < fit.cfg.mcap ∧
    (host [.write (regAddr .cmd) 1] fit).script = .write (regAddr .cmd) 1 :: [] := by decide

/-- AccessTableBySequencerState: the first unmapped index of each space, a refused and a performed access of each kind. -/
theorem witness_AccessTableBySequencerState :
    (⟨3, 0⟩ : HostAddr).space = 3#2 ∧ 8 ≤ (⟨0, 8⟩ : HostAddr).index.toNat ∧
    fit.cfg.mcap ≤ (msginAddr 1024).index.toNat ∧ fit.cfg.mcap ≤ (msgoutAddr 1024).index.toNat ∧
    (busy fitScan = true ∧ regAddr .mlen ≠ regAddr .status) ∧ ready faulty = false ∧
    ¬ ((regAddr .olen).space = 1#2 ∨ regAddr .olen = regAddr .cmd ∨ regAddr .olen = regAddr .mlen) ∧
    ((msginAddr 1023).space = 1#2 ∧ ¬ fit.cfg.mcap ≤ (msginAddr 1023).index.toNat ∧ ready fit = true) ∧
    ((msginAddr 0).space = 1#2 ∧ cellsFind fit.msgin (msginAddr 0).index.toNat = some 0x41#8) ∧
    ((msgoutAddr 0).space = 2#2 ∧ cellsFind faulty.msgout (msgoutAddr 0).index.toNat = some 0x41#8 ∧ busy faulty = false) ∧
    ¬ 8 ≤ (⟨0, 7⟩ : HostAddr).index.toNat := by decide

/-- UnwrittenCellReadsSomeByte: the first and the last cell of each buffer after reset. -/
theorem witness_UnwrittenCellReadsSomeByte : busy State.reset = false ∧
    (∀ i ∈ [0, 1023], (msginAddr i).index.toNat < State.reset.cfg.mcap ∧ (msginAddr i).space = 1#2 ∧
      (msgoutAddr i).space = 2#2 ∧ cellsFind State.reset.msgin i = none ∧ cellsFind State.reset.msgout i = none) := by decide

/-- MsgStatementLoadsTheMessage: a message of one byte into a buffer of one cell. -/
theorem witness_MsgStatementLoadsTheMessage :
    let s : State := { State.reset with cfg := ⟨16, 16, 1, 24⟩, script := msgMoves [0x41#8] ++ [] }
    ready s = true ∧ [0x41#8].length ≤ s.cfg.mcap ∧ s.cfg.wf ∧ s.script = msgMoves [0x41#8] ++ [] := by decide

/-- ResetTakesEveryRegisterToItsValue: reset in FAULT and in an operation; a step that ends an operation by itself;
a new command and a reset over an outcome. -/
theorem witness_ResetTakesEveryRegisterToItsValue : ((host [.reset] faulty).script = .reset :: [] ∧
      (host [.reset] t3k7).script = .reset :: []) ∧
    (∃ t, step (host [.reset] faulty) = .next t ∧ t.st ≠ faulty.st ∧ ready (host [.reset] faulty) = false) ∧
    (∃ t, step t1k7 = .next t ∧ t.st ≠ t1k7.st ∧ ready t1k7 = false) ∧
    (∀ m ∈ [HostMove.reset, cmdMove 2], ready (host [m] { fit with st := .encDone }) = true ∧
      ((next? (step (host [m] { fit with st := .encDone }))).map (·.st)).any (· ≠ .encDone) = true) :=
  ⟨⟨rfl, rfl⟩, ⟨_, rfl, by decide, rfl⟩, ⟨_, rfl, by decide, rfl⟩, by decide⟩

/-- FaultIsStickyUntilReset: the engine's turn, a write, and reset. -/
theorem witness_FaultIsStickyUntilReset : faulty.st = .faulted ∧ (∃ t, step faulty = .next t) ∧
    (∃ t, step (host [.write (regAddr .mlen) 0] faulty) = .next t) ∧ ∃ t, step (host [.reset] faulty) = .next t :=
  ⟨rfl, ⟨_, rfl⟩, ⟨_, rfl⟩, ⟨_, rfl⟩⟩

/-- FaultCauseIsWrittenOnce: a step that raises a fault, and the reset that clears it. -/
theorem witness_FaultCauseIsWrittenOnce : (StateInv full ∧ ∃ t, step full = .next t ∧ t.fcause ≠ full.fcause) ∧
    (StateInv (host [.reset] faulty) ∧ ∃ t, step (host [.reset] faulty) = .next t ∧ t.fcause ≠ faulty.fcause) :=
  ⟨⟨witness_inv_full, _, rfl, by decide⟩,
    ⟨inv_of_ready (by decide) (by intro h; cases h) (by intro h; cases h), _, rfl, by decide⟩⟩

/-- BuffersAreWrittenOnlyByTheirOwner: a step that changes MSGIN, one that changes MSGOUT. -/
theorem witness_BuffersAreWrittenOnlyByTheirOwner :
    (∃ t, step (host [.write (msginAddr 0) 1] fit) = .next t ∧ t.msgin ≠ fit.msgin) ∧
    (∃ t, step t3k7 = .next t ∧ t.msgout ≠ t3k7.msgout) := ⟨⟨_, rfl, by decide⟩, ⟨_, rfl, by decide⟩⟩

/-- RegistersAreWrittenOnlyByTheirOwner: a step that changes MLEN, one that changes AVAIL, REQ, WREG and HREG, one that
grows OLEN, one that clears it. -/
theorem witness_RegistersAreWrittenOnlyByTheirOwner :
    (∃ t, step (host [.write (regAddr .mlen) 9] fit) = .next t ∧ t.mlen ≠ fit.mlen) ∧
    (∃ t, step (host [startMove .encode] fit) = .next t ∧ t.avail ≠ fit.avail ∧ t.req ≠ fit.req ∧ t.wreg ≠ fit.wreg ∧
      t.hreg ≠ fit.hreg) ∧
    (∃ t, step t3k7 = .next t ∧ t.olen ≠ t3k7.olen) ∧
    (∃ t, step (host [startMove .decode] { fit with olen := 1 }) = .next t ∧ t.olen ≠ 1) :=
  ⟨⟨_, rfl, by decide⟩, ⟨_, rfl, by decide⟩, ⟨_, rfl, by decide⟩, ⟨_, rfl, by decide⟩⟩

/-- GridIsWrittenOnlyByItsOwner: an ENCODE scan step and a host move that change GRID. -/
theorem witness_GridIsWrittenOnlyByItsOwner : (∃ t, step t1k7 = .next t ∧ t.grid ≠ t1k7.grid) ∧
    (∃ t, step (host [.writeBlue 3 3 0x77] fit) = .next t ∧ t.grid ≠ fit.grid) := ⟨⟨_, rfl, by decide⟩, ⟨_, rfl, by decide⟩⟩

/-- OperandsAreStableWhileBusy: a refused write and an engine's turn while BUSY. -/
theorem witness_OperandsAreStableWhileBusy : busy fitScan = true ∧
    (∃ t, step (host [.write (regAddr .mlen) 0] fitScan) = .next t) ∧ ∃ t, step fitScan = .next t :=
  ⟨rfl, ⟨_, rfl⟩, ⟨_, rfl⟩⟩

/-- ReadsHaveNoSideEffect: a port read and a pixel read; read twice: a written cell, an unwritten cell while BUSY and an
index past the buffer (both refused), and the last pixel. -/
theorem witness_ReadsHaveNoSideEffect :
    (∃ t, step (host [.read (regAddr .status)] fit) = .next t) ∧ (∃ t, step (host [.readPixel 3 3] fit) = .next t) ∧
    (cellsFind fit.msgin (msginAddr 0).index.toNat).isSome = true ∧
    (busy fitScan = true ∧ cellsFind fitScan.msgout (msgoutAddr 0).index.toNat = none) ∧
    ¬ (msginAddr 1024).index.toNat < fit.cfg.mcap ∧
    (busy fit = false ∧ 3 < fit.grid.w.toNat ∧ 3 < fit.grid.h.toNat) :=
  ⟨⟨_, rfl⟩, ⟨_, rfl⟩, by decide⟩

/-- HostMovesOnGridComplete: each move, at the last pixel and the largest other value. -/
theorem witness_HostMovesOnGridComplete : busy fit = false ∧ t1.grid.wf fit.cfg ∧ 3 < fit.grid.w.toNat ∧
    3 < fit.grid.h.toNat ∧ 2 ^ 24 - 1 < 2 ^ fit.cfg.otherw ∧
    (host [.loadGrid t1.grid] fit).script = .loadGrid t1.grid :: [] ∧
    (host [.writeOther 3 3 (2 ^ 24 - 1)] fit).script = .writeOther 3 3 (2 ^ 24 - 1) :: [] := by decide

/-- HostMovesOnGridComplete, first clause: while BUSY the host's other moves complete. -/
theorem witness_HostMovesOnGridComplete_busy : busy (host [.read (regAddr .status)] fitScan) = true ∧
    (host [.read (regAddr .status)] fitScan).script = .read (regAddr .status) :: [] ∧
    ∃ t, step (host [.read (regAddr .status)] fitScan) = .next t := ⟨rfl, rfl, _, rfl⟩

/-- HostOnGridWhileBusyStops. -/
theorem witness_HostOnGridWhileBusyStops : busy (host [.readPixel 0 0] fitScan) = true ∧
    (host [.readPixel 0 0] fitScan).script = .readPixel 0 0 :: [] := by decide

/-- EveryStepKeepsTheInvariant, EveryStepKeepsTheProgress: the last scan step of an ENCODE. -/
theorem witness_every_step : StateInv t1k7 ∧ Progress t1k7 ∧ ∃ t, step t1k7 = .next t :=
  ⟨witness_inv_t1k7, witness_progress_t1k7, _, rfl⟩

/-- ResetDuringAnOperation: reset before the last scan step of an ENCODE, and in a DECODE. -/
theorem witness_ResetDuringAnOperation :
    (StateInv (host [.reset] t1k7) ∧ Progress (host [.reset] t1k7) ∧ (host [.reset] t1k7).st = .encBusy ∧
      ∃ t, step (host [.reset] t1k7) = .next t) ∧
    (StateInv (host [.reset] t3k8) ∧ Progress (host [.reset] t3k8) ∧ (host [.reset] t3k8).st = .decBusy ∧
      ∃ t, step (host [.reset] t3k8) = .next t) :=
  ⟨⟨inv_of_ready (by decide) (fun _ => ⟨by decide, by decide, by decide, by decide, by decide, by decide, by decide,
      by decide, by decide, by decide, by decide, by decide, by decide⟩) (by intro h; cases h),
    ⟨fun _ => by decide, (by intro h; cases h), (by intro h; cases h), (by intro h; cases h)⟩, rfl, _, rfl⟩,
   ⟨inv_of_ready (by decide) (by intro h; cases h) (fun _ => decScanning_of (by decide)),
    progress_dec rfl (by decide), rfl, _, rfl⟩⟩

/-- EncDoneLeavesTheFrame. -/
theorem witness_EncDoneLeavesTheFrame : StateInv t1k7 ∧ Progress t1k7 ∧ t1k7.st = .encBusy ∧ t1k7.script = [] ∧
    ∃ t, step t1k7 = .next t ∧ t.st = .encDone := ⟨witness_inv_t1k7, witness_progress_t1k7, rfl, rfl, _, rfl, by decide⟩

/-- DecodeOutcomesDelimitTheMessage: both outcomes. -/
theorem witness_DecodeOutcomesDelimitTheMessage :
    (StateInv t2k7 ∧ Progress t2k7 ∧ t2k7.st = .decBusy ∧ t2k7.script = [] ∧
      ∃ t, step t2k7 = .next t ∧ t.st = .foundTerminator) ∧
    (StateInv t3k8 ∧ Progress t3k8 ∧ t3k8.st = .decBusy ∧ t3k8.script = [] ∧
      ∃ t, step t3k8 = .next t ∧ t.st = .exhausted) :=
  ⟨⟨witness_inv_t2k7, witness_progress_t2k7, rfl, rfl, _, rfl, by decide⟩,
    ⟨witness_inv_t3k8, witness_progress_t3k8, rfl, rfl, _, rfl, by decide⟩⟩

/-- EncodeVisitsPixelsInOrder, DecodeVisitsPixelsInOrder. -/
theorem witness_visits : (Startable fit ∧ ∃ u, exec .encode fit = .next u ∧ u.st = .encBusy) ∧
    (Startable t3 ∧ ∃ u, exec .decode t3 = .next u ∧ u.st = .decBusy) :=
  ⟨⟨startable_fit, _, rfl, by decide⟩, ⟨startable_t3, _, rfl, by decide⟩⟩

/-- EncodeClosedForm, EncodePacksTheLsbs: an exact fit (its run ends in the grid of T-E2), and one bit short. -/
theorem witness_EncodeClosedForm : (Startable fit ∧ HoldsMessage fit [0x41#8] ∧ [0x41#8].length ≤ fit.cfg.mcap ∧
      1 ≤ fit.grid.w.toNat ∧ 1 ≤ fit.grid.h.toNat ∧
      8 * ([0x41#8].length + 1) = fit.grid.w.toNat * fit.grid.h.toNat) ∧
    (Startable short ∧ HoldsMessage short [0x41#8] ∧ [0x41#8].length ≤ short.cfg.mcap ∧ 1 ≤ short.grid.w.toNat ∧
      1 ≤ short.grid.h.toNat ∧ 8 * ([0x41#8].length + 1) = short.grid.w.toNat * short.grid.h.toNat + 1) :=
  ⟨⟨startable_fit, ⟨by decide, by decide⟩, by decide, by decide, by decide, by decide⟩,
    ⟨startable_short, ⟨by decide, by decide⟩, by decide, by decide, by decide, by decide⟩⟩

/-- DecodeClosedForm: a sentinel in the first byte (T-T2), none (T-T3), and a buffer that is one byte too small (T-D12). -/
theorem witness_DecodeClosedForm :
    (Startable t2 ∧ 1 ≤ t2.grid.w.toNat ∧ 1 ≤ t2.grid.h.toNat ∧ 0 < t2.grid.w.toNat * t2.grid.h.toNat / 8 ∧
      recoveredByte t2.grid 0 = 0x7E#8) ∧
    (Startable t3 ∧ 1 ≤ t3.grid.w.toNat ∧ 1 ≤ t3.grid.h.toNat ∧
      (∀ k < t3.grid.w.toNat * t3.grid.h.toNat / 8, recoveredByte t3.grid k ≠ 0x7E#8) ∧
      t3.grid.w.toNat * t3.grid.h.toNat / 8 ≤ t3.cfg.mcap) ∧
    (Startable full0 ∧ 1 ≤ full0.grid.w.toNat ∧ 1 ≤ full0.grid.h.toNat ∧
      (∀ k < full0.cfg.mcap + 1, recoveredByte full0.grid k ≠ 0x7E#8) ∧
      full0.cfg.mcap + 1 = full0.grid.w.toNat * full0.grid.h.toNat / 8) :=
  ⟨⟨startable_t2, by decide, by decide, by decide, by decide⟩, ⟨startable_t3, by decide, by decide, by decide, by decide⟩,
    ⟨startable_full0, by decide, by decide, by decide, by decide⟩⟩

/-- DecodeClosedForm at the capacity: the sentinel is the byte that would not fit (t = MCAP), and the last byte just fits
(K = MCAP). -/
theorem witness_DecodeClosedForm_at_capacity :
    (Startable tAtCap ∧ 1 < tAtCap.grid.w.toNat * tAtCap.grid.h.toNat / 8 ∧ recoveredByte tAtCap.grid 1 = 0x7E#8 ∧
      (∀ k < 1, recoveredByte tAtCap.grid k ≠ 0x7E#8) ∧ 1 = tAtCap.cfg.mcap) ∧
    (Startable kAtCap ∧ (∀ k < kAtCap.grid.w.toNat * kAtCap.grid.h.toNat / 8, recoveredByte kAtCap.grid k ≠ 0x7E#8) ∧
      kAtCap.grid.w.toNat * kAtCap.grid.h.toNat / 8 = kAtCap.cfg.mcap) :=
  ⟨⟨startable_tAtCap, by decide, by decide, by decide, rfl⟩, startable_kAtCap, by decide, rfl⟩

/-- An answer whose next state is known in part is a next state. -/
theorem next_of_map {α : Type} {f : State → α} {r : StepResult} {a : α} (h : (next? r).map f = some a) :
    ∃ t, r = .next t ∧ f t = a := by
  cases r with
  | next t => exact ⟨t, rfl, Option.some.inj h⟩
  | fault _ => cases h
  | refused _ => cases h

/-- DecodeOfEncodeIsTheMessage with the sentinel in the message (70_reset R205): m = 7E, c = 0. -/
theorem witness_round_trip_truncated : (Startable tilde ∧ HoldsMessage tilde [0x7E#8] ∧
      8 * (1 + 1) = tilde.grid.w.toNat * tilde.grid.h.toNat ∧
      ∃ t, run (8 * (1 + 1) + 1) (tilde.withFetchWord 32 1) = .next t ∧ (t.grid, t.cfg) = (tildeOut.grid, tildeOut.cfg)) ∧
    Startable tildeOut ∧ ([0x7E#8] ++ [0x7E#8])[0]? = some 0x7E#8 :=
  ⟨⟨startable_tilde, ⟨by decide, by decide⟩, by decide, by
      rw [run_add (j := 9) (t := tildeScan) rfl 8]
      exact next_of_map (f := fun t => (t.grid, t.cfg)) (by decide)⟩,
    startable_tildeOut, rfl⟩

/-- DecodeOfEncodeIsTheMessage, EncodingAgainChangesNothing: the empty message in the grid of T-T1, whose ENCODE ends in the
grid of T-T2, an exact fit; and that grid, which already carries the stream bits. -/
theorem witness_round_trip : (Startable t1 ∧ HoldsMessage t1 [] ∧ 1 ≤ t1.grid.w.toNat ∧ 1 ≤ t1.grid.h.toNat ∧
      8 * (0 + 1) = t1.grid.w.toNat * t1.grid.h.toNat ∧
      ∃ t, run (8 * (0 + 1) + 1) (t1.withFetchWord 32 1) = .next t ∧ t2.grid = t.grid ∧ t2.cfg = t.cfg) ∧
    (Startable t2 ∧ HoldsMessage t2 []) ∧ ([] ++ [0x7E#8])[0]? = some 0x7E#8 ∧
    (∀ n < 8 * (0 + 1), blueLsb t2.grid n = (([] ++ [0x7E#8]).getD (n / 8) 0#8).getLsbD (7 - n % 8)) :=
  ⟨⟨startable_t1, ⟨by decide, by decide⟩, by decide, by decide, by decide, _, rfl, by decide, by decide⟩,
    ⟨startable_t2, by decide, by decide⟩, by decide, by decide⟩

/-- EveryMessageComesBackWhole: its hypotheses are met (by the empty message, which does come back whole). -/
theorem witness_EveryMessageComesBackWhole : Startable t1 ∧ HoldsMessage t1 [] ∧
    8 * (0 + 1) = t1.grid.w.toNat * t1.grid.h.toNat ∧ ∃ t u, run 9 (t1.withFetchWord 32 1) = .next t ∧
      run 9 (t.withFetchWord 32 2) = .next u :=
  ⟨startable_t1, ⟨by decide, by decide⟩, by decide, _, _, rfl, rfl⟩

/-- EncodeDependsOnItsOperandsOnly: two READY states that differ in everything but the operands. -/
theorem witness_EncodeDependsOnItsOperandsOnly : Startable fit ∧
    Startable { fit with st := .exhausted, olen := 3, avail := 9, curByte := 1, msgin := [(0, 0x41), (5, 1)] } ∧
    (∀ i < fit.mlen.toNat, cellsFind fit.msgin i = cellsFind ([(0, 0x41#8), (5, 1#8)] : Memory) i) ∧
    ∃ t, run 1 (fit.withFetchWord 32 1) = .next t :=
  ⟨startable_fit, ⟨inv_of_ready (by decide) (by intro h; cases h) (by intro h; cases h), rfl, rfl⟩, by decide, _, rfl⟩

/-- DecodeDependsOnTheLsbsOnly: the grid of T-T3 and one with the same blue LSBs and nothing else alike. -/
theorem witness_DecodeDependsOnTheLsbsOnly : Startable t3 ∧
    Startable { t3 with grid := ⟨3, 3, pixelCells 0 ([1, 0, 1, 0, 1, 0, 1, 0, 1].map fun b => ⟨b, 9⟩)⟩, mlen := 4 } ∧
    lsbs t3.grid = lsbs ⟨3, 3, pixelCells 0 ([1, 0, 1, 0, 1, 0, 1, 0, 1].map fun b => ⟨b, 9⟩)⟩ ∧
    ∃ t, run 1 (t3.withFetchWord 32 2) = .next t :=
  ⟨startable_t3, ⟨inv_of_ready (by decide) (by intro h; cases h) (by intro h; cases h), rfl, rfl⟩, by decide, _, rfl⟩

/-- WaitAlwaysEnds: while an operation runs, and while none does. -/
theorem witness_WaitAlwaysEnds : (StateInv (host [.wait] fit) ∧ (host [.wait] fit).script = .wait :: []) ∧
    (StateInv (host [.wait] t3k8) ∧ (host [.wait] t3k8).script = .wait :: []) ∧ busy (host [.wait] fit) = false ∧
    (EngineTurn fit fit ∧ EngineTurn (host [.engineTurn] faulty) faulty ∧ busy fit = false ∧ busy faulty = false) :=
  ⟨⟨inv_of_ready (by decide) (by intro h; cases h) (by intro h; cases h), rfl⟩,
    ⟨inv_of_ready (by decide) (by intro h; cases h) (fun _ => decScanning_of (by decide)), rfl⟩, rfl,
    .inl ⟨rfl, rfl⟩, .inr (.inl ⟨[], rfl, rfl⟩), rfl, rfl⟩

end Sys2Proof.Tests
end

/-! PROOFS of the family 10_state: the flags of ST (R30) and the fault cause (R21), with the facts about one step that
they need. -/

namespace Sys2Proof.Machine

open Sys2Proof

/-! ## The flags of ST (10_state R30) -/

theorem ready_iff (s : State) : ready s = true ↔
    s.st = .idle ∨ s.st = .encDone ∨ s.st = .capExceeded ∨ s.st = .foundTerminator ∨ s.st = .exhausted := by
  cases h : s.st <;> simp [ready, h]

theorem faulted_iff (s : State) : faulted s = true ↔ s.st = .faulted := by
  cases h : s.st <;> simp [faulted, h]

theorem flags_sum_one (s : State) : (busy s).toNat + (ready s).toNat + (faulted s).toNat = 1 := by
  cases h : s.st <;> simp [busy, ready, faulted, h]

/-- Settles O32: each flag by its equivalence with ST, and the count of the flags that hold. -/
theorem exactlyOneFlagHolds : Obligations.ExactlyOneFlagHolds :=
  fun s => ⟨busy_iff s, ready_iff s, faulted_iff s, flags_sum_one s⟩

theorem st_ne_faulted_of_ready {s : State} (hr : ready s = true) : s.st ≠ .faulted := by
  intro h; simp [ready, h] at hr

theorem st_ne_faulted_of_busy {s : State} (hb : busy s = true) : s.st ≠ .faulted := by
  intro h; simp [busy, h] at hb

/-! ## ST and FCAUSE over updates outside the machine -/

theorem SameMachine.st {s t : State} (h : SameMachine s t) : t.st = s.st := by rw [h]

theorem SameMachine.fcause {s t : State} (h : SameMachine s t) : t.fcause = s.fcause := by rw [h]

/-! ## The invariant over one step (10_state R28) -/

theorem StateInv.step {s t : State} (hi : StateInv s) (h : Machine.step s = .next t) : StateInv t := by
  rcases step_cases h with ⟨u, hu, he⟩ | ⟨rest, -, rfl⟩ | ⟨a, rest, -, rfl⟩ | ⟨a, v, rest, -, hw⟩ |
    ⟨m, rest, k, -, -, hk, hg⟩ | ⟨rest, -, -, rfl⟩
  · exact (inv_of_sameMachine hu hi).engineStep he
  · exact (hi.setScript rest).applyReset
  · exact inv_of_sameMachine (sameMachine_hostRead a _) (hi.setScript rest)
  · exact (hi.setScript rest).hostWrite hw
  · have hv : StateInv (Machine.setScript rest s) := hi.setScript rest
    obtain ⟨hb, hsame | ⟨g, hwf, rfl⟩⟩ := gridMove_cases hv.grid hk hg
    · exact inv_of_sameMachine hsame hv
    · exact hv.setGrid hb hwf
  · exact hi.setScript rest

/-! ## The fault cause over one step (10_state R21) -/

theorem encodeAdvance_fcause (s : State) : (encodeAdvance s).fcause = s.fcause := by
  unfold encodeAdvance
  split <;> rfl

theorem decodeAdvance_fcause (s : State) : (decodeAdvance s).fcause = s.fcause := by
  unfold decodeAdvance
  split <;> rfl

theorem decodeShifted_fcause (cb : Byte) (s : State) :
    (decodeShifted cb s).fcause = s.fcause ∨ (decodeShifted cb s).st = .faulted := by
  unfold decodeShifted
  split
  · split
    · exact .inl rfl
    · split
      · exact .inr rfl
      · exact .inl (decodeAdvance_fcause _)
  · exact .inl (decodeAdvance_fcause _)

/-- The engine writes FCAUSE only where its scan step enters FAULT. -/
theorem engineStep_fcause {s t : State} (h : engineStep s = .next t) :
    t.fcause = s.fcause ∨ (s.st ≠ .faulted ∧ t.st = .faulted) := by
  cases hb : busy s with
  | false => rw [engineStep_idle hb] at h; cases h; exact .inl rfl
  | true =>
    have hs := st_ne_faulted_of_busy hb
    rcases (busy_iff s).1 hb with he | hd
    · rw [engineStep_encBusy he] at h
      rcases encodeScanStep_cases h with rfl | ⟨p, -, -, -, rfl⟩
      · exact .inr ⟨hs, rfl⟩
      · exact .inl (encodeAdvance_fcause _)
    · rw [engineStep_decBusy hd] at h
      rcases decodeScanStep_cases h with rfl | ⟨-, -, rfl⟩
      · exact .inr ⟨hs, rfl⟩
      · exact (decodeShifted_fcause _ s).imp_right (⟨hs, ·⟩)

theorem exec_fcause {i : Instr} {s t : State} (h : exec i s = .next t) :
    t.fcause = s.fcause ∨ (ready s = true ∧ t.st = .faulted) := by
  obtain ⟨-, -, -, -, -, -, -, -, -, -, hf⟩ := exec_frame h
  exact hf

/-- Who writes FCAUSE, in every state: a step that enters FAULT, or reset. -/
theorem step_fcause {s t : State} (h : step s = .next t) :
    t.fcause = s.fcause ∨ (s.st ≠ .faulted ∧ t.st = .faulted) ∨
      (t.fcause = .none ∧ ∃ rest, s.script = .reset :: rest) := by
  rcases step_effect h with ⟨u, hu, he⟩ | ⟨rest, hs, rfl⟩ | hsame | ⟨hr, i, rest, u, hu, -, he⟩ |
    ⟨hr, u, -, rfl⟩ | ⟨-, v, rest, u, hu, -, rfl⟩ | ⟨-, a, v, rest, u, hu, -, -, b, rfl⟩ |
    ⟨-, m, rest, u, g, hu, -, -, rfl⟩
  · have hf := engineStep_fcause he
    rw [hu.sameMachine.fcause, hu.sameMachine.st] at hf
    exact hf.imp_right .inl
  · exact .inr (.inr ⟨rfl, rest, hs⟩)
  · exact .inl hsame.fcause
  · rcases exec_fcause he with hf | ⟨-, hf⟩
    · exact .inl (hf.trans hu.fcause)
    · exact .inr (.inl ⟨st_ne_faulted_of_ready hr, hf⟩)
  · exact .inr (.inl ⟨st_ne_faulted_of_ready hr, rfl⟩)
  · exact .inl hu.fcause
  · exact .inl hu.fcause
  · exact .inl hu.fcause

/-- Settles O37: the invariant at the new state gives the equivalence, and the invariant at the old one says that the
cause a fault entry overwrites is NONE. -/
theorem faultCauseIsWrittenOnce : Obligations.FaultCauseIsWrittenOnce := by
  intro s t hi h
  refine ⟨(hi.step h).fault, fun hne => ?_⟩
  rcases step_fcause h with hf | ⟨hs, ht⟩ | hreset
  · exact absurd hf hne
  · have hn : s.fcause = .none := not_ne_iff.1 (mt hi.fault.2 hs)
    exact .inl ⟨hn, hs, ht⟩
  · exact .inr hreset

end Sys2Proof.Machine

/-! PROOFS of the family 20_memory: the message operands under a running operation (R54), with what a step taken while
BUSY can do. -/

namespace Sys2Proof.Machine

open Sys2Proof

/-! ## MLEN and MSGIN over updates outside the machine -/

theorem SameMachine.mlen {s t : State} (h : SameMachine s t) : t.mlen = s.mlen := by rw [h]

theorem SameMachine.msgin {s t : State} (h : SameMachine s t) : t.msgin = s.msgin := by rw [h]

theorem engineStep_mlen_msgin {s t : State} (h : engineStep s = .next t) : t.mlen = s.mlen ∧ t.msgin = s.msgin := by
  obtain ⟨-, hmsgin, hmlen, -⟩ := engineStep_frame h
  exact ⟨hmlen, hmsgin⟩

/-! ## A step while BUSY (44_host_port R152) -/

theorem writeAllowed_of_busy {s : State} (h : busy s = true) (t : Target) : writeAllowed s t = false := by
  unfold writeAllowed
  split <;> simp [ready_of_busy h]

theorem hostWrite_of_busy {s : State} (hb : busy s = true) (a : HostAddr) (v : Word) :
    hostWrite a v s = .next (reply .err s) :=
  hostWrite_refused fun tg _ => writeAllowed_of_busy hb tg

/-- While BUSY a step is the engine's turn or reset, or it leaves the machine alone. -/
theorem step_of_busy_cases {s t : State} (hb : busy s = true) (h : step s = .next t) :
    (∃ u, EngineTurn s u ∧ engineStep u = .next t) ∨
    (∃ rest, s.script = .reset :: rest ∧ t = applyReset (setScript rest s)) ∨
    SameMachine s t := by
  have hnr : ¬ ready s = true := by simp [ready_of_busy hb]
  rcases step_effect h with heng | hreset | hsame | ⟨hr, -⟩ | ⟨hr, -⟩ | ⟨hr, -⟩ | ⟨hr, -⟩ | ⟨hnb, -⟩
  · exact .inl heng
  · exact .inr (.inl hreset)
  · exact .inr (.inr hsame)
  · exact absurd hr hnr
  · exact absurd hr hnr
  · exact absurd hr hnr
  · exact absurd hr hnr
  · exact absurd (hb.symm.trans hnb) (by decide)

/-- Settles O41: a write while BUSY is refused, and of what else can happen while BUSY only reset writes MLEN, and nothing
writes MSGIN. -/
theorem operandsAreStableWhileBusy : Obligations.OperandsAreStableWhileBusy := by
  intro s t hb h
  refine ⟨fun a v rest hs => ?_, ?_⟩
  · rw [step_write hs, hostWrite_of_busy ((busy_setScript rest s).trans hb)] at h
    cases h
    rfl
  · rcases step_of_busy_cases hb h with ⟨u, hu, he⟩ | ⟨rest, hs, rfl⟩ | hsame
    · obtain ⟨hmlen, hmsgin⟩ := engineStep_mlen_msgin he
      exact ⟨fun _ => hmlen.trans hu.sameMachine.mlen, hmsgin.trans hu.sameMachine.msgin⟩
    · exact ⟨fun hno => absurd hs (hno rest), rfl⟩
    · exact ⟨fun _ => hsame.mlen, hsame.msgin⟩

end Sys2Proof.Machine

/-! PROOFS of the family 30_encoding: the command words (R62, R63), the bus form of a host address (R60), the assembly of a
byte from stream bits (R70) and the status word (R64 to R66). -/

namespace Sys2Proof.Machine

open Sys2Proof

/-! ## Command words (30_encoding R62, R63) -/

theorem decode_eq_instr_iff {w : Word} {i : Instr} : decode w = .instr i ↔ w = encode i :=
  ⟨decode_eq_instr, fun h => h ▸ decode_encode i⟩

theorem decode_eq_illegal_iff {w : Word} :
    decode w = .rejected .illegalCommand ↔ w ≠ 0x00000001#32 ∧ w ≠ 0x00000002#32 := by
  unfold decode
  split
  · next h => simp [h]
  · next h1 =>
    split
    · next h2 => simp [h2]
    · next h2 => exact ⟨fun _ => ⟨h1, h2⟩, fun _ => rfl⟩

/-- An illegal command word is accepted by the port and faults (60_exceptions R175). -/
theorem step_cmd_illegal {s : State} {w : Word} {rest : List HostMove} (hs : s.script = cmdMove w :: rest)
    (hr : ready s = true) (hd : decode w = .rejected .illegalCommand) :
    step s = .next (raiseFault .illegalCmd (reply .ok (setScript rest s))) := by
  rw [step_cmd hs, if_pos hr, startCommand_illegal hd]

/-- Settles O1: the two equivalences for the decoder, and the illegal CMD write by the decoder's answer. -/
theorem everyCommandWordIsEncodeDecodeOrIllegal : Obligations.EveryCommandWordIsEncodeDecodeOrIllegal :=
  ⟨fun _ _ => decode_eq_instr_iff, rfl, rfl, fun _ => decode_eq_illegal_iff,
    fun _ _ _ hs hr h1 h2 => step_cmd_illegal hs hr (decode_eq_illegal_iff.2 ⟨h1, h2⟩)⟩

/-! ## The flat bus form of a host address (30_encoding R60) -/

theorem addrToBus_toNat (a : HostAddr) : (addrToBus a).toNat = a.space.toNat * 2 ^ 32 + a.index.toNat := by
  rw [addrToBus, BitVec.toNat_append, ← Nat.shiftLeft_add_eq_or_of_lt a.index.isLt, Nat.shiftLeft_eq]

theorem addrOfBus_addrToBus (a : HostAddr) : addrOfBus (addrToBus a) = a := by
  have hspace : (addrToBus a).extractLsb' 32 2 = a.space := BitVec.extractLsb'_append_eq_left
  have hindex : (addrToBus a).extractLsb' 0 32 = a.index := BitVec.extractLsb'_append_eq_right
  simp only [addrOfBus, hspace, hindex]

theorem addrToBus_addrOfBus (b : BitVec 34) : addrToBus (addrOfBus b) = b :=
  calc b.extractLsb' 32 2 ++ b.extractLsb' 0 32
    _ = b.extractLsb' 0 34 := BitVec.extractLsb'_append_extractLsb'_eq_extractLsb' rfl
    _ = b := BitVec.extractLsb'_eq_self

theorem regAddr_index_toNat (r : RegName) : (regAddr r).index.toNat = regIndex r := by
  cases r <;> rfl

/-- Settles O3: the bus value and the two round trips, then what an address that resolves to a register or cell says
of its space and index, and that space 3 is unmapped. -/
theorem hostAddressBusForm : Obligations.HostAddressBusForm := by
  refine ⟨fun a => ⟨addrToBus_toNat a, addrOfBus_addrToBus a⟩, addrToBus_addrOfBus, fun c a => ⟨?_, ?_, ?_, ?_⟩⟩
  · intro r h
    rw [eq_regAddr_of_resolve h]
    exact ⟨rfl, regAddr_index_toNat r⟩
  · intro i h
    obtain ⟨hspace, hindex⟩ := msgin_of_resolve h
    exact ⟨hspace, hindex.symm⟩
  · intro i h
    obtain ⟨hspace, hindex⟩ := msgout_of_resolve h
    exact ⟨hspace, hindex.symm⟩
  · intro h
    exact resolve_eq_none.2 (.inl h)

/-! ## Assembling a byte (30_encoding R70, 41_bitstream R95) -/

theorem shiftIn_eq_append (cur : Byte) (b : Bool) : shiftIn cur b = cur.extractLsb' 0 7 ++ BitVec.ofBool b := by
  revert cur b; decide

/-- Settles O22: one shift as an append and as arithmetic, eight of them by `shiftMany_eight`, and the value of the
assembled byte. -/
theorem eightShiftsAssembleAByte : Obligations.EightShiftsAssembleAByte :=
  ⟨fun cur b => ⟨shiftIn_eq_append cur b, shiftIn_toNat cur b⟩,
    fun g k cur => ⟨shiftMany_eight (fun j => blueLsb g (8 * k + j)) cur, byteOfBits_toNat _⟩⟩

/-! ## The status word (30_encoding R64 to R66) -/

theorem statusWord_st (s : State) : (statusWord s).extractLsb' 0 3 = seqCode s.st :=
  BitVec.extractLsb'_append_eq_right

/-- Above the three bits of ST stand the fields of the 29-bit word over them. -/
theorem statusWord_above_st (s : State) (start len : Nat) :
    (statusWord s).extractLsb' (start + 3) len = (0#24 ++ causeCode s.fcause ++ 0#1).extractLsb' start len :=
  BitVec.extractLsb'_append_eq_of_le (Nat.le_add_left 3 start)

theorem statusWord_bit3 (s : State) : (statusWord s).extractLsb' 3 1 = 0#1 :=
  (statusWord_above_st s 0 1).trans BitVec.extractLsb'_append_eq_right

/-- Above bit 3 stand FCAUSE and the 24 zeros. -/
theorem statusWord_above_bit3 (s : State) (start len : Nat) :
    (statusWord s).extractLsb' (start + 4) len = (0#24 ++ causeCode s.fcause).extractLsb' start len :=
  (statusWord_above_st s (start + 1) len).trans (BitVec.extractLsb'_append_eq_of_le (Nat.le_add_left 1 start))

theorem statusWord_fcause (s : State) : (statusWord s).extractLsb' 4 4 = causeCode s.fcause :=
  (statusWord_above_bit3 s 0 4).trans BitVec.extractLsb'_append_eq_right

theorem statusWord_high (s : State) : (statusWord s).extractLsb' 8 24 = 0#24 :=
  (statusWord_above_bit3 s 4 24).trans BitVec.extractLsb'_append_eq_left

theorem causeCode_le_five (c : FaultCause) : (causeCode c).toNat ≤ 5 := by
  cases c <;> decide

/-- Settles O31: the four fields of the word, the two code tables, and the bound on the cause codes. -/
theorem statusWordFields : Obligations.StatusWordFields :=
  ⟨fun s => ⟨statusWord_st s, statusWord_bit3 s, statusWord_fcause s, statusWord_high s⟩, rfl, rfl, causeCode_le_five⟩

end Sys2Proof.Machine

/-! PROOFS of the family 40_pixelgrid_accessor: what the accessor reads, what a SetBlue leaves, and where both are
undefined (R82 to R86). -/

namespace Sys2Proof.Machine

open Sys2Proof

theorem getBlue_of_outOfBounds {g : Grid} {x y : Nat} (h : ¬ (x < g.w.toNat ∧ y < g.h.toNat)) :
    getBlue g x y = none :=
  if_neg (mt (inBounds_iff g x y).1 h)

theorem setBlue_of_outOfBounds {g : Grid} {x y : Nat} (b : Byte) (h : ¬ (x < g.w.toNat ∧ y < g.h.toNat)) :
    setBlue g x y b = none :=
  if_neg (mt (inBounds_iff g x y).1 h)

section SetBlue

variable {g g' : Grid} {x y : Nat} {b : Byte}

theorem dims_of_setBlue (h : setBlue g x y b = some g') : g'.w = g.w ∧ g'.h = g.h := by
  obtain ⟨-, -, rfl⟩ := setBlue_eq_some h
  exact ⟨rfl, rfl⟩

theorem pixelAt_of_setBlue_same (h : setBlue g x y b = some g') :
    pixelAt g' x y = { pixelAt g x y with blue := b } := by
  obtain ⟨hx, -, rfl⟩ := setBlue_eq_some h
  rw [pixelAt_putPixel _ hx hx, if_pos ⟨rfl, rfl⟩]

/-- R86; it is enough that the other pixel's column is in bounds: row-major indices of in-bounds columns name one pixel
each. -/
theorem pixelAt_of_setBlue_ne {x' y' : Nat} (h : setBlue g x y b = some g') (hx' : x' < g.w.toNat)
    (hne : (x', y') ≠ (x, y)) : pixelAt g' x' y' = pixelAt g x' y' := by
  obtain ⟨hx, -, rfl⟩ := setBlue_eq_some h
  rw [pixelAt_putPixel _ hx hx', if_neg (mt Prod.mk_inj.2 hne)]

/-- R85: the pixel written is in bounds of the new grid too, so it reads the byte written. -/
theorem getBlue_of_setBlue (h : setBlue g x y b = some g') : getBlue g' x y = some b := by
  obtain ⟨hx, hy, -⟩ := setBlue_eq_some h
  obtain ⟨hw, hh⟩ := dims_of_setBlue h
  rw [getBlue_of_inBounds (hw ▸ hx) (hh ▸ hy), pixelAt_of_setBlue_same h]

end SetBlue

/-- Settles O18: in bounds and outside GetBlue and SetBlue answer by their own lemmas; what an in-bounds SetBlue leaves is
read off its pixel, the other pixels and the dimensions. -/
theorem accessorReadsWhatItWrote : Obligations.AccessorReadsWhatItWrote := by
  refine ⟨fun g x y => ⟨fun ⟨hx, hy⟩ => getBlue_of_inBounds hx hy, fun hout =>
    ⟨getBlue_of_outOfBounds hout, fun b => setBlue_of_outOfBounds b hout⟩⟩, fun g x y b hx hy => ?_⟩
  have h := setBlue_of_inBounds b hx hy
  obtain ⟨hw, hh⟩ := dims_of_setBlue h
  exact ⟨_, h, hw, hh, getBlue_of_setBlue h, by rw [pixelAt_of_setBlue_same h],
    fun x' y' hx' _ hne => pixelAt_of_setBlue_ne h hx' hne⟩

end Sys2Proof.Machine

/-! PROOFS of the family 41_bitstream: the bit primitives (R93, R94), the payload (R90 to R92), the positions (R96
to R98), the capacity check (R99, R100), Pack and Unpack (R102) and what ENCODE does to the blue LSBs (R103). -/

namespace Sys2Proof.Machine

open Sys2Proof

/-! ## EmbedBit (41_bitstream R93, R94) -/

theorem embedBit_eq_append (blue : Byte) (b : Bool) :
    embedBit blue b = blue.extractLsb' 1 7 ++ BitVec.ofBool b := by
  revert blue b; decide

theorem embedBit_toNat (blue : Byte) (b : Bool) : (embedBit blue b).toNat = 2 * (blue.toNat / 2) + b.toNat := by
  revert blue b; decide

/-- EmbedBit moves a blue intensity by at most 1 (R93). -/
theorem embedBit_close (blue : Byte) (b : Bool) :
    (embedBit blue b).toNat ≤ blue.toNat + 1 ∧ blue.toNat ≤ (embedBit blue b).toNat + 1 := by
  have hb := Bool.toNat_lt b
  rw [embedBit_toNat]
  omega

/-- Settles O20: the two forms of EmbedBit, its distance from the old byte, and the laws of EmbedBit and ExtractBit. -/
theorem embedThenExtractBit : Obligations.EmbedThenExtractBit :=
  fun blue a b => ⟨rfl, embedBit_eq_append blue b, (embedBit_close blue b).1, (embedBit_close blue b).2,
    embedBit_embedBit blue a b, extractBit_eq_getLsbD blue, extractBit_embedBit blue b,
    embedBit_extractBit blue _ rfl⟩

/-! ## The payload (41_bitstream R90 to R92) -/

theorem messageBit_eq_getLsbD (m : List Byte) (n : Nat) :
    messageBit m n = ((m ++ [0x7E#8]).getD (n / 8) 0#8).getLsbD (7 - n % 8) :=
  payloadBit_eq_getLsbD _ _

theorem payload_message {s : State} {m : List Byte} (h : HoldsMessage s m) {i : Nat} (hi : i < m.length) :
    payload s i = m[i]? := by
  rw [payload_of_holdsMessage h hi.le, List.getD_append _ _ _ _ hi, List.getD_eq_getElem _ _ hi,
    List.getElem?_eq_getElem hi]

theorem payload_sentinel {s : State} {m : List Byte} (h : HoldsMessage s m) : payload s m.length = some sentinel := by
  rw [payload_of_holdsMessage h le_rfl, List.getD_append_right _ _ _ _ le_rfl, Nat.sub_self]
  rfl

/-- Settles O21: the payload below and at the length of the message, and each stream bit as a bit of its byte. -/
theorem payloadIsMessageThenSentinel : Obligations.PayloadIsMessageThenSentinel :=
  ⟨fun _ m h => ⟨fun _ hi => payload_message h hi, payload_sentinel h,
      fun n hn => (streamBit_of_holdsMessage h hn).trans (congrArg some (messageBit_eq_getLsbD m n))⟩,
    fun p j _ => ⟨payloadBit_eq_getLsbD p j, rfl⟩⟩

/-! ## Positions (41_bitstream R96 to R98) -/

theorem scanNext_iterate {w : Nat} (hw : 1 ≤ w) (n : Nat) :
    (fun q : Nat × Nat => scanNext w q.1 q.2)^[n] (0, 0) = (n % w, n / w) := by
  induction n with
  | zero => simp
  | succ n ih => rw [Function.iterate_succ_apply', ih]; exact scanNext_mod_div hw n

/-- ScanNext from a pixel that is not the last stays in the grid (R96). -/
theorem scanNext_inBounds {w h x y : Nat} (hx : x < w) (hy : y < h) (hl : ¬ (x = w - 1 ∧ y = h - 1)) :
    (scanNext w x y).1 < w ∧ (scanNext w x y).2 < h := by
  unfold scanNext
  split
  · exact ⟨by omega, by omega⟩
  · exact ⟨by omega, hy⟩

/-- One BitNext is one more payload bit (R98); past the last byte index both sides wrap. -/
theorem bitNext_mod_div (n : Nat) : bitNext (BitVec.ofNat 32 (n / 8)) (BitVec.ofNat 3 (n % 8)) =
    (BitVec.ofNat 32 ((n + 1) / 8), BitVec.ofNat 3 ((n + 1) % 8)) := by
  have h7 : BitVec.ofNat 3 (n % 8) = 7#3 ↔ n % 8 = 7 := by
    rw [bitIdx_seven_iff, BitVec.toNat_ofNat, Nat.mod_mod]
  unfold bitNext
  split
  · next h =>
    have hn := h7.1 h
    rw [show (n + 1) / 8 = n / 8 + 1 by omega, show (n + 1) % 8 = 0 by omega, BitVec.ofNat_add]
  · next h =>
    have hn := mt h7.2 h
    rw [show (n + 1) / 8 = n / 8 by omega, show (n + 1) % 8 = n % 8 + 1 by omega, BitVec.ofNat_add]

theorem bitNext_iterate (n : Nat) : (fun q : Word × BitIndex => bitNext q.1 q.2)^[n] (0, 0) =
    (BitVec.ofNat 32 (n / 8), BitVec.ofNat 3 (n % 8)) := by
  induction n with
  | zero => rfl
  | succ n ih => rw [Function.iterate_succ_apply', ih]; exact bitNext_mod_div n

/-- Settles O23: both advances count, by induction on their number, and ScanNext keeps within the grid. -/
theorem positionsCountInOrder : Obligations.PositionsCountInOrder := by
  refine ⟨fun w hw n => scanNext_iterate hw n, fun w h x y hx hy hl => ?_, fun n _ => bitNext_iterate n⟩
  obtain ⟨hx', hy'⟩ := scanNext_inBounds hx hy hl
  exact ⟨hx', hy', rfl⟩

theorem isLast_iff_coords {w h x y : Nat} (hx : x < w) (hy : y < h) :
    isLast w h x y = true ↔ x = w - 1 ∧ y = h - 1 := by
  simp only [isLast, Bool.and_eq_true, decide_eq_true_eq]
  omega

theorem isLast_iff_linearIndex {w h x y : Nat} (hx : x < w) (hy : y < h) :
    isLast w h x y = true ↔ linearIndex w x y = w * h - 1 := by
  have hlt := linearIndex_lt hx hy
  rw [isLast_iff hx hy]
  omega

/-- The column comes back from the linear index (20_memory R41). -/
theorem linearIndex_mod {w x : Nat} (y : Nat) (hx : x < w) : linearIndex w x y % w = x := by
  rw [linearIndex, Nat.mul_add_mod', Nat.mod_eq_of_lt hx]

/-- The row comes back from the linear index (20_memory R41). -/
theorem linearIndex_div {w x : Nat} (y : Nat) (hx : x < w) : linearIndex w x y / w = y := by
  rw [linearIndex, Nat.mul_comm, Nat.mul_add_div (by omega), Nat.div_eq_of_lt hx, Nat.add_zero]

/-- Settles O24: IsLast by coordinates and by linear index, and the coordinates back from the index. -/
theorem lastPixelHasTheLastIndex : Obligations.LastPixelHasTheLastIndex :=
  fun _ _ _ y hx hy => ⟨isLast_iff_coords hx hy, isLast_iff_linearIndex hx hy, linearIndex_mod y hx,
    linearIndex_div y hx⟩

/-! ## The capacity check (41_bitstream R99 to R101) -/

/-- Settles O25: the quantities by definition, the check in bits and in bytes, and the exact registers. -/
theorem capacityCheckIsExact : Obligations.CapacityCheckIsExact :=
  ⟨fun w h l => ⟨rfl, rfl, rfl, decide_eq_true_iff, capacityExceeded_iff w h l⟩,
    fun s hc hm => ⟨dims_product_lt s.wreg s.hreg, storeCapacity_exact hc hm⟩⟩

/-! ## Pack and Unpack (41_bitstream R102) -/

/-- Byte k of what Unpack reads from a packed payload, whatever follows, is payload byte k. -/
theorem unpack_pack_append_getElem? (p : List Byte) (t : List Bool) {k : Nat} (hk : k < p.length) :
    (unpack (pack p ++ t))[k]? = p[k]? := by
  have hlen : k < (pack p ++ t).length / 8 := by rw [List.length_append, pack_length]; omega
  have hbits : ∀ j < 8, (pack p ++ t).getD (8 * k + j) false = payloadBit p[k] j := by
    intro j hj
    have hn : 8 * k + j < 8 * p.length := by omega
    rw [List.getD_eq_getElem?_getD, List.getElem?_append_left (by rwa [pack_length]), pack_getElem? p hn,
      show (8 * k + j) / 8 = k by omega, show (8 * k + j) % 8 = j by omega, List.getD_eq_getElem _ _ hk]
    rfl
  rw [unpack_getElem? _ hlen, byteOfBits_congr hbits, byteOfBits_payloadBit, List.getElem?_eq_getElem hk]

theorem unpack_pack_append (p : List Byte) (t : List Bool) : (unpack (pack p ++ t)).take p.length = p := by
  refine List.ext_getElem? fun k => ?_
  rcases Nat.lt_or_ge k p.length with hk | hk
  · rw [List.getElem?_take_of_lt hk, unpack_pack_append_getElem? p t hk]
  · rw [List.getElem?_take_eq_none hk, List.getElem?_eq_none hk]

theorem unpack_pack (p : List Byte) : unpack (pack p) = p := by
  have hlen : (unpack (pack p)).length = p.length := by rw [unpack_length, pack_length]; omega
  have h := unpack_pack_append p []
  rwa [List.append_nil, ← hlen, List.take_length] at h

/-- Byte k of Unpack as a number: first bit most significant. -/
theorem unpack_getD_toNat (b : List Bool) {k : Nat} (hk : k < b.length / 8) : ((unpack b).getD k 0#8).toNat =
    ((List.range 8).map fun j => (b.getD (8 * k + j) false).toNat * 2 ^ (7 - j)).sum := by
  rw [List.getD_eq_getElem?_getD, unpack_getElem? b hk, Option.getD_some, byteOfBits_toNat]

/-- Settles O26: the elements and lengths of both sequences, and the two round trips. -/
theorem unpackUndoesPack : Obligations.UnpackUndoesPack :=
  ⟨fun p => ⟨pack_length p, unpack_pack p, fun _ hn => pack_getElem? p hn⟩,
    fun b => ⟨unpack_length b, fun _ hk => unpack_getD_toNat b hk⟩, unpack_pack_append⟩

/-! ## The blue LSBs (41_bitstream R103) -/

/-- A grid whose first blue LSBs read `b`, and whose others are those of a grid of the same size. -/
theorem lsbs_overwritten {g g' : Grid} {b : List Bool} (hw : g'.w = g.w) (hh : g'.h = g.h)
    (hfit : b.length ≤ g.w.toNat * g.h.toNat) (hnew : ∀ n < b.length, b[n]? = some (blueLsb g' n))
    (hold : ∀ n, b.length ≤ n → blueLsb g' n = blueLsb g n) : lsbs g' = b ++ (lsbs g).drop b.length := by
  have hsize : g'.w.toNat * g'.h.toNat = g.w.toNat * g.h.toNat := by rw [hw, hh]
  refine List.ext_getElem? fun n => ?_
  rcases Nat.lt_or_ge n b.length with hn | hn
  · rw [List.getElem?_append_left hn, hnew n hn, lsbs_getElem? g' (by omega)]
  · rw [List.getElem?_append_right hn, List.getElem?_drop, Nat.add_sub_cancel' hn]
    rcases Nat.lt_or_ge n (g.w.toNat * g.h.toNat) with hin | hout
    · rw [lsbs_getElem? g' (hsize ▸ hin), lsbs_getElem? g hin, hold n hn]
    · rw [List.getElem?_eq_none (by rwa [lsbs_length, hsize]), List.getElem?_eq_none (by rwa [lsbs_length])]

/-- A whole ENCODE that fits, from its command word to ENC_DONE: what it leaves of pixel memory (42_encode R116). -/
theorem run_encode_done {s : State} {m : List Byte} (hs : Startable s) (hm : HoldsMessage s m)
    (hcap : m.length ≤ s.cfg.mcap) (hw : 1 ≤ s.grid.w.toNat) (hh : 1 ≤ s.grid.h.toNat)
    (hfit : 8 * (m.length + 1) ≤ s.grid.w.toNat * s.grid.h.toNat) :
    ∃ t, run (8 * (m.length + 1) + 1) (s.withFetchWord 32 1) = .next t ∧ t.st = .encDone ∧
      t.grid.w = s.grid.w ∧ t.grid.h = s.grid.h ∧
      ∀ n, pixelN t.grid n =
        if n < 8 * (m.length + 1) then
          { pixelN s.grid n with blue := embedBit (pixelN s.grid n).blue (messageBit m n) }
        else pixelN s.grid n := by
  obtain ⟨u, hex, hrun, hmlen, -, -⟩ := encRun_start (s := reply .ok s) (hs.inv.reply .ok)
    ((ready_reply .ok s).trans hs.isReady) hs.quiet hm hcap hw hh hfit
  obtain ⟨t, ht, hst, -, -, htw, hth, -, hpix⟩ := hrun.finish
  have hlen : u.mlen.toNat = m.length := by rw [hmlen]; exact hm.1
  rw [hlen] at ht hpix
  have hstart : step (s.withFetchWord 32 1) = .next u := (step_fetch_encode hs.isReady).trans hex
  exact ⟨t, (run_succ hstart _).trans ht, hst, htw, hth, hpix⟩

theorem pack_payload_getElem? {m : List Byte} {n : Nat} (hn : n < 8 * (m.length + 1)) :
    (pack (m ++ [0x7E#8]))[n]? = some (messageBit m n) :=
  pack_getElem? _ (by simpa using hn)

theorem lsbs_getElem?_coords (g : Grid) {n : Nat} (hn : n < g.w.toNat * g.h.toNat) :
    (lsbs g)[n]? = some ((pixelAt g (n % g.w.toNat) (n / g.w.toNat)).blue.getLsbD 0) := by
  rw [lsbs_getElem? g hn, blueLsb_eq, extractBit_eq_getLsbD, pixelAt_eq_pixelN, linearIndex_mod_div]

/-- The decoder's input: Unpack of the blue LSBs (R103). -/
theorem unpack_lsbs_getElem? (g : Grid) {k : Nat} (hk : k < g.w.toNat * g.h.toNat / 8) :
    (unpack (lsbs g))[k]? = some (recoveredByte g k) := by
  rw [unpack_getElem? _ (by rwa [lsbs_length]), recoveredByte]
  refine congrArg some (byteOfBits_congr fun j hj => ?_)
  rw [List.getD_eq_getElem?_getD, lsbs_getElem? g (by omega), Option.getD_some]

/-- Settles O53: the pixels a whole ENCODE leaves give the overwritten LSBs; the elements of Lsbs and of its Unpack. -/
theorem encodePacksTheLsbs : Obligations.EncodePacksTheLsbs := by
  refine ⟨fun s m hs hm hcap hw hh hfit => ?_, fun g => ⟨lsbs_length g, fun _ hn => lsbs_getElem?_coords g hn,
    fun _ hk => unpack_lsbs_getElem? g hk⟩⟩
  obtain ⟨t, ht, hst, htw, hth, hpix⟩ := run_encode_done hs hm hcap hw hh hfit
  have hlen : (pack (m ++ [0x7E#8])).length = 8 * (m.length + 1) := by simp [pack_length]
  refine ⟨t, ht, hst, ?_⟩
  rw [← hlen]
  refine lsbs_overwritten htw hth (hlen ▸ hfit) (fun n hn => ?_) (fun n hn => ?_)
  · rw [hlen] at hn
    rw [pack_payload_getElem? hn, blueLsb_eq, hpix, if_pos hn, extractBit_embedBit]
  · rw [hlen] at hn
    rw [blueLsb_eq, blueLsb_eq, hpix, if_neg (by omega)]

end Sys2Proof.Machine

/-! PROOFS of the family 42_encode: the START step of ENCODE (R111, R114, R177, R191), its scan step (R112), its outcomes
(R113), whole operations (R116, R119), idempotence (R118) and determinism (R117). -/

namespace Sys2Proof.Machine

open Sys2Proof

/-! ## The START step (42_encode R111) -/

theorem toNat_eq_zero_iff (d : Dim) : d.toNat = 0 ↔ d = 0#16 :=
  BitVec.toNat_inj (y := 0#16)

section ExecEncode

variable {s : State} (hr : ready s = true)
include hr

theorem execEncode_badDim (h0 : s.grid.w = 0#16 ∨ s.grid.h = 0#16) :
    execEncode s = .next (raiseFault .badDim (sampleDims s)) :=
  (if_pos hr).trans (if_pos h0)

variable (hw : s.grid.w ≠ 0#16) (hh : s.grid.h ≠ 0#16)
include hw hh

theorem execEncode_badMlen (hm : s.cfg.mcap < s.mlen.toNat) :
    execEncode s = .next (raiseFault .badMlen (sampleDims s)) :=
  (if_pos hr).trans ((if_neg (not_or.2 ⟨hw, hh⟩)).trans (if_pos hm))

/-- The launch R191 refuses: all checks passed, and a message cell never written. -/
theorem execEncode_refused (hm : s.mlen.toNat ≤ s.cfg.mcap)
    (hf : 8 * (s.mlen.toNat + 1) ≤ s.grid.w.toNat * s.grid.h.toNat)
    (hun : ∃ i < s.mlen.toNat, cellsFind s.msgin i = none) : execEncode s = .refused .unwrittenMessage := by
  have hfits : ¬ capacityExceeded s.grid.w.toNat s.grid.h.toNat s.mlen.toNat = true :=
    mt decide_eq_true_iff.1 (Nat.not_lt.2 hf)
  have hwritten : ¬ messageWritten s = true := by
    obtain ⟨i, hi, hnone⟩ := hun
    intro h
    have hsome := (messageWritten_iff s).1 h i hi
    simp [hnone] at hsome
  exact (if_pos hr).trans ((if_neg (not_or.2 ⟨hw, hh⟩)).trans
    ((if_neg (Nat.not_lt.2 hm)).trans ((if_neg hfits).trans (if_neg hwritten))))

end ExecEncode

theorem fitDim_zero (b : Nat) : fitDim b 0 = 0 := by
  simp [fitDim]

theorem beginEncode_eq (s : State) :
    beginEncode s = { s with x := 0, y := 0, byteIdx := 0, bitIdx := 0, st := .encBusy } := by
  simp only [beginEncode, setXY, fitDim_zero]
  rfl

/-- Settles O7: each clause is the lemma of its branch, the successor written out. -/
theorem encodeStartStep : Obligations.EncodeStartStep := by
  intro s hr
  simp only [ne_eq, toNat_eq_zero_iff]
  refine ⟨execEncode_badDim hr, execEncode_badMlen hr, execEncode_exceeds hr, fun hw hh hm hf hwr => ?_,
    execEncode_refused hr⟩
  have hbegin := execEncode_begins hr hw hh hm hf fun i hi => Option.isSome_iff_exists.2 (hwr i hi)
  rw [beginEncode_eq] at hbegin
  exact hbegin

/-- Settles O10: of the branches of START only the capacity check ends in CAP_EXCEEDED, and it writes REQ, AVAIL and ST
alone. -/
theorem capacityFailureChangesNoPixel : Obligations.CapacityFailureChangesNoPixel := by
  intro s t hi hr h hst
  rcases execEncode_cases h with ⟨hnr, -⟩ | ⟨-, ⟨rfl, -⟩ | ⟨rfl, -⟩ | ⟨rfl, -, -, hm, hc⟩ | ⟨rfl, -⟩⟩
  · exact absurd (hr.symm.trans hnr) (by decide)
  · cases hst
  · cases hst
  · obtain ⟨hreq, havail⟩ := storeCapacity_exact (s := sampleDims s) hi.cfg hm
    have hgt := (capacityExceeded_iff ..).1 hc
    refine ⟨rfl, hreq, havail, ?_, rfl, rfl, rfl, rfl, rfl, hi.fcause_of_ready hr⟩
    rw [setSt_avail, setSt_req, havail, hreq]
    exact hgt
  · cases hst

/-! ## The scan step (42_encode R112) -/

/-- All that a scan step which writes the grid `g` may change. -/
theorem encodeAdvance_setGrid_frame (g : Grid) (s : State) : encodeAdvance (setGrid g s) =
    { s with grid := (encodeAdvance (setGrid g s)).grid, x := (encodeAdvance (setGrid g s)).x,
             y := (encodeAdvance (setGrid g s)).y, byteIdx := (encodeAdvance (setGrid g s)).byteIdx,
             bitIdx := (encodeAdvance (setGrid g s)).bitIdx, st := (encodeAdvance (setGrid g s)).st } := by
  unfold encodeAdvance
  split <;> rfl

theorem encodeAdvance_grid (s : State) : (encodeAdvance s).grid = s.grid := by
  unfold encodeAdvance
  split <;> rfl

theorem encodeAdvance_bitPos (s : State) : (encodeAdvance s).byteIdx = (bitNext s.byteIdx s.bitIdx).1 ∧
    (encodeAdvance s).bitIdx = (bitNext s.byteIdx s.bitIdx).2 := by
  unfold encodeAdvance
  split <;> exact ⟨rfl, rfl⟩

theorem bitNext_toNat {bi : Word} (bj : BitIndex) (h : bi.toNat + 1 < 2 ^ 32) :
    ((bitNext bi bj).1.toNat, (bitNext bi bj).2.toNat) =
      if bj.toNat = 7 then (bi.toNat + 1, 0) else (bi.toNat, bj.toNat + 1) := by
  by_cases h7 : bj = 7#3
  · rw [bitNext, if_pos h7, if_pos ((bitIdx_seven_iff bj).1 h7)]
    exact Prod.ext (BitVec.toNat_add_of_lt h) rfl
  · rw [bitNext, if_neg h7, if_neg (mt (bitIdx_seven_iff bj).2 h7), bitIdx_succ h7]

/-- The running ENCODE's step, as one step of the machine in the engine's turn. -/
theorem EngineTurn.step_encBusy {s v : State} (h : EngineTurn s v) (hb : v.st = .encBusy) (he : EncScanning v) {p : Byte}
    (hp : payload v v.byteIdx.toNat = some p) :
    Machine.step s = .next (encodeAdvance (setGrid (embeddedGrid v p) v)) := by
  rw [h.step, engineStep_encBusy hb, encodeScanStep_scanning he hp]

namespace EncScanning

variable {s : State} (h : EncScanning s)
include h

/-- BYTEIDX names a message cell or the sentinel: the payload byte there is settled by those two. -/
theorem payload_eq {p : Byte} (hcell : s.byteIdx.toNat < s.mlen.toNat → cellsFind s.msgin s.byteIdx.toNat = some p)
    (hsent : s.byteIdx.toNat = s.mlen.toNat → p = sentinel) : Machine.payload s s.byteIdx.toNat = some p := by
  have hle : s.byteIdx.toNat ≤ s.mlen.toNat := by have := h.byteIdx_lt; have := h.req_eq; omega
  rcases Nat.lt_or_eq_of_le hle with hlt | heq
  · exact (if_pos hlt).trans (hcell hlt)
  · rw [hsent heq]
    exact (if_neg heq.not_lt).trans (if_pos heq)

theorem pixelAt_embedded (p : Byte) {a : Nat} (b : Nat) (ha : a < s.grid.w.toNat) :
    pixelAt (embeddedGrid s p) a b =
      if a = s.x.toNat ∧ b = s.y.toNat then
        ⟨embedBit (pixelAt s.grid s.x.toNat s.y.toNat).blue (payloadBit p s.bitIdx.toNat),
          (pixelAt s.grid s.x.toNat s.y.toNat).other⟩
      else pixelAt s.grid a b :=
  pixelAt_putPixel _ h.inBounds.1 ha

/-- A step that does not complete the last payload byte leaves a pixel to visit. -/
theorem visited_succ_lt (hd : (bitNext s.byteIdx s.bitIdx).1 ≠ s.req) :
    encVisited s + 1 < s.wreg.toNat * s.hreg.toNat := by
  have hne := mt h.done_iff.2 hd
  have hbyte := h.byteIdx_lt
  have hbit := s.bitIdx.isLt
  have hfits := h.fits
  unfold encVisited at hne ⊢
  omega

/-- X and Y keep XW and YW bits, and the next pixel's coordinates fit them. -/
theorem fitDim_scanNext (hi : StateInv s) (hd : (bitNext s.byteIdx s.bitIdx).1 ≠ s.req) :
    ((fitDim s.cfg.xw (scanNext s.wreg.toNat s.x.toNat s.y.toNat).1).toNat,
      (fitDim s.cfg.yw (scanNext s.wreg.toNat s.x.toNat s.y.toNat).2).toNat) =
      scanNext s.wreg.toNat s.x.toNat s.y.toNat := by
  obtain ⟨hx, hy⟩ := h.next_xy hi (h.visited_succ_lt hd)
  rw [hx, hy, h.x_eq, h.y_eq, scanNext_mod_div h.wreg_pos]

end EncScanning

/-- Settles O12: the successor is the embedded grid under `encodeAdvance`; its pixels, its bit position and its two ends
each by their own lemma. -/
theorem encodeScanStepEmbedsOneBit : Obligations.EncodeScanStepEmbedsOneBit := by
  intro s v p hturn hi hst hcell hsent
  have h := hi.enc hst
  obtain ⟨hx, hy⟩ := h.inBounds
  have hbyte : v.byteIdx.toNat + 1 < 2 ^ 32 := by have := h.byteIdx_lt; have := v.req.isLt; omega
  have hgrid : (encodeAdvance (setGrid (embeddedGrid v p) v)).grid = embeddedGrid v p := encodeAdvance_grid _
  obtain ⟨hbi, hbj⟩ := encodeAdvance_bitPos (setGrid (embeddedGrid v p) v)
  refine ⟨_, _, getBlue_of_inBounds hx hy, hturn.step_encBusy hst h (h.payload_eq hcell hsent),
    encodeAdvance_setGrid_frame _ v, by rw [hgrid]; rfl, by rw [hgrid]; rfl, ?_, fun a b ha _ hne => ?_, ?_,
    fun hd => ?_, fun hd => ?_⟩
  · rw [hgrid, h.pixelAt_embedded p _ hx, if_pos ⟨rfl, rfl⟩, embedBit, payloadBit, bitByte_extractBit]
    rfl
  · rw [hgrid, h.pixelAt_embedded p _ ha, if_neg (mt Prod.mk_inj.2 hne)]
  · rw [hbi, hbj]
    exact bitNext_toNat v.bitIdx hbyte
  · rw [encodeAdvance_done (s := setGrid (embeddedGrid v p) v) (BitVec.eq_of_toNat_eq (hbi ▸ hd))]
    exact ⟨rfl, rfl, rfl⟩
  · have hd' : (bitNext v.byteIdx v.bitIdx).1 ≠ v.req := fun e => hd (congrArg BitVec.toNat (hbi.trans e))
    rw [encodeAdvance_more (s := setGrid (embeddedGrid v p) v) hd']
    exact ⟨hst, h.fitDim_scanNext hi hd'⟩

/-! ## The outcome ENC_DONE (42_encode R113) -/

/-- Settles O48: the step that ends the scan embeds the last of the 8 * REQ bits, and writes no register the frame's
counts are read from. -/
theorem encDoneLeavesTheFrame : Obligations.EncDoneLeavesTheFrame := by
  intro s v t hturn hi hp hst hstep hdone
  have h := hi.enc hst
  obtain ⟨p, hpay⟩ := h.payload
  rw [hturn.step_encBusy hst h hpay] at hstep
  cases hstep
  by_cases hd : (bitNext v.byteIdx v.bitIdx).1 = v.req
  · rw [encodeAdvance_done (s := setGrid (embeddedGrid v p) v) hd]
    have hlast := h.done_iff.1 hd
    have hfits := h.fits
    rw [h.wreg_grid, h.hreg_grid] at hfits
    have havail := h.avail_eq
    rw [h.wreg_grid, h.hreg_grid] at havail
    refine ⟨fun n hn => ?_, h.req_eq, havail, ?_, h.wreg_grid, h.hreg_grid, rfl⟩
    · exact (streamBit_congr rfl rfl n).trans (hp.embedded hst h hpay n (hlast ▸ hn))
    · change v.req.toNat ≤ v.avail.toNat
      omega
  · rw [encodeAdvance_more (s := setGrid (embeddedGrid v p) v) hd] at hdone
    exact absurd (hst.symm.trans hdone) (by decide)

/-! ## A running ENCODE by its number of visited pixels (42_encode R119) -/

/-- A message whose cells have all been written is a list of bytes. -/
theorem exists_holdsMessage {s : State} (hwr : messageWritten s = true) :
    ∃ m, HoldsMessage s m ∧ m.length = s.mlen.toNat := by
  refine ⟨(List.range s.mlen.toNat).map fun i => (cellsFind s.msgin i).getD 0#8, ⟨by simp, fun i hi => ?_⟩, by simp⟩
  have hi' : i < s.mlen.toNat := by simpa using hi
  obtain ⟨b, hb⟩ := Option.isSome_iff_exists.1 ((messageWritten_iff s).1 hwr i hi')
  rw [List.getElem?_map, List.getElem?_range hi', Option.map_some, hb]
  rfl

/-- An ENCODE that enters ENC_BUSY is a running ENCODE with no pixel visited, whatever its message. -/
theorem encRun_of_execEncode {s u : State} (hs : Startable s) (hex : execEncode s = .next u) (hu : u.st = .encBusy) :
    ∃ bit, EncRun u s.grid bit 0 u := by
  rcases execEncode_cases hex with ⟨hnr, -⟩ | ⟨hr, ⟨rfl, -⟩ | ⟨rfl, -⟩ | ⟨rfl, -⟩ | ⟨-, hw, hh, hm, hc, hwr⟩⟩
  · exact absurd (hs.isReady.symm.trans hnr) (by decide)
  · cases hu
  · cases hu
  · cases hu
  · obtain ⟨m, hold, hlen⟩ := exists_holdsMessage hwr
    have hfit : 8 * (m.length + 1) ≤ s.grid.w.toNat * s.grid.h.toNat := by
      rw [hlen]
      exact Nat.not_lt.1 (of_decide_eq_false hc)
    obtain ⟨u', hex', hrun, -⟩ := encRun_start hs.inv hr hs.quiet hold (hlen ▸ hm) (dim_pos hw) (dim_pos hh) hfit
    obtain rfl : u = u' := Host.Outcome.next.inj (hex.symm.trans hex')
    exact ⟨_, hrun⟩

/-- Where a running ENCODE that has visited `k` pixels stands. -/
theorem EncRun.position {ref : State} {g : Grid} {bit : Nat → Bool} {k : Nat} {u : State} (hu : EncRun ref g bit k u) :
    u.x.toNat = k % g.w.toNat ∧ u.y.toNat = k / g.w.toNat ∧ 8 * u.req.toNat ≤ g.w.toNat * g.h.toNat ∧
      u.x.toNat < g.w.toNat ∧ u.y.toNat < g.h.toNat := by
  have h := hu.inv.enc hu.st
  have hb := h.inBounds
  have hx := h.x_eq
  have hy := h.y_eq
  have hf := h.fits
  rw [h.wreg_grid, hu.w, hu.visited] at hx hy
  rw [h.wreg_grid, h.hreg_grid, hu.w, hu.h] at hf
  rw [hu.w, hu.h] at hb
  exact ⟨hx, hy, hf, hb⟩

/-- Settles O50: START begins a running ENCODE, which `EncRun.run` and `EncRun.finish` follow. -/
theorem encodeVisitsPixelsInOrder : Obligations.EncodeVisitsPixelsInOrder := by
  intro s u hs hex hu
  obtain ⟨bit, hrun⟩ := encRun_of_execEncode hs hex hu
  rw [hrun.req]
  refine ⟨fun k hk => ?_, ?_⟩
  · obtain ⟨t, ht, hk'⟩ := hrun.run hk
    obtain ⟨hx, hy, -, hxlt, hylt⟩ := hk'.position
    obtain ⟨-, -, hfit, -⟩ := hrun.position
    exact ⟨t, ht, hk'.st, hk'.visited, hx, hy, hrun.req ▸ hfit, hxlt, hylt⟩
  · obtain ⟨t, ht, hdone, -⟩ := hrun.finish
    exact ⟨t, ht, hdone⟩

/-! ## Runs with no host move to come -/

theorem Startable.reply {s : State} (hs : Startable s) (r : Reply) : Startable (reply r s) :=
  ⟨hs.inv.reply r, hs.isReady, hs.quiet⟩

/-- What the engine alone leaves of a state whose host is quiet. -/
theorem run_quiet_frame {k : Nat} {s t : State} (hq : s.script = []) (h : run k s = .next t) :
    t.script = [] ∧ t.cfg = s.cfg ∧ t.req = s.req ∧ t.avail = s.avail := by
  refine run_induction (P := fun v => v.script = [] ∧ v.cfg = s.cfg ∧ v.req = s.req ∧ v.avail = s.avail)
    (fun v v' ⟨hv, hcfg, hreq, havail⟩ hstep => ?_) ⟨hq, rfl, rfl, rfl⟩ h
  rw [step_nil hv] at hstep
  obtain ⟨hcfg', -, -, havail', hreq', -, -, hscript', -⟩ := engineStep_frame hstep
  exact ⟨hscript'.trans hv, hcfg'.trans hcfg, hreq'.trans hreq, havail'.trans havail⟩

theorem run_idle {s : State} (hq : s.script = []) (hb : busy s = false) (k : Nat) : run k s = .next s := by
  have hstep : step s = .next s := (step_nil hq).trans (engineStep_idle hb)
  induction k with
  | zero => rfl
  | succ k ih => exact (run_succ hstep k).trans ih

/-- A run that went on took its first step. -/
theorem exists_step_of_run_succ {s t : State} {k : Nat} (h : run (k + 1) s = .next t) :
    ∃ u, step s = .next u ∧ run k u = .next t := by
  cases hs : step s with
  | next u => exact ⟨u, rfl, (run_succ hs k).symm.trans h⟩
  | fault r => simp [run, hs] at h
  | refused r => simp [run, hs] at h

/-- A run from the command word on is START and then a run of the engine. -/
theorem run_fetch_encode {s : State} (hs : Startable s) {k : Nat} {t : State}
    (h : run (k + 1) (s.withFetchWord 32 1) = .next t) :
    ∃ u, execEncode (reply .ok s) = .next u ∧ u.script = [] ∧ run k u = .next t := by
  obtain ⟨u, hstep, hrun⟩ := exists_step_of_run_succ h
  rw [step_fetch_encode hs.isReady] at hstep
  obtain ⟨-, -, -, -, -, hscript, -⟩ := exec_frame (i := .encode) hstep
  exact ⟨u, hstep, hscript.trans hs.quiet, hrun⟩

/-- A whole ENCODE keeps the invariant and the parameters. -/
theorem inv_of_run_encode {s : State} (hs : Startable s) {k : Nat} {t : State}
    (h : run (k + 1) (s.withFetchWord 32 1) = .next t) : StateInv t ∧ t.cfg = s.cfg := by
  obtain ⟨u, hex, hq, hrun⟩ := run_fetch_encode hs h
  have hu : StateInv u := (hs.inv.reply .ok).exec (i := .encode) hex
  obtain ⟨hcfg, -⟩ := exec_frame (i := .encode) hex
  obtain ⟨-, hcfg', -⟩ := run_quiet_frame hq hrun
  exact ⟨run_induction (fun _ _ hi hstep => hi.step hstep) hu hrun, hcfg'.trans hcfg⟩

/-! ## The closed form (42_encode R116) -/

/-- The counts of an ENCODE that passed its fault checks are exact to its end. -/
theorem counts_of_run_encode {s : State} (hs : Startable s) (hw : 1 ≤ s.grid.w.toNat) (hh : 1 ≤ s.grid.h.toNat)
    (hm : s.mlen.toNat ≤ s.cfg.mcap) {k : Nat} {t : State} (h : run (k + 1) (s.withFetchWord 32 1) = .next t) :
    t.req.toNat = s.mlen.toNat + 1 ∧ t.avail.toNat = s.grid.w.toNat * s.grid.h.toNat / 8 := by
  obtain ⟨u, hex, hq, hrun⟩ := run_fetch_encode hs h
  obtain ⟨-, -, hreq, havail⟩ := run_quiet_frame hq hrun
  rw [hreq, havail]
  have hexact := storeCapacity_exact (s := sampleDims (reply .ok s)) hs.inv.cfg hm
  rcases execEncode_cases hex with ⟨hnr, -⟩ | ⟨-, ⟨-, h0⟩ | ⟨-, -, -, hbad⟩ | ⟨rfl, -⟩ | ⟨rfl, -⟩⟩
  · exact absurd (hs.isReady.symm.trans hnr) (by decide)
  · exact absurd h0 (not_or.2 ⟨dim_ne_zero hw, dim_ne_zero hh⟩)
  · exact absurd hm (Nat.not_le.2 hbad)
  · exact hexact
  · exact hexact

/-- The closed form's pixel, by coordinates. -/
theorem pixelAt_encoded {g g' : Grid} {m : List Byte} (hw : g'.w = g.w)
    (hpix : ∀ n, pixelN g' n = if n < 8 * (m.length + 1) then
      { pixelN g n with blue := embedBit (pixelN g n).blue (messageBit m n) } else pixelN g n) (x y : Nat) :
    (pixelAt g' x y).other = (pixelAt g x y).other ∧
      (pixelAt g' x y).blue =
        if y * g.w.toNat + x < 8 * (m.length + 1) then
          ((pixelAt g x y).blue &&& 0xFE#8) |||
            (((m ++ [0x7E#8]).getD ((y * g.w.toNat + x) / 8) 0#8 >>> (7 - (y * g.w.toNat + x) % 8)) &&& 1#8)
        else (pixelAt g x y).blue := by
  rw [pixelAt_eq_pixelN, pixelAt_eq_pixelN, hw, hpix]
  change _ ∧ _ = if linearIndex g.w.toNat x y < _ then _ else _
  split
  · refine ⟨rfl, ?_⟩
    rw [embedBit, messageBit, payloadBit, bitByte_extractBit]
    rfl
  · exact ⟨rfl, rfl⟩

/-- Settles O52: START alone when the message does not fit; else `run_encode_done`, its pixels by coordinates. In both
cases the counts are those START wrote. -/
theorem encodeClosedForm : Obligations.EncodeClosedForm := by
  intro s m hs hm hcap hw hh
  have hcap' : s.mlen.toNat ≤ s.cfg.mcap := hm.1 ▸ hcap
  refine ⟨fun hexc => ?_, fun hfit => ?_⟩
  · have hex := execEncode_exceeds (s := reply .ok s) hs.isReady (dim_ne_zero hw) (dim_ne_zero hh) hcap'
      (hm.1.symm ▸ hexc)
    have hrun := run_one ((step_fetch_encode hs.isReady).trans hex)
    obtain ⟨hreq, havail⟩ := counts_of_run_encode hs hw hh hcap' hrun
    exact ⟨_, hrun, rfl, rfl, hm.1 ▸ hreq, havail⟩
  · obtain ⟨t, hrun, hst, htw, hth, hpix⟩ := run_encode_done hs hm hcap hw hh hfit
    obtain ⟨hreq, havail⟩ := counts_of_run_encode hs hw hh hcap' hrun
    exact ⟨t, hrun, hst, hm.1 ▸ hreq, havail, htw, hth, fun x y _ _ => pixelAt_encoded htw hpix x y⟩

/-! ## Idempotence (42_encode R118) -/

/-- A whole ENCODE into a grid whose blue LSBs already are the stream bits gives that grid. -/
theorem run_encode_of_carried {s : State} {m : List Byte} (hs : Startable s) (hm : HoldsMessage s m)
    (hcap : m.length ≤ s.cfg.mcap) (hw : 1 ≤ s.grid.w.toNat) (hh : 1 ≤ s.grid.h.toNat)
    (hfit : 8 * (m.length + 1) ≤ s.grid.w.toNat * s.grid.h.toNat)
    (hlsb : ∀ n < 8 * (m.length + 1), blueLsb s.grid n = messageBit m n) :
    ∃ u, run (8 * (m.length + 1) + 1) (s.withFetchWord 32 1) = .next u ∧ u.st = .encDone ∧ u.grid = s.grid := by
  obtain ⟨u, hrun, hst, huw, huh, hpix⟩ := run_encode_done hs hm hcap hw hh hfit
  refine ⟨u, hrun, hst, grid_ext (inv_of_run_encode hs hrun).1.grid hs.inv.grid huw huh fun n => ?_⟩
  rw [hpix]
  split
  · next hn => rw [embedBit_extractBit (pixelN s.grid n).blue _ (hlsb n hn)]
  · rfl

/-- Settles O56: the second clause is `run_encode_of_carried`, and the first is its case of a grid that an ENCODE left. -/
theorem encodingAgainChangesNothing : Obligations.EncodingAgainChangesNothing := by
  refine ⟨fun s t v m hs hm hcap hw hh hfit hrun hv hgrid hcfg hmv => ?_, fun s m hs hm hcap hw hh hfit hlsb =>
    run_encode_of_carried hs hm hcap hw hh hfit fun n hn => (hlsb n hn).trans (messageBit_eq_getLsbD m n).symm⟩
  obtain ⟨t', hrun', -, htw, hth, hpix⟩ := run_encode_done hs hm hcap hw hh hfit
  obtain rfl : t = t' := Host.Outcome.next.inj (hrun.symm.trans hrun')
  have hcap' : m.length ≤ v.cfg.mcap := by rwa [hcfg, (inv_of_run_encode hs hrun).2]
  rw [← htw, ← hgrid] at hw
  rw [← hth, ← hgrid] at hh
  rw [← htw, ← hth, ← hgrid] at hfit
  rw [← hgrid]
  refine run_encode_of_carried hv hmv hcap' hw hh hfit fun n hn => ?_
  rw [hgrid, blueLsb_eq, hpix, if_pos hn, extractBit_embedBit]

/-! ## Determinism (42_encode R117) -/

/-- The two states agree in the parameters and in the operands of ENCODE. -/
structure SameOperands (s s' : State) : Prop where
  cfg : s.cfg = s'.cfg
  grid : s.grid = s'.grid
  mlen : s.mlen = s'.mlen
  message : ∀ i < s.mlen.toNat, cellsFind s.msgin i = cellsFind s'.msgin i

/-- What R117 says of two ENCODEs after the same number of steps: they agree in all that the command wrote. -/
def EncodeAgree (t t' : State) : Prop :=
  t'.grid = t.grid ∧ t'.st = t.st ∧ t'.fcause = t.fcause ∧ t'.wreg = t.wreg ∧ t'.hreg = t.hreg ∧
    (t.st ≠ .faulted → t'.avail = t.avail ∧ t'.req = t.req) ∧
    (t.st = .encBusy ∨ t.st = .encDone →
      t'.x = t.x ∧ t'.y = t.y ∧ t'.byteIdx = t.byteIdx ∧ t'.bitIdx = t.bitIdx)

/-- `t` with all that a scanning ENCODE does not write, nor read but for the message, taken from `r`. -/
def withUntouched (r t : State) : State :=
  { t with msgin := r.msgin, msgout := r.msgout, olen := r.olen, curByte := r.curByte, replies := r.replies,
           freeCtr := r.freeCtr }

theorem encodeAgree_withUntouched (r t : State) : EncodeAgree t (withUntouched r t) :=
  ⟨rfl, rfl, rfl, rfl, rfl, fun _ => ⟨rfl, rfl⟩, fun _ => ⟨rfl, rfl, rfl, rfl⟩⟩

theorem encodeAdvance_withUntouched (r t : State) :
    encodeAdvance (withUntouched r t) = withUntouched r (encodeAdvance t) := by
  unfold encodeAdvance
  rw [apply_ite (withUntouched r)]
  rfl

theorem payload_withUntouched {r t : State} (hm : ∀ i < t.mlen.toNat, cellsFind r.msgin i = cellsFind t.msgin i)
    (i : Nat) : payload (withUntouched r t) i = payload t i := by
  unfold payload
  change (if i < t.mlen.toNat then cellsFind r.msgin i else _) = _
  split
  · next hi => exact hm i hi
  · rfl

theorem encodeScanStep_inBounds {s : State} {p : Byte} (hp : payload s s.byteIdx.toNat = some p)
    (hx : s.x.toNat < s.grid.w.toNat) (hy : s.y.toNat < s.grid.h.toNat) :
    encodeScanStep s = .next (encodeAdvance (setGrid (embeddedGrid s p) s)) := by
  simp only [encodeScanStep, hp, getBlue_of_inBounds hx hy, setBlue_of_inBounds _ hx hy, embeddedGrid]

/-- `t` is on the way of an ENCODE that another state, with its own surroundings `r`, can follow. -/
structure Followed (r t : State) : Prop where
  inv : StateInv t
  quiet : t.script = []
  notDecoding : t.st ≠ .decBusy
  message : ∀ i < t.mlen.toNat, cellsFind r.msgin i = cellsFind t.msgin i

/-- One step of the engine is the same step in other surroundings. -/
theorem Followed.step {r t u : State} (hf : Followed r t) (h : Machine.step t = .next u) :
    Machine.step (withUntouched r t) = .next (withUntouched r u) ∧ Followed r u := by
  have hu := hf.inv.step h
  have hq : (withUntouched r t).script = [] := hf.quiet
  rw [step_nil hf.quiet] at h
  obtain ⟨hmlen, hmsgin⟩ := engineStep_mlen_msgin h
  obtain ⟨-, -, -, -, -, -, -, hscript, -⟩ := engineStep_frame h
  have hmsg : ∀ i < u.mlen.toNat, cellsFind r.msgin i = cellsFind u.msgin i := by
    rw [hmlen, hmsgin]
    exact hf.message
  suffices hstep : engineStep (withUntouched r t) = .next (withUntouched r u) ∧ u.st ≠ .decBusy from
    ⟨(step_nil hq).trans hstep.1, hu, hscript.trans hf.quiet, hstep.2, hmsg⟩
  cases hb : busy t with
  | false =>
    rw [engineStep_idle hb] at h
    cases h
    exact ⟨engineStep_idle hb, hf.notDecoding⟩
  | true =>
    have hst : t.st = .encBusy := ((busy_iff t).1 hb).resolve_right hf.notDecoding
    have henc := hf.inv.enc hst
    obtain ⟨p, hp⟩ := henc.payload
    obtain ⟨hx, hy⟩ := henc.inBounds
    rw [engineStep_encBusy hst, encodeScanStep_scanning henc hp] at h
    cases h
    refine ⟨?_, ?_⟩
    · rw [engineStep_encBusy (s := withUntouched r t) hst,
        encodeScanStep_inBounds (s := withUntouched r t) ((payload_withUntouched hf.message _).trans hp) hx hy,
        ← encodeAdvance_withUntouched]
      rfl
    · unfold encodeAdvance
      split
      · exact nofun
      · exact hf.notDecoding

theorem Followed.run {r t u : State} (hf : Followed r t) {k : Nat} (h : Machine.run k t = .next u) :
    Machine.run k (withUntouched r t) = .next (withUntouched r u) := by
  induction k generalizing t with
  | zero => cases h; rfl
  | succ k ih =>
    obtain ⟨v, hv, hrun⟩ := exists_step_of_run_succ h
    obtain ⟨hv', hf'⟩ := hf.step hv
    exact (run_succ hv' k).trans (ih hf' hrun)

/-! ### The two START steps -/

section Start

variable {s s' : State} (hs : Startable s) (hs' : Startable s') (hop : SameOperands s s')

include hop in
theorem encodeAgree_raiseFault (c : FaultCause) :
    EncodeAgree (raiseFault c (sampleDims s)) (raiseFault c (sampleDims s')) :=
  ⟨hop.grid.symm, rfl, rfl, congrArg Grid.w hop.grid.symm, congrArg Grid.h hop.grid.symm, fun hst => absurd rfl hst,
    by simp⟩

include hs hs'

theorem fcause_eq_of_startable : s'.fcause = s.fcause :=
  (hs'.inv.fcause_of_ready hs'.isReady).trans (hs.inv.fcause_of_ready hs.isReady).symm

include hop

theorem encodeAgree_capExceeded :
    EncodeAgree (setSt .capExceeded (storeCapacity (sampleDims s)))
      (setSt .capExceeded (storeCapacity (sampleDims s'))) :=
  ⟨hop.grid.symm, rfl, (fcause_eq_of_startable hs hs' :), congrArg Grid.w hop.grid.symm,
    congrArg Grid.h hop.grid.symm, fun _ => by simp [hop.grid, hop.mlen], by simp⟩

/-- Where both STARTs enter ENC_BUSY, the second leaves the first's successor in its own surroundings. -/
theorem beginEncode_withUntouched : beginEncode (storeCapacity (sampleDims s')) =
    withUntouched s' (beginEncode (storeCapacity (sampleDims s))) := by
  simp [beginEncode_eq, storeCapacity, sampleDims, width, height, withUntouched, hop.cfg, hop.grid, hop.mlen,
    fcause_eq_of_startable hs hs', hs.quiet, hs'.quiet]

/-- The second START ends as the first: in a scan that follows the first's, or at rest in agreement with it. -/
theorem execEncode_agree {u : State} (hex : execEncode s = .next u) :
    ∃ u', execEncode s' = .next u' ∧
      ((u' = withUntouched s' u ∧ Followed s' u) ∨ (busy u = false ∧ busy u' = false ∧ EncodeAgree u u')) := by
  have hr' := hs'.isReady
  rcases execEncode_cases hex with ⟨hnr, -⟩ | ⟨-, ⟨rfl, h0⟩ | ⟨rfl, hw, hh, hm⟩ | ⟨rfl, hw, hh, hm, hc⟩ |
    ⟨rfl, hw, hh, hm, hc, hwr⟩⟩
  · exact absurd (hs.isReady.symm.trans hnr) (by decide)
  · rw [hop.grid] at h0
    exact ⟨_, execEncode_badDim hr' h0, .inr ⟨rfl, rfl, encodeAgree_raiseFault hop _⟩⟩
  · rw [hop.grid] at hw hh
    rw [hop.cfg, hop.mlen] at hm
    exact ⟨_, execEncode_badMlen hr' hw hh hm, .inr ⟨rfl, rfl, encodeAgree_raiseFault hop _⟩⟩
  · rw [hop.grid] at hw hh
    rw [hop.cfg, hop.mlen] at hm
    rw [hop.grid, hop.mlen] at hc
    exact ⟨_, execEncode_exceeds hr' hw hh hm (of_decide_eq_true hc),
      .inr ⟨rfl, rfl, encodeAgree_capExceeded hs hs' hop⟩⟩
  · have hwr' : ∀ i < s'.mlen.toNat, (cellsFind s'.msgin i).isSome = true := fun i hi => by
      rw [← hop.mlen] at hi
      rw [← hop.message i hi]
      exact (messageWritten_iff s).1 hwr i hi
    have hfollowed : Followed s' (beginEncode (storeCapacity (sampleDims s))) :=
      ⟨hs.inv.exec (i := .encode) hex, hs.quiet, nofun, fun i hi => (hop.message i hi).symm⟩
    rw [hop.grid] at hw hh
    rw [hop.cfg, hop.mlen] at hm
    rw [hop.grid, hop.mlen] at hc
    exact ⟨_, execEncode_begins hr' hw hh hm (Nat.not_lt.1 (of_decide_eq_false hc)) hwr',
      .inl ⟨beginEncode_withUntouched hs hs' hop, hfollowed⟩⟩

end Start

/-- Settles O57: after START the second run follows the first in its own surroundings, or both are at rest. -/
theorem encodeDependsOnItsOperandsOnly : Obligations.EncodeDependsOnItsOperandsOnly := by
  intro s s' hs hs' hcfg hgrid hmlen hmsg k t h
  obtain ⟨u, hex, hq, hrun⟩ := run_fetch_encode hs h
  obtain ⟨u', hex', hcase⟩ := execEncode_agree (hs.reply .ok) (hs'.reply .ok) ⟨hcfg, hgrid, hmlen, hmsg⟩ hex
  have hq' : u'.script = [] := by
    obtain ⟨-, -, -, -, -, hscript, -⟩ := exec_frame (i := .encode) hex'
    exact hscript.trans hs'.quiet
  suffices hagree : ∃ t', run k u' = .next t' ∧ EncodeAgree t t' by
    obtain ⟨t', hrun', hagree⟩ := hagree
    exact ⟨t', (run_succ ((step_fetch_encode hs'.isReady).trans hex') k).trans hrun', hagree⟩
  rcases hcase with ⟨rfl, hf⟩ | ⟨hb, hb', hagree⟩
  · exact ⟨_, hf.run hrun, encodeAgree_withUntouched _ _⟩
  · rw [run_idle hq hb] at hrun
    cases hrun
    exact ⟨u', run_idle hq' hb' k, hagree⟩

end Sys2Proof.Machine

/-! PROOFS of the family 43_decode: the START step of DECODE (R131), its scan step (R132), its outcomes (R133, R134),
whole operations (R135, R136), the round trip (R138) and determinism (R139). -/

namespace Sys2Proof.Machine

open Sys2Proof

/-! ## The START step (43_decode R131) -/

theorem execDecode_badDim {s : State} (hr : ready s = true) (h0 : s.grid.w = 0#16 ∨ s.grid.h = 0#16) :
    execDecode s = .next (raiseFault .badDim (sampleDims s)) :=
  (if_pos hr).trans (if_pos h0)

theorem beginDecode_eq (s : State) :
    beginDecode s = { s with x := 0, y := 0, bitIdx := 0, curByte := 0, olen := 0, st := .decBusy } := by
  simp only [beginDecode, setXY, fitDim_zero]
  rfl

/-- Settles O8: each clause is the lemma of its branch, the successor written out. -/
theorem decodeStartStep : Obligations.DecodeStartStep := by
  intro s hr
  simp only [ne_eq, toNat_eq_zero_iff]
  refine ⟨execDecode_badDim hr, fun hw hh => ?_⟩
  have hbegin := execDecode_begins hr hw hh
  rw [beginDecode_eq] at hbegin
  exact hbegin

/-! ## The scan step (43_decode R132) -/

theorem decodeScanStep_of_getBlue {s : State} {blue : Byte} (h : getBlue s.grid s.x.toNat s.y.toNat = some blue) :
    decodeScanStep s = .next (decodeShifted (shiftIn s.curByte (extractBit blue)) s) := by
  simp only [decodeScanStep, h]

section DecodeShifted

variable {s : State} {cb : Byte}

theorem decodeShifted_found (h7 : s.bitIdx = 7#3) (hcb : cb = sentinel) :
    decodeShifted cb s = setSt .foundTerminator (setRunning 0#8 0#3 s) :=
  (if_pos h7).trans (if_pos hcb)

theorem decodeShifted_full (h7 : s.bitIdx = 7#3) (hcb : cb ≠ sentinel) (hfull : s.olen.toNat = s.cfg.mcap) :
    decodeShifted cb s = raiseFault .outFull s :=
  (if_pos h7).trans ((if_neg hcb).trans (if_pos hfull))

theorem decodeShifted_store (h7 : s.bitIdx = 7#3) (hcb : cb ≠ sentinel) (hroom : s.olen.toNat ≠ s.cfg.mcap) :
    decodeShifted cb s = decodeAdvance (setRunning 0#8 0#3 (appendOut cb s)) :=
  (if_pos h7).trans ((if_neg hcb).trans (if_neg hroom))

theorem decodeShifted_shift (h7 : s.bitIdx ≠ 7#3) :
    decodeShifted cb s = decodeAdvance (setRunning cb (s.bitIdx + 1#3) s) :=
  if_neg h7

end DecodeShifted

/-- X and Y are those of an in-bounds pixel of a grid whose dimensions fit the registers. -/
structure InGrid (s : State) : Prop where
  x_lt : s.x.toNat < s.wreg.toNat
  y_lt : s.y.toNat < s.hreg.toNat
  wreg : s.wreg.toNat < 2 ^ s.cfg.xw
  hreg : s.hreg.toNat < 2 ^ s.cfg.yw

theorem StateInv.inGrid {s : State} (hi : StateInv s) (hst : s.st = .decBusy) : InGrid s :=
  ⟨(hi.dec hst).x_lt, (hi.dec hst).y_lt, hi.wreg, hi.hreg⟩

theorem fitDim_eq {b n : Nat} (hn : n < 2 ^ b) : fitDim b n = BitVec.ofNat 16 n := by
  rw [fitDim, Nat.mod_eq_of_lt hn]

theorem fitDim_self {b : Nat} {d : Dim} (h : d.toNat < 2 ^ b) : fitDim b d.toNat = d := by
  rw [fitDim_eq h, BitVec.ofNat_toNat, BitVec.setWidth_eq]

theorem fitDim_succ {b : Nat} {d : Dim} (h : d.toNat + 1 < 2 ^ b) : fitDim b (d.toNat + 1) = d + 1#16 := by
  rw [fitDim_eq h, BitVec.ofNat_add, BitVec.ofNat_toNat, BitVec.setWidth_eq]

/-- In the grid ScanNext never wraps a register, so XW and YW leave no trace in it (41_bitstream R96, R101). -/
theorem InGrid.setXY_scanNext {s : State} (h : InGrid s) : setXY (scanNext s.wreg.toNat s.x.toNat s.y.toNat) s =
    { s with x := if s.x.toNat + 1 = s.wreg.toNat then 0 else s.x + 1
             y := if s.x.toNat + 1 = s.wreg.toNat then s.y + 1 else s.y } := by
  obtain ⟨hx, hy, hw, hh⟩ := h
  unfold scanNext setXY
  by_cases hrow : s.x.toNat + 1 = s.wreg.toNat
  · simp only [if_pos hrow, fitDim_zero, fitDim_succ (show s.y.toNat + 1 < 2 ^ s.cfg.yw by omega)]
    rfl
  · simp only [if_neg hrow, fitDim_succ (show s.x.toNat + 1 < 2 ^ s.cfg.xw by omega), fitDim_self (hy.trans hh)]
    rfl

theorem InGrid.decodeAdvance_last {s : State} (h : InGrid s)
    (hl : s.x.toNat = s.wreg.toNat - 1 ∧ s.y.toNat = s.hreg.toNat - 1) : decodeAdvance s = setSt .exhausted s :=
  if_pos ((isLast_iff_coords h.x_lt h.y_lt).2 hl)

theorem InGrid.decodeAdvance_more {s : State} (h : InGrid s)
    (hl : ¬ (s.x.toNat = s.wreg.toNat - 1 ∧ s.y.toNat = s.hreg.toNat - 1)) :
    decodeAdvance s =
      { s with x := if s.x.toNat + 1 = s.wreg.toNat then 0 else s.x + 1
               y := if s.x.toNat + 1 = s.wreg.toNat then s.y + 1 else s.y } :=
  (if_neg (mt (isLast_iff_coords h.x_lt h.y_lt).1 hl)).trans h.setXY_scanNext

theorem InGrid.setRunning {s : State} (h : InGrid s) (b : Byte) (j : BitIndex) : InGrid (setRunning b j s) :=
  ⟨h.x_lt, h.y_lt, h.wreg, h.hreg⟩

theorem InGrid.appendOut {s : State} (h : InGrid s) (b : Byte) : InGrid (appendOut b s) :=
  ⟨h.x_lt, h.y_lt, h.wreg, h.hreg⟩

/-- Settles O14: each clause is the lemma of its branch, and where the scan goes on the one of the advance. -/
theorem decodeScanStepShiftsOneBit : Obligations.DecodeScanStepShiftsOneBit := by
  intro s v hturn hi hst
  obtain ⟨hx, hy⟩ := (hi.dec hst).inBounds
  have hblue := getBlue_of_inBounds hx hy
  have hgrid := hi.inGrid hst
  refine ⟨_, hblue, ?_⟩
  intro cb last nx ny
  have hstep : step s = .next (decodeShifted cb v) := by
    rw [hturn.step, engineStep_decBusy hst, decodeScanStep_of_getBlue hblue, shiftIn, bitByte_extractBit]
  rw [hstep]
  refine ⟨fun h7 hcb => ?_, fun h7 hcb hfull => ?_, fun h7 hcb hroom hl => ?_, fun h7 hcb hroom hl => ?_,
    fun h7 hl => ?_, fun h7 hl => ?_⟩
  · rw [decodeShifted_found h7 hcb]
    rfl
  · rw [decodeShifted_full h7 hcb hfull]
    rfl
  · rw [decodeShifted_store h7 hcb hroom, ((hgrid.appendOut cb).setRunning 0#8 0#3).decodeAdvance_last hl]
    rfl
  · rw [decodeShifted_store h7 hcb hroom, ((hgrid.appendOut cb).setRunning 0#8 0#3).decodeAdvance_more hl]
    rfl
  · rw [decodeShifted_shift h7, (hgrid.setRunning cb (v.bitIdx + 1#3)).decodeAdvance_last hl]
    rfl
  · rw [decodeShifted_shift h7, (hgrid.setRunning cb (v.bitIdx + 1#3)).decodeAdvance_more hl]
    rfl

/-! ## The outcomes (43_decode R133, R134) -/

theorem decodeAdvance_exhausted {s : State} (hst : s.st = .decBusy) (he : (decodeAdvance s).st = .exhausted) :
    isLast s.wreg.toNat s.hreg.toNat s.x.toNat s.y.toNat = true ∧ decodeAdvance s = setSt .exhausted s := by
  by_cases hl : isLast s.wreg.toNat s.hreg.toNat s.x.toNat s.y.toNat = true
  · exact ⟨hl, decodeAdvance_last hl⟩
  · rw [decodeAdvance_more hl] at he
    exact absurd (hst.symm.trans he) nofun

/-- A scan step that ends in EXHAUSTED visits the last pixel and stays there. -/
theorem decodeShifted_exhausted {s : State} {cb : Byte} (hst : s.st = .decBusy)
    (he : (decodeShifted cb s).st = .exhausted) :
    isLast s.wreg.toNat s.hreg.toNat s.x.toNat s.y.toNat = true ∧
      (decodeShifted cb s).x = s.x ∧ (decodeShifted cb s).y = s.y := by
  by_cases h7 : s.bitIdx = 7#3
  · by_cases hcb : cb = sentinel
    · rw [decodeShifted_found h7 hcb] at he
      exact absurd he nofun
    by_cases hfull : s.olen.toNat = s.cfg.mcap
    · rw [decodeShifted_full h7 hcb hfull] at he
      exact absurd he nofun
    · rw [decodeShifted_store h7 hcb hfull] at he ⊢
      obtain ⟨hl, e⟩ := decodeAdvance_exhausted (s := setRunning 0#8 0#3 (appendOut cb s)) hst he
      rw [e]
      exact ⟨hl, rfl, rfl⟩
  · rw [decodeShifted_shift h7] at he ⊢
    obtain ⟨hl, e⟩ := decodeAdvance_exhausted (s := setRunning cb (s.bitIdx + 1#3) s) hst he
    rw [e]
    exact ⟨hl, rfl, rfl⟩

/-- With the byte of this scan step, if it completes one, no recovered byte is the sentinel. -/
theorem Progress.clean_of_not_found {s : State} (hp : Progress s) (hst : s.st = .decBusy) (h : DecScanning s)
    (hnot : ¬ (decVisited s % 8 = 7 ∧ recoveredByte s.grid (decVisited s / 8) = sentinel)) :
    ∀ k < (decVisited s + 1) / 8, recoveredByte s.grid k ≠ sentinel := by
  intro k hk
  by_cases hold : k < decVisited s / 8
  · exact hp.clean hst k (h.olen_eq ▸ hold)
  · obtain rfl : k = decVisited s / 8 := by omega
    exact fun e => hnot ⟨by omega, e⟩

/-- A running DECODE in any script, with the host's moves to come left out. -/
theorem decRun_of_progress {v : State} (hi : StateInv v) (hp : Progress v) (hst : v.st = .decBusy) :
    DecRun v.cfg v.grid (decVisited v) (setScript [] v) :=
  { st := hst, inv := hi.setScript [], prog := progress_of_sameMachine (sameMachine_setScript [] v) hp, quiet := rfl,
    cfg := rfl, grid := rfl, visited := rfl }

/-- Settles O49: the scan step is the one of a running DECODE, by its outcome; the host's moves to come have no part. -/
theorem decodeOutcomesDelimitTheMessage : Obligations.DecodeOutcomesDelimitTheMessage := by
  intro s v t hturn hi hp hst hstep hend
  have h := hi.dec hst
  have hlt := h.visited_lt
  rw [h.wreg_grid, h.hreg_grid] at hlt
  rw [hturn.step] at hstep
  obtain ⟨t', hrun, hcase⟩ := (decRun_of_progress hi hp hst).step
  obtain rfl : t' = setScript [] t :=
    Host.Outcome.next.inj (hrun.symm.trans ((step_nil rfl).trans (engineStep_setScript [] hstep)))
  by_cases hfound : decVisited v % 8 = 7 ∧ recoveredByte v.grid (decVisited v / 8) = sentinel
  · rw [if_pos hfound] at hcase
    obtain ⟨hst', hg, -, holen, hout⟩ : t.st = .foundTerminator ∧ t.grid = v.grid ∧ _ ∧
      HoldsRecovered v.grid (decVisited v / 8) t := hcase
    rw [hst', hg, holen]
    exact ⟨rfl, by simp [ready, hst'], fun k hk => ⟨hout k hk, hp.clean hst k (h.olen_eq ▸ hk)⟩,
      fun _ => ⟨hfound.2, by omega⟩, nofun⟩
  rw [if_neg hfound] at hcase
  split at hcase
  · obtain ⟨hst', -⟩ : t.st = .faulted ∧ _ := hcase
    simp [hst'] at hend
  split at hcase
  · next hlast =>
    obtain ⟨hst', hg, -, holen, hout⟩ : t.st = .exhausted ∧ t.grid = v.grid ∧ _ ∧
      HoldsRecovered v.grid ((decVisited v + 1) / 8) t := hcase
    have hclean' := hp.clean_of_not_found hst h hfound
    rw [engineStep_decBusy hst, decodeScanStep_scanning h] at hstep
    cases hstep
    obtain ⟨hpix, hx, hy⟩ := decodeShifted_exhausted hst hst'
    rw [isLast, Bool.and_eq_true, decide_eq_true_eq, decide_eq_true_eq, h.wreg_grid, h.hreg_grid] at hpix
    rw [hst', hg, holen, hx, hy, hlast]
    rw [hlast] at hout hclean'
    exact ⟨rfl, by simp [ready, hst'], fun k hk => ⟨hout k hk, hclean' k hk⟩, nofun, fun _ => ⟨rfl, hpix⟩⟩
  · have hst' : t.st = .decBusy := hcase.st
    simp [hst'] at hend

/-! ## A running DECODE by its number of visited pixels (43_decode R136) -/

/-- Where a running DECODE that has visited `k` pixels stands. -/
theorem DecRun.position {c : Config} {g : Grid} {k : Nat} {u : State} (hu : DecRun c g k u) :
    k < g.w.toNat * g.h.toNat ∧ u.x.toNat = k % g.w.toNat ∧ u.y.toNat = k / g.w.toNat ∧ u.bitIdx.toNat = k % 8 ∧
      u.olen.toNat = k / 8 ∧ u.x.toNat < g.w.toNat ∧ u.y.toNat < g.h.toNat := by
  obtain ⟨hst, hinv, -, -, rfl, rfl, rfl⟩ := hu
  have h := hinv.dec hst
  obtain ⟨hx, hy⟩ := h.inBounds
  have hlt := h.visited_lt
  have hpos : decVisited u = linearIndex u.grid.w.toNat u.x.toNat u.y.toNat := by rw [← h.wreg_grid]; rfl
  rw [h.wreg_grid, h.hreg_grid] at hlt
  exact ⟨hlt, by rw [hpos, linearIndex_mod _ hx], by rw [hpos, linearIndex_div _ hx], h.bitIdx_eq, h.olen_eq, hx, hy⟩

/-- At the end of a DECODE: the core is not BUSY, and no access was out of bounds. -/
def DecodeEnded (t : State) : Prop := busy t = false ∧ t.script = [] ∧ t.fcause ≠ .gridBounds

/-- A step of a running DECODE visits one more pixel, or ends it. -/
theorem DecRun.step_cases {c : Config} {g : Grid} {k : Nat} {u t : State} (hu : DecRun c g k u)
    (hs : Machine.step u = .next t) : DecRun c g (k + 1) t ∨ DecodeEnded t := by
  obtain ⟨t', hs', hcase⟩ := hu.step
  obtain rfl : t = t' := Host.Outcome.next.inj (hs.symm.trans hs')
  have hready : ready t = true → t.script = [] → DecodeEnded t := fun hr hq =>
    ⟨busy_of_ready hr, hq, by rw [(hu.inv.step hs).fcause_of_ready hr]; nofun⟩
  split at hcase
  · obtain ⟨hst, -, hq, -⟩ := hcase
    exact .inr (hready (by simp [ready, hst]) hq)
  split at hcase
  · obtain ⟨hst, hfc, -, hq, -⟩ := hcase
    exact .inr ⟨by simp [busy, hst], hq, by rw [hfc]; nofun⟩
  split at hcase
  · obtain ⟨hst, -, hq, -⟩ := hcase
    exact .inr (hready (by simp [ready, hst]) hq)
  · exact .inl hcase

/-- While a run of a DECODE is still in DEC_BUSY, each of its steps has visited one pixel. -/
theorem DecRun.of_run {c : Config} {g : Grid} {j k : Nat} {u t : State} (hu : DecRun c g j u)
    (h : Machine.run k u = .next t) (hst : t.st = .decBusy) : DecRun c g (j + k) t := by
  induction k generalizing j u with
  | zero => cases h; exact hu
  | succ k ih =>
    obtain ⟨v, hv, hrun⟩ := exists_step_of_run_succ h
    rcases hu.step_cases hv with hmore | ⟨hb, hq, -⟩
    · rw [Nat.add_comm k, ← Nat.add_assoc]
      exact ih hmore hrun
    · rw [run_idle hq hb] at hrun
      cases hrun
      exact absurd hst (not_scanning_of_not_busy hb).2

/-- A DECODE ends before it runs out of pixels. -/
theorem DecRun.ends {c : Config} {g : Grid} {j n : Nat} {u : State} (hu : DecRun c g j u)
    (hn : j + n = g.w.toNat * g.h.toNat) : ∃ k t, k ≤ n ∧ Machine.run k u = .next t ∧ DecodeEnded t := by
  induction n generalizing j u with
  | zero =>
    obtain ⟨hlt, -⟩ := hu.position
    omega
  | succ n ih =>
    obtain ⟨v, hv, -⟩ := hu.step
    rcases hu.step_cases hv with hmore | hend
    · obtain ⟨k, t, hk, ht, hend⟩ := ih hmore (by omega)
      exact ⟨k + 1, t, by omega, (run_succ hv k).trans ht, hend⟩
    · exact ⟨1, v, by omega, run_one hv, hend⟩

/-- A DECODE that enters DEC_BUSY is a running DECODE with no pixel visited. -/
theorem decRun_of_execDecode {s u : State} (hs : Startable s) (hex : execDecode s = .next u) (hu : u.st = .decBusy) :
    DecRun s.cfg s.grid 0 u := by
  rcases execDecode_cases hex with ⟨hnr, -⟩ | ⟨hr, ⟨rfl, -⟩ | ⟨-, hw, hh⟩⟩
  · exact absurd (hs.isReady.symm.trans hnr) (by decide)
  · cases hu
  · obtain ⟨u', hex', hrun⟩ := decRun_start hs.inv hr hs.quiet (dim_pos hw) (dim_pos hh)
    obtain rfl : u = u' := Host.Outcome.next.inj (hex.symm.trans hex')
    exact hrun

/-- Settles O51: START begins a running DECODE, which `DecRun.of_run` and `DecRun.ends` follow. -/
theorem decodeVisitsPixelsInOrder : Obligations.DecodeVisitsPixelsInOrder := by
  intro s u hs hex hu
  have hrun := decRun_of_execDecode hs hex hu
  refine ⟨fun k t ht hst => ?_, ?_⟩
  · have hk := hrun.of_run ht hst
    rw [Nat.zero_add] at hk
    exact hk.position
  · obtain ⟨k, t, hk, ht, hb, -, hfc⟩ := hrun.ends (Nat.zero_add _)
    exact ⟨k, t, hk, ht, hb, hfc⟩

/-! ## The closed form (43_decode R135) -/

/-- The command word of DECODE begins a running DECODE. -/
theorem step_fetch_decode_begins {s : State} (hs : Startable s) (hw : 1 ≤ s.grid.w.toNat) (hh : 1 ≤ s.grid.h.toNat) :
    step (s.withFetchWord 32 2) = .next (beginDecode (sampleDims (reply .ok s))) ∧
      DecRun s.cfg s.grid 0 (beginDecode (sampleDims (reply .ok s))) := by
  have hex := execDecode_begins (s := reply .ok s) hs.isReady (dim_ne_zero hw) (dim_ne_zero hh)
  exact ⟨(step_fetch_decode hs.isReady).trans hex, decRun_of_execDecode (s := reply .ok s) (hs.reply .ok) hex rfl⟩

/-- A whole DECODE, from its command word on, that has met no sentinel, no full buffer and not the end of the grid. -/
theorem run_decode_scanning {s : State} (hs : Startable s) (hw : 1 ≤ s.grid.w.toNat) (hh : 1 ≤ s.grid.h.toNat) {k : Nat}
    (hk : k < s.grid.w.toNat * s.grid.h.toNat) (hsent : ∀ i < k / 8, recoveredByte s.grid i ≠ sentinel)
    (hroom : k / 8 ≤ s.cfg.mcap) :
    ∃ v, run (k + 1) (s.withFetchWord 32 2) = .next v ∧ DecRun s.cfg s.grid k v := by
  obtain ⟨hstep, hstart⟩ := step_fetch_decode_begins hs hw hh
  obtain ⟨v, hv, hrun⟩ := hstart.run hk hsent hroom
  exact ⟨v, (run_succ hstep k).trans hv, hrun⟩

/-- Settles O54: each clause follows the scan to the step before its end, where `DecRun.step` gives the outcome. -/
theorem decodeClosedForm : Obligations.DecodeClosedForm := by
  intro s hs hw hh
  refine ⟨fun t htK hB hfirst hcap => ?_, fun hnone hcap => ?_, fun hnone hcap => ?_⟩
  · have h8 : (8 * t + 7) / 8 = t := by omega
    obtain ⟨v, hv, hrun⟩ := run_decode_scanning hs hw hh (k := 8 * t + 7) (by omega) (by rwa [h8]) (by rwa [h8])
    obtain ⟨u, hu, hcase⟩ := hrun.step
    rw [h8, if_pos ⟨by omega, hB⟩] at hcase
    obtain ⟨hst, hg, -, holen, hout⟩ := hcase
    exact ⟨u, (run_add hv 1).trans (run_one hu), hst, holen, hout, hg⟩
  · generalize hN : s.grid.w.toNat * s.grid.h.toNat = N at *
    have hpos : 0 < N := hN ▸ Nat.mul_pos hw hh
    obtain ⟨n, rfl⟩ : ∃ n, N = n + 1 := ⟨N - 1, by omega⟩
    obtain ⟨v, hv, hrun⟩ := run_decode_scanning hs hw hh (k := n) (by omega) (fun i hi => hnone i (by omega)) (by omega)
    obtain ⟨u, hu, hcase⟩ := hrun.step
    rw [if_neg fun ⟨h7, hB⟩ => hnone (n / 8) (by omega) hB, if_neg (by omega), if_pos hN.symm] at hcase
    obtain ⟨hst, hg, -, holen, hout⟩ := hcase
    exact ⟨u, (run_add hv 1).trans (run_one hu), hst, holen, hout, hg⟩
  · have h8 : (8 * s.cfg.mcap + 7) / 8 = s.cfg.mcap := by omega
    obtain ⟨v, hv, hrun⟩ := run_decode_scanning hs hw hh (k := 8 * s.cfg.mcap + 7) (by omega)
      (fun i hi => hnone i (by omega)) h8.le
    obtain ⟨u, hu, hcase⟩ := hrun.step
    rw [h8, if_neg fun e => hnone s.cfg.mcap (Nat.lt_succ_self _) e.2, if_pos ⟨by omega, rfl⟩] at hcase
    obtain ⟨hst, hfc, hg, -, holen, hout⟩ := hcase
    exact ⟨u, (run_add hv 1).trans (run_one hu), hst, hfc, holen, hout, hg⟩

/-! ## The round trip (43_decode R138) -/

/-- A grid that carries the frame of `m` gives back the bytes of `m` and the sentinel. -/
theorem recoveredByte_of_frame {g : Grid} {m : List Byte}
    (hlsb : ∀ n < 8 * (m.length + 1), blueLsb g n = messageBit m n) {k : Nat} (hk : k ≤ m.length) :
    (m ++ [sentinel])[k]? = some (recoveredByte g k) := by
  have hlt : k < (m ++ [sentinel]).length := by simp; omega
  have hbits : ∀ j < 8, blueLsb g (8 * k + j) = payloadBit (m ++ [sentinel])[k] j := by
    intro j hj
    rw [hlsb _ (by omega), messageBit, show (8 * k + j) / 8 = k by omega, show (8 * k + j) % 8 = j by omega,
      List.getD_eq_getElem _ _ hlt]
  rw [List.getElem?_eq_getElem hlt, recoveredByte, byteOfBits_congr hbits, byteOfBits_payloadBit]

/-- Settles O55: the encoded grid carries the frame of `m`; the closed form of DECODE stops at its first sentinel. -/
theorem decodeOfEncodeIsTheMessage : Obligations.DecodeOfEncodeIsTheMessage := by
  intro s t v m c hs hm hcap hw hh hfit hrun hv hgrid hcfg hc hfirst
  obtain ⟨t', hrun', -, htw, hth, hpix⟩ := run_encode_done hs hm hcap hw hh hfit
  obtain rfl : t = t' := Host.Outcome.next.inj (hrun.symm.trans hrun')
  have hcap' : m.length ≤ v.cfg.mcap := by rwa [hcfg, (inv_of_run_encode hs hrun).2]
  have hle : c ≤ m.length := by
    obtain ⟨hlt, -⟩ := List.getElem?_eq_some_iff.1 hc
    simp at hlt
    omega
  have hlsb : ∀ n < 8 * (m.length + 1), blueLsb v.grid n = messageBit m n := fun n hn => by
    rw [hgrid, blueLsb_eq, hpix, if_pos hn, extractBit_embedBit]
  have hbyte : ∀ k ≤ m.length, (m ++ [0x7E#8])[k]? = some (recoveredByte v.grid k) := fun k hk =>
    recoveredByte_of_frame hlsb hk
  rw [← htw, ← hgrid] at hw hfit
  rw [← hth, ← hgrid] at hh hfit
  rw [hbyte c hle] at hc
  obtain ⟨hfound, -⟩ := decodeClosedForm v hv hw hh
  obtain ⟨u, hu, hst, holen, hout, -⟩ := hfound c (by omega) (Option.some.inj hc)
    (fun k hk e => hfirst k hk (by rw [hbyte k (by omega), e])) (by omega)
  refine ⟨u, hu, hst, holen, fun k hk => ?_⟩
  rw [hout k hk, ← hbyte k (by omega), List.getElem?_append_left (by omega)]

/-! ## Determinism (43_decode R139) -/

/-- What R139 says of two DECODEs after the same number of steps: they agree in all that the command wrote. -/
structure DecodeAgree (t t' : State) : Prop where
  st : t'.st = t.st
  fcause : t'.fcause = t.fcause
  wreg : t'.wreg = t.wreg
  hreg : t'.hreg = t.hreg
  x : t'.x = t.x
  y : t'.y = t.y
  bitIdx : t'.bitIdx = t.bitIdx
  curByte : t'.curByte = t.curByte
  olen : t'.olen = t.olen
  out : ∀ i < t.olen.toNat, cellsFind t'.msgout i = cellsFind t.msgout i

namespace DecodeAgree

variable {t t' : State} (h : DecodeAgree t t')
include h

theorem setSt (v : SeqState) : DecodeAgree (setSt v t) (setSt v t') := { h with st := rfl }

theorem raiseFault (c : FaultCause) : DecodeAgree (raiseFault c t) (raiseFault c t') :=
  { h with st := rfl, fcause := rfl }

theorem setRunning (b : Byte) (j : BitIndex) : DecodeAgree (setRunning b j t) (setRunning b j t') :=
  { h with bitIdx := rfl, curByte := rfl }

theorem appendOut (b : Byte) (hroom : t.olen.toNat + 1 < 2 ^ 32) : DecodeAgree (appendOut b t) (appendOut b t') where
  __ := h
  olen := congrArg (· + 1#32) h.olen
  out i hi := by
    rw [appendOut_olen, BitVec.toNat_add_of_lt hroom] at hi
    rw [appendOut_msgout, appendOut_msgout, cellsFind_memWrite, cellsFind_memWrite, h.olen]
    split
    · rfl
    · exact h.out i (by change i < t.olen.toNat + 1 at hi; omega)

theorem decodeAdvance (ht : InGrid t) (ht' : InGrid t') : DecodeAgree (decodeAdvance t) (decodeAdvance t') := by
  by_cases hl : t.x.toNat = t.wreg.toNat - 1 ∧ t.y.toNat = t.hreg.toNat - 1
  · rw [ht.decodeAdvance_last hl, ht'.decodeAdvance_last (by rwa [h.x, h.y, h.wreg, h.hreg])]
    exact h.setSt _
  · rw [ht.decodeAdvance_more hl, ht'.decodeAdvance_more (by rwa [h.x, h.y, h.wreg, h.hreg])]
    rw [h.x, h.y, h.wreg]
    exact { h with wreg := rfl, x := rfl, y := rfl }

/-- The same bit shifted in, and the same tests (R132): MCAP is the one parameter they read. -/
theorem decodeShifted (hi : StateInv t) (hi' : StateInv t') (hst : t.st = .decBusy) (hcap : t.cfg.mcap = t'.cfg.mcap)
    (cb : Byte) : DecodeAgree (decodeShifted cb t) (decodeShifted cb t') := by
  have hg := hi.inGrid hst
  have hg' := hi'.inGrid (h.st.trans hst)
  by_cases h7 : t.bitIdx = 7#3
  · have h7' : t'.bitIdx = 7#3 := h.bitIdx.trans h7
    by_cases hcb : cb = sentinel
    · rw [decodeShifted_found h7 hcb, decodeShifted_found h7' hcb]
      exact (h.setRunning _ _).setSt _
    by_cases hfull : t.olen.toNat = t.cfg.mcap
    · rw [decodeShifted_full h7 hcb hfull, decodeShifted_full h7' hcb (by rw [h.olen, hfull, hcap])]
      exact h.raiseFault _
    · rw [decodeShifted_store h7 hcb hfull, decodeShifted_store h7' hcb (by rwa [h.olen, ← hcap])]
      have hroom : t.olen.toNat + 1 < 2 ^ 32 := by
        obtain ⟨-, hle⟩ := olen_succ hi hfull
        obtain ⟨-, -, -, -, -, hmax⟩ := hi.cfg
        omega
      exact ((h.appendOut cb hroom).setRunning 0#8 0#3).decodeAdvance ((hg.appendOut cb).setRunning _ _)
        ((hg'.appendOut cb).setRunning _ _)
  · rw [decodeShifted_shift h7, decodeShifted_shift (by rwa [h.bitIdx]), h.bitIdx]
    exact (h.setRunning cb (t.bitIdx + 1#3)).decodeAdvance (hg.setRunning _ _) (hg'.setRunning _ _)

end DecodeAgree

theorem blueLsb_eq_of_lsbs {g g' : Grid} (h : lsbs g = lsbs g') {n : Nat} (hn : n < g.w.toNat * g.h.toNat)
    (hn' : n < g'.w.toNat * g'.h.toNat) : blueLsb g n = blueLsb g' n := by
  have := lsbs_getElem? g hn
  rw [h, lsbs_getElem? g' hn'] at this
  exact (Option.some.inj this).symm

theorem DecRun.step_eq {c : Config} {g : Grid} {k : Nat} {u : State} (hu : DecRun c g k u) :
    Machine.step u = .next (decodeShifted (shiftIn u.curByte (blueLsb g k)) u) := by
  obtain ⟨hst, hinv, -, hq, -, rfl, rfl⟩ := hu
  rw [step_nil hq, engineStep_decBusy hst, decodeScanStep_scanning (hinv.dec hst)]

section Lockstep

variable {c c' : Config} {g g' : Grid} (hcap : c.mcap = c'.mcap) (hlsb : lsbs g = lsbs g')
include hcap hlsb

/-- Two DECODEs at the same pixel take their scan steps alike. -/
theorem DecodeAgree.step {k : Nat} {t t' v : State} (h : DecodeAgree t t') (ht : DecRun c g k t)
    (ht' : DecRun c' g' k t') (hv : Machine.step t = .next v) :
    ∃ v', Machine.step t' = .next v' ∧ DecodeAgree v v' := by
  rw [ht.step_eq] at hv
  cases hv
  refine ⟨_, ht'.step_eq, ?_⟩
  rw [h.curByte, blueLsb_eq_of_lsbs hlsb ht.position.1 ht'.position.1]
  exact h.decodeShifted ht.inv ht'.inv ht.st (by rw [ht.cfg, ht'.cfg, hcap]) _

theorem DecodeAgree.run {j k : Nat} {t t' u : State} (h : DecodeAgree t t') (ht : DecRun c g j t)
    (ht' : DecRun c' g' j t') (hu : Machine.run k t = .next u) :
    ∃ u', Machine.run k t' = .next u' ∧ DecodeAgree u u' := by
  induction k generalizing j t t' with
  | zero => cases hu; exact ⟨t', rfl, h⟩
  | succ k ih =>
    obtain ⟨v, hv, hrun⟩ := exists_step_of_run_succ hu
    obtain ⟨v', hv', hagree⟩ := h.step hcap hlsb ht ht' hv
    rw [run_succ hv']
    rcases ht.step_cases hv with hmore | ⟨hb, hq, -⟩
    · exact ih hagree hmore (ht'.of_run (run_one hv') (hagree.st.trans hmore.st)) hrun
    · obtain ⟨hq', -⟩ := run_quiet_frame ht'.quiet (run_one hv')
      have hb' : busy v' = false := by
        unfold busy at hb ⊢
        rwa [hagree.st]
      rw [run_idle hq hb] at hrun
      cases hrun
      exact ⟨v', run_idle hq' hb' k, hagree⟩

end Lockstep

/-- Two STARTs on grids of the same size leave the same registers and an empty output. -/
theorem decodeAgree_begin {s s' : State} (hs : Startable s) (hs' : Startable s') (hw : s.grid.w = s'.grid.w)
    (hh : s.grid.h = s'.grid.h) : DecodeAgree (beginDecode (sampleDims s)) (beginDecode (sampleDims s')) := by
  rw [beginDecode_eq, beginDecode_eq]
  exact {
    st := rfl
    fcause := (fcause_eq_of_startable hs hs' :)
    wreg := hw.symm
    hreg := hh.symm
    x := rfl
    y := rfl
    bitIdx := rfl
    curByte := rfl
    olen := rfl
    out := nofun }

/-- Settles O58: both command words begin a running DECODE, and the two run in lockstep. -/
theorem decodeDependsOnTheLsbsOnly : Obligations.DecodeDependsOnTheLsbsOnly := by
  intro s s' hs hs' hcap hw hh hlsb hw1 hh1 k t h
  obtain ⟨hstep, hstart⟩ := step_fetch_decode_begins hs hw1 hh1
  obtain ⟨hstep', hstart'⟩ := step_fetch_decode_begins hs' (hw ▸ hw1) (hh ▸ hh1)
  rw [run_succ hstep] at h
  obtain ⟨t', hrun, ha⟩ := (decodeAgree_begin (hs.reply .ok) (hs'.reply .ok) hw hh).run hcap hlsb hstart hstart' h
  exact ⟨t', (run_succ hstep' k).trans hrun, ha.st, ha.fcause, ha.wreg, ha.hreg, ha.x, ha.y, ha.bitIdx, ha.curByte,
    ha.olen, ha.out⟩

end Sys2Proof.Machine

/-! PROOFS of the family 44_host_port: what a port read answers (R150), what a port write stores (R151), the access table
(R152, R158), and the command a CMD write runs (R153). -/

namespace Sys2Proof.Machine

open Sys2Proof

/-! ## START (44_host_port R153) -/

/-- Settles O4: a CMD write in a READY state is START, and START is the decoder's case split. -/
theorem stepRunsTheDecodedCommand : Obligations.StepRunsTheDecodedCommand := by
  intro s v hr
  refine ⟨fun rest i hs hd => ?_, fun rest hs h1 h2 => ?_, fun i hd => step_withFetchWord hr hd 32⟩
  · rw [step_cmd hs, if_pos hr, startCommand_instr hd]
    rfl
  · exact step_cmd_illegal hs hr (decode_eq_illegal_iff.2 ⟨h1, h2⟩)

/-- START answers nothing of its own: the `ok` of the write stands, also where START ends in a fault (R151). -/
theorem startCommand_replies {v : Word} {s t : State} (h : startCommand v s = .next t) : t.replies = s.replies := by
  rcases startCommand_cases h with ⟨i, -, he⟩ | rfl
  · obtain ⟨-, -, -, -, -, -, hreplies, -⟩ := exec_frame he
    exact hreplies
  · rfl

/-! ## Mapped addresses (44_host_port R158) -/

theorem resolve_eq_reg_iff {c : Config} {a : HostAddr} {r : RegName} :
    resolve c a = some (.reg r) ↔ a = regAddr r :=
  ⟨eq_regAddr_of_resolve, fun h => h ▸ resolve_regAddr c r⟩

/-- The index of a mapped address of a message buffer is the index of a cell. -/
theorem index_lt_of_mapped {c : Config} {a : HostAddr} (h : resolve c a ≠ none) (hsp : a.space = 1#2 ∨ a.space = 2#2) :
    a.index.toNat < c.mcap :=
  Nat.lt_of_not_le fun hle => h (resolve_eq_none.2 (.inr (.inr ⟨hsp, hle⟩)))

/-! ## The access table (44_host_port R152) -/

theorem readAllowed_iff {s : State} {t : Target} : readAllowed s t = true ↔ busy s = false ∨ t = .reg .status := by
  cases hb : busy s with
  | false => simp [readAllowed_of_not_busy hb]
  | true => simp [readAllowed_of_busy hb]

theorem writeAllowed_iff {s : State} {t : Target} :
    writeAllowed s t = true ↔ ready s = true ∧ (t = .reg .cmd ∨ t = .reg .mlen ∨ ∃ i, t = .msgin i) := by
  unfold writeAllowed
  split <;> simp

/-- A read is refused exactly where its address is unmapped or, while BUSY, is not that of STATUS. -/
theorem readAllowed_eq_false_iff {s : State} {a : HostAddr} :
    (∀ t, resolve s.cfg a = some t → readAllowed s t = false) ↔
      resolve s.cfg a = none ∨ (busy s = true ∧ a ≠ regAddr .status) := by
  rw [← resolve_eq_reg_iff (c := s.cfg) |>.ne]
  cases resolve s.cfg a with
  | none => simp
  | some t => simp [← Bool.not_eq_true, readAllowed_iff]

/-- A write is refused at an unmapped address, in a state that is not READY, and at any register but CMD and MLEN and
any cell but MSGIN's. -/
theorem writeAllowed_eq_false {s : State} {a : HostAddr}
    (h : resolve s.cfg a = none ∨ ready s = false ∨ ¬ (a.space = 1#2 ∨ a = regAddr .cmd ∨ a = regAddr .mlen))
    (t : Target) (ht : resolve s.cfg a = some t) : writeAllowed s t = false := by
  rw [← Bool.not_eq_true, writeAllowed_iff]
  rintro ⟨hr, hw⟩
  rcases h with h | h | h
  · exact absurd (h.symm.trans ht) nofun
  · exact absurd (h.symm.trans hr) nofun
  · rcases hw with rfl | rfl | ⟨i, rfl⟩
    · exact h (.inr (.inl (resolve_eq_reg_iff.1 ht)))
    · exact h (.inr (.inr (resolve_eq_reg_iff.1 ht)))
    · exact h (.inl (msgin_of_resolve ht).1)

/-! ## Reads (44_host_port R150) -/

section Read

variable {s : State} {a : HostAddr} {rest : List HostMove}

theorem step_read_refused (hs : s.script = .read a :: rest)
    (h : resolve s.cfg a = none ∨ (busy s = true ∧ a ≠ regAddr .status)) :
    step s = .next (reply .err (setScript rest s)) :=
  (step_read hs).trans (congrArg _ (hostRead_refused (s := setScript rest s) (readAllowed_eq_false_iff.2 h)))

theorem step_read_performed (hs : s.script = .read a :: rest) {t : Target} (ht : resolve s.cfg a = some t)
    (hr : readAllowed s t = true) : step s = .next (readTarget (setScript rest s) t) :=
  (step_read hs).trans (congrArg _ (hostRead_performed (s := setScript rest s) ht hr))

/-- A read of a cell that holds a byte answers that byte, zero-extended (20_memory R46). -/
theorem readCell_of_holds {m : Memory} {i : Nat} {b : Byte} (h : cellsFind m i = some b) (s : State) :
    readCell m i s = reply (.data (BitVec.ofNat 32 b.toNat)) s := by
  unfold readCell
  rw [h, BitVec.ofNat_toNat]

theorem sameMachine_of_step_read (hs : s.script = .read a :: rest) {t : State} (h : step s = .next t) :
    SameMachine s t := by
  rw [step_read hs] at h
  cases h
  exact (sameMachine_setScript rest s).trans (sameMachine_hostRead a _)

theorem readCell_replies (m : Memory) (i : Nat) (s : State) : (readCell m i s).replies =
    .data (((cellsFind m i).getD (Config.freeByte s.freeCtr)).setWidth 32) :: s.replies := by
  unfold readCell
  split <;> next h => rw [h]; rfl

theorem readCell_script (m : Memory) (i : Nat) (s : State) : (readCell m i s).script = s.script := by
  unfold readCell
  split <;> rfl

/-- The word of a performed read (R150). A cell that holds no byte answers the free value to be drawn next. -/
def readValue (s : State) : Target → Word
  | .reg r => readReg s r
  | .msgin i => ((cellsFind s.msgin i).getD (Config.freeByte s.freeCtr)).setWidth 32
  | .msgout i => ((cellsFind s.msgout i).getD (Config.freeByte s.freeCtr)).setWidth 32

theorem readTarget_replies (t : Target) : (readTarget s t).replies = .data (readValue s t) :: s.replies := by
  cases t with
  | reg r => rfl
  | msgin i => exact readCell_replies s.msgin i s
  | msgout i => exact readCell_replies s.msgout i s

theorem readTarget_script (t : Target) : (readTarget s t).script = s.script := by
  cases t with
  | reg r => rfl
  | msgin i => exact readCell_script s.msgin i s
  | msgout i => exact readCell_script s.msgout i s

theorem readValue_msgin {i : Nat} {b : Byte} (h : cellsFind s.msgin i = some b) :
    readValue s (.msgin i) = BitVec.ofNat 32 b.toNat := by
  rw [readValue, h, Option.getD_some, BitVec.ofNat_toNat]

theorem readValue_msgout {i : Nat} {b : Byte} (h : cellsFind s.msgout i = some b) :
    readValue s (.msgout i) = BitVec.ofNat 32 b.toNat := by
  rw [readValue, h, Option.getD_some, BitVec.ofNat_toNat]

/-- A read that the table does not refuse answers the word of what its address resolves to. -/
theorem step_read_answers (hs : s.script = .read a :: rest)
    (h : ¬ (resolve s.cfg a = none ∨ (busy s = true ∧ a ≠ regAddr .status))) :
    ∃ tg t, resolve s.cfg a = some tg ∧ step s = .next t ∧ t.script = rest ∧
      t.replies = .data (readValue s tg) :: s.replies := by
  rw [← readAllowed_eq_false_iff] at h
  push Not at h
  obtain ⟨tg, htg, hallowed⟩ := h
  exact ⟨tg, _, htg, step_read_performed hs htg (by simpa using hallowed), readTarget_script tg, readTarget_replies tg⟩

end Read

/-- Settles O27: a refused read by the table, a performed one by what its address resolves to. -/
theorem hostReadReturnsTheRegister : Obligations.HostReadReturnsTheRegister := by
  intro s a rest hs
  refine ⟨step_read_refused hs, ?_, ?_, ?_, fun t => sameMachine_of_step_read hs⟩
  · rintro r rfl hr
    have hallowed : readAllowed s (.reg r) = true := readAllowed_iff.2 (hr.imp_right (congrArg _))
    rw [step_read_performed hs (resolve_regAddr _ r) hallowed]
    cases r with
    | width => rw [BitVec.ofNat_toNat 32 s.wreg]; rfl
    | height => rw [BitVec.ofNat_toNat 32 s.hreg]; rfl
    | _ => rfl
  · intro b hsp hb hi hcell
    rw [step_read_performed hs (resolve_msgin hsp hi) (readAllowed_of_not_busy hb _)]
    exact congrArg _ (readCell_of_holds hcell _)
  · intro b hsp hb hi hcell
    rw [step_read_performed hs (resolve_msgout hsp hi) (readAllowed_of_not_busy hb _)]
    exact congrArg _ (readCell_of_holds hcell _)

/-! ## Writes (44_host_port R151) -/

section Write

variable {s : State} {a : HostAddr} {v : Word} {rest : List HostMove}

theorem step_write_refused (hs : s.script = .write a v :: rest)
    (h : resolve s.cfg a = none ∨ ready s = false ∨ ¬ (a.space = 1#2 ∨ a = regAddr .cmd ∨ a = regAddr .mlen)) :
    step s = .next (reply .err (setScript rest s)) :=
  (step_write hs).trans (hostWrite_refused (s := setScript rest s) (writeAllowed_eq_false h))

theorem step_write_mlen (hs : s.script = .write (regAddr .mlen) v :: rest) (hr : ready s = true) :
    step s = .next (setMlen v (reply .ok (setScript rest s))) :=
  (step_write hs).trans (hostWrite_performed (s := setScript rest s) (resolve_regAddr _ .mlen) hr)

theorem step_write_msgin (hs : s.script = .write a v :: rest) (hr : ready s = true) (hsp : a.space = 1#2)
    (hi : a.index.toNat < s.cfg.mcap) :
    step s = .next (setMsgin a.index.toNat (v.extractLsb' 0 8) (reply .ok (setScript rest s))) := by
  rw [← BitVec.setWidth_eq_extractLsb' (by decide), step_write hs]
  exact hostWrite_performed (s := setScript rest s) (resolve_msgin hsp hi) hr

theorem step_write_cmd (hs : s.script = .write (regAddr .cmd) v :: rest) (hr : ready s = true) :
    step s = startCommand v (reply .ok (setScript rest s)) :=
  (step_cmd hs).trans (if_pos hr)

end Write

/-- Settles O28: the three writable addresses by their own lemmas, any other by the table. -/
theorem hostWriteStoresMlenAndMsgin : Obligations.HostWriteStoresMlenAndMsgin := by
  intro s a v rest hs hr
  refine ⟨fun hcmd hmlen hmsgin => step_write_refused hs ?_, ?_, ?_, ?_⟩
  · by_cases hsp : a.space = 1#2
    · exact .inl (by_contra fun hmapped => hmsgin ⟨hsp, index_lt_of_mapped hmapped (.inl hsp)⟩)
    · exact .inr (.inr (by simp [hsp, hcmd, hmlen]))
  · rintro rfl
    exact step_write_mlen hs hr
  · exact fun hsp hi => ⟨_, step_write_msgin hs hr hsp hi, fun j => cellsFind_memWrite _ _ j _⟩
  · rintro rfl
    exact step_write_cmd hs hr

/-! ## The access table, refused or performed (44_host_port R152, R158) -/

/-- Settles O29: the unmapped addresses are those that resolve to nothing; then the read rows and the write rows, each
refused or performed. -/
theorem accessTableBySequencerState : Obligations.AccessTableBySequencerState := by
  intro s a rest
  simp only [← resolve_eq_none]
  refine ⟨fun hs => ⟨step_read_refused hs, fun h => ?_⟩,
    fun v hs => ⟨step_write_refused hs, fun hmapped hr => ⟨?_, ?_, ?_⟩⟩⟩
  · obtain ⟨tg, t, htg, hstep, hscript, hreplies⟩ := step_read_answers hs h
    have hmapped : resolve s.cfg a ≠ none := by simp [htg]
    have hanswer {tg'} (h' : resolve s.cfg a = some tg') : readValue s tg = readValue s tg' :=
      congrArg _ (Option.some.inj (htg.symm.trans h'))
    have hreg (r) (ha : a = regAddr r) : readValue s tg = readReg s r := hanswer (resolve_eq_reg_iff.2 ha)
    refine ⟨t, readValue s tg, hstep, sameMachine_of_step_read hs hstep, hscript, hreplies, hreg .cmd, hreg, ?_, ?_⟩
    · intro b hsp hcell
      exact (hanswer (resolve_msgin hsp (index_lt_of_mapped hmapped (.inl hsp)))).trans (readValue_msgin hcell)
    · intro b hsp hcell
      exact (hanswer (resolve_msgout hsp (index_lt_of_mapped hmapped (.inr hsp)))).trans (readValue_msgout hcell)
  · rintro rfl
    exact step_write_mlen hs hr
  · exact fun hsp => step_write_msgin hs hr hsp (index_lt_of_mapped hmapped (.inl hsp))
  · rintro rfl
    have hstart := step_write_cmd hs hr
    exact ⟨hstart, fun t h => startCommand_replies (hstart.symm.trans h)⟩

end Sys2Proof.Machine

/-! PROOFS of the family 60_exceptions: the order of the checks of a CMD write (R184) with BAD_DIM (R176), OUT_FULL (R178),
GRID_BOUNDS (R84, R179) and the FAULT state (R182). -/

namespace Sys2Proof.Machine

open Sys2Proof

/-! ## BAD_DIM (60_exceptions R176) -/

/-- Settles O9: both START steps test the sampled dimensions first. -/
theorem zeroDimensionFaults : Obligations.ZeroDimensionFaults := by
  intro i s hr h0
  simp only [toNat_eq_zero_iff] at h0
  cases i with
  | encode => exact execEncode_badDim hr h0
  | decode => exact execDecode_badDim hr h0

/-! ## The checks of a CMD write, in order (60_exceptions R184) -/

/-- Checks (3) to (6) of R184 for ENCODE, where R191 does not refuse the launch. -/
theorem exec_encode_checks {s : State} (hr : ready s = true)
    (hwr : s.mlen.toNat ≤ s.cfg.mcap → 8 * (s.mlen.toNat + 1) ≤ s.grid.w.toNat * s.grid.h.toNat →
      ∀ i < s.mlen.toNat, ∃ b, cellsFind s.msgin i = some b) :
    ∃ t, exec .encode s = .next t ∧ (t.st, t.fcause) =
      if s.grid.w.toNat = 0 ∨ s.grid.h.toNat = 0 then (.faulted, .badDim)
      else if s.mlen.toNat > s.cfg.mcap then (.faulted, .badMlen)
      else if 8 * (s.mlen.toNat + 1) > s.grid.w.toNat * s.grid.h.toNat then (.capExceeded, s.fcause)
      else (.encBusy, s.fcause) := by
  simp only [toNat_eq_zero_iff]
  by_cases hdim : s.grid.w = 0#16 ∨ s.grid.h = 0#16
  · exact ⟨_, execEncode_badDim hr hdim, (if_pos hdim).symm⟩
  obtain ⟨hw, hh⟩ := not_or.1 hdim
  rw [if_neg hdim]
  by_cases hlen : s.mlen.toNat > s.cfg.mcap
  · exact ⟨_, execEncode_badMlen hr hw hh hlen, (if_pos hlen).symm⟩
  rw [if_neg hlen]
  have hle := Nat.le_of_not_lt hlen
  by_cases hcap : 8 * (s.mlen.toNat + 1) > s.grid.w.toNat * s.grid.h.toNat
  · exact ⟨_, execEncode_exceeds hr hw hh hle hcap, (if_pos hcap).symm⟩
  · have hfits := Nat.le_of_not_lt hcap
    have hwritten : ∀ i < s.mlen.toNat, (cellsFind s.msgin i).isSome = true :=
      fun i hi => Option.isSome_iff_exists.2 (hwr hle hfits i hi)
    exact ⟨_, execEncode_begins hr hw hh hle hfits hwritten, (if_neg hcap).symm⟩

/-- Checks (3) and (6) of R184 for DECODE. -/
theorem exec_decode_checks {s : State} (hr : ready s = true) :
    ∃ t, exec .decode s = .next t ∧ (t.st, t.fcause) =
      if s.grid.w.toNat = 0 ∨ s.grid.h.toNat = 0 then (.faulted, .badDim) else (.decBusy, s.fcause) := by
  simp only [toNat_eq_zero_iff]
  by_cases hdim : s.grid.w = 0#16 ∨ s.grid.h = 0#16
  · exact ⟨_, execDecode_badDim hr hdim, (if_pos hdim).symm⟩
  · obtain ⟨hw, hh⟩ := not_or.1 hdim
    exact ⟨_, execDecode_begins hr hw hh, (if_neg hdim).symm⟩

/-- Checks (3) to (6) of R184 as one chain for the word of either command. -/
theorem exec_checks {i : Instr} {s : State} (hr : ready s = true)
    (hwr : encode i = 0x00000001#32 → s.mlen.toNat ≤ s.cfg.mcap →
      8 * (s.mlen.toNat + 1) ≤ s.grid.w.toNat * s.grid.h.toNat →
      ∀ j < s.mlen.toNat, ∃ b, cellsFind s.msgin j = some b) :
    ∃ t, exec i s = .next t ∧ (t.st, t.fcause) =
      if s.grid.w.toNat = 0 ∨ s.grid.h.toNat = 0 then (.faulted, .badDim)
      else if encode i = 0x00000001#32 ∧ s.mlen.toNat > s.cfg.mcap then (.faulted, .badMlen)
      else if encode i = 0x00000001#32 ∧ 8 * (s.mlen.toNat + 1) > s.grid.w.toNat * s.grid.h.toNat then
        (.capExceeded, s.fcause)
      else if encode i = 0x00000001#32 then (.encBusy, s.fcause)
      else (.decBusy, s.fcause) := by
  cases i with
  | encode => simpa [encode] using exec_encode_checks hr (hwr rfl)
  | decode => simpa [encode] using exec_decode_checks hr

/-- Settles O6: the port's check, then the decoder's, then those of the decoded command's START step. -/
theorem commandChecksComeInOrder : Obligations.CommandChecksComeInOrder := by
  intro s rest v hs hwr
  cases hr : ready s with
  | false => exact ⟨_, step_write_refused hs (.inr (.inl hr)), fun _ => rfl, rfl⟩
  | true =>
    rw [if_neg nofun]
    cases hd : decode v with
    | rejected r =>
      rw [if_pos (decode_eq_illegal_iff.1 hd)]
      exact ⟨_, step_cmd_illegal hs hr hd, nofun, rfl⟩
    | instr i =>
      rw [if_neg (mt decode_eq_illegal_iff.2 (by simp [hd]))]
      obtain rfl := decode_eq_instr hd
      obtain ⟨t, ht, hchecks⟩ := exec_checks (s := reply .ok (setScript rest s)) hr hwr
      exact ⟨t, (step_write_cmd hs hr).trans ((startCommand_instr hd _).trans ht), nofun, hchecks⟩

/-! ## OUT_FULL (60_exceptions R178) -/

/-- A DECODE scan step in bounds writes FCAUSE exactly where it completes a byte that is not the sentinel and finds MSGOUT
full. -/
theorem decodeShifted_outFull_or (cb : Byte) (s : State) :
    ((s.bitIdx = 7#3 ∧ cb ≠ sentinel ∧ s.olen.toNat = s.cfg.mcap) ∧ decodeShifted cb s = raiseFault .outFull s) ∨
      (¬ (s.bitIdx = 7#3 ∧ cb ≠ sentinel ∧ s.olen.toNat = s.cfg.mcap) ∧ (decodeShifted cb s).fcause = s.fcause) := by
  by_cases h7 : s.bitIdx = 7#3
  · by_cases hcb : cb = sentinel
    · rw [decodeShifted_found h7 hcb]
      exact .inr ⟨fun ⟨_, hne, _⟩ => hne hcb, rfl⟩
    by_cases hfull : s.olen.toNat = s.cfg.mcap
    · exact .inl ⟨⟨h7, hcb, hfull⟩, decodeShifted_full h7 hcb hfull⟩
    · rw [decodeShifted_store h7 hcb hfull]
      exact .inr ⟨fun ⟨_, _, heq⟩ => hfull heq, decodeAdvance_fcause _⟩
  · rw [decodeShifted_shift h7]
    exact .inr ⟨fun ⟨heq, _⟩ => h7 heq, decodeAdvance_fcause _⟩

theorem StateInv.fcause_of_busy {s : State} (hi : StateInv s) (hb : busy s = true) : s.fcause = .none :=
  not_ne_iff.1 (mt hi.fault.2 (st_ne_faulted_of_busy hb))

/-- Settles O16: at BITIDX = 7 the shift-in completes the recovered byte at OLEN, and only the full buffer's branch writes
FCAUSE; it is taken at pixel 8 * MCAP + 7, which is in the grid. -/
theorem outFullFaultKeepsTheRecoveredBytes : Obligations.OutFullFaultKeepsTheRecoveredBytes := by
  intro s v t hturn hi hp hst hstep
  have h := hi.dec hst
  rw [hturn.step, engineStep_decBusy hst, decodeScanStep_scanning h] at hstep
  obtain rfl := Host.Outcome.next.inj hstep
  rcases decodeShifted_outFull_or (shiftIn v.curByte (blueLsb v.grid (decVisited v))) v with
    ⟨⟨h7, hcb, holen⟩, heq⟩ | ⟨hnot, hfc⟩
  · rw [heq]
    rw [hp.completed hst h h7] at hcb
    refine ⟨⟨fun _ => ⟨h7, hcb, holen⟩, fun _ => rfl⟩, fun _ => ⟨rfl, holen, fun k hk => ?_, ?_⟩⟩
    · exact hp.out hst k (holen ▸ hk)
    · have hvisited := h.visited_eq
      have hlt := h.visited_lt
      rw [h.wreg_grid, h.hreg_grid] at hlt
      rw [(bitIdx_seven_iff _).1 h7, holen] at hvisited
      change v.cfg.mcap < v.grid.w.toNat * v.grid.h.toNat / 8
      omega
  · rw [hfc, hi.fcause_of_busy ((busy_iff v).2 (.inr hst))]
    refine ⟨⟨nofun, fun ⟨h7, hcb, holen⟩ => absurd ⟨h7, ?_, holen⟩ hnot⟩, nofun⟩
    rw [hp.completed hst h h7]
    exact hcb

/-! ## GRID_BOUNDS (40_pixelgrid R84, 60_exceptions R179) -/

theorem decodeScanStep_outOfBounds {s : State} (h : getBlue s.grid s.x.toNat s.y.toNat = none) :
    decodeScanStep s = .next (raiseFault .gridBounds s) := by
  simp only [decodeScanStep, h]

theorem encodeScanStep_outOfBounds {s : State} {p : Byte} (hp : payload s s.byteIdx.toNat = some p)
    (h : getBlue s.grid s.x.toNat s.y.toNat = none) : encodeScanStep s = .next (raiseFault .gridBounds s) := by
  simp only [encodeScanStep, hp, h]

/-- The causes the START step of a command raises. -/
theorem exec_fcause_cases {i : Instr} {s t : State} (h : exec i s = .next t) :
    t.fcause = s.fcause ∨ t.fcause = .badDim ∨ t.fcause = .badMlen := by
  cases i with
  | encode =>
    rcases execEncode_cases h with ⟨-, rfl⟩ | ⟨-, ⟨rfl, -⟩ | ⟨rfl, -⟩ | ⟨rfl, -⟩ | ⟨rfl, -⟩⟩
    · exact .inl rfl
    · exact .inr (.inl rfl)
    · exact .inr (.inr rfl)
    · exact .inl rfl
    · exact .inl rfl
  | decode =>
    rcases execDecode_cases h with ⟨-, rfl⟩ | ⟨-, ⟨rfl, -⟩ | ⟨rfl, -⟩⟩
    · exact .inl rfl
    · exact .inr (.inl rfl)
    · exact .inl rfl

/-- Under the invariant the engine raises OUT_FULL and no other cause: the coordinates of a running operation are in
bounds. -/
theorem StateInv.engineStep_fcause {s t : State} (hi : StateInv s) (h : Machine.engineStep s = .next t) :
    t.fcause = s.fcause ∨ t.fcause = .outFull := by
  cases hb : busy s with
  | false => rw [engineStep_idle hb] at h; cases h; exact .inl rfl
  | true =>
    rcases (busy_iff s).1 hb with he | hd
    · obtain ⟨p, hp⟩ := (hi.enc he).payload
      rw [engineStep_encBusy he, encodeScanStep_scanning (hi.enc he) hp] at h
      cases h
      exact .inl (encodeAdvance_fcause _)
    · rw [engineStep_decBusy hd, decodeScanStep_scanning (hi.dec hd)] at h
      cases h
      rcases decodeShifted_outFull_or (shiftIn s.curByte (blueLsb s.grid (decVisited s))) s with ⟨-, heq⟩ | ⟨-, hfc⟩
      · rw [heq]
        exact .inr rfl
      · exact .inl hfc

/-- GRID_BOUNDS is not among the causes that the engine, START or reset write under the invariant. -/
theorem StateInv.step_fcause_eq_or_ne_gridBounds {s t : State} (hi : StateInv s) (h : Machine.step s = .next t) :
    t.fcause = s.fcause ∨ t.fcause ≠ .gridBounds := by
  rcases step_effect h with ⟨u, hu, he⟩ | ⟨rest, hs, rfl⟩ | hsame | ⟨-, i, rest, u, hu, -, he⟩ | ⟨-, u, -, rfl⟩ |
    ⟨-, v, rest, u, hu, -, rfl⟩ | ⟨-, a, v, rest, u, hu, -, -, b, rfl⟩ | ⟨-, m, rest, u, g, hu, -, -, rfl⟩
  · rcases (inv_of_sameMachine hu.sameMachine hi).engineStep_fcause he with hf | hf
    · exact .inl (hf.trans hu.sameMachine.fcause)
    · exact .inr (by simp [hf])
  · exact .inr nofun
  · exact .inl hsame.fcause
  · rcases exec_fcause_cases he with hf | hf | hf
    · exact .inl (hf.trans hu.fcause)
    · exact .inr (by simp [hf])
    · exact .inr (by simp [hf])
  · exact .inr nofun
  · exact .inl hu.fcause
  · exact .inl hu.fcause
  · exact .inl hu.fcause

/-- Settles O17: out of bounds GetBlue is undefined, and it is the first access of a scan step; under the invariant no
step raises the cause. -/
theorem gridBoundsFaultIsUnreachable : Obligations.GridBoundsFaultIsUnreachable := by
  refine ⟨fun s v hturn hout hst => ?_, fun s t hi h hf => ?_⟩
  · have hnone : getBlue v.grid v.x.toNat v.y.toNat = none := getBlue_of_outOfBounds (by omega)
    rw [hturn.step]
    rcases hst with hd | ⟨he, hpay⟩
    · rw [engineStep_decBusy hd]
      exact decodeScanStep_outOfBounds hnone
    · obtain ⟨p, hp⟩ := Option.isSome_iff_exists.1 hpay
      rw [engineStep_encBusy he]
      exact encodeScanStep_outOfBounds hp hnone
  · rcases hi.step_fcause_eq_or_ne_gridBounds h with hsame | hne
    · exact hsame.symm.trans hf
    · exact absurd hf hne

/-! ## The FAULT state (60_exceptions R182) -/

theorem SameMachine.sameCore {s t : State} (h : SameMachine s t) : SameCore s t := by
  rw [h]
  rfl

theorem SameCore.setGrid {s t : State} (h : SameCore s t) (g : Grid) : SameCore s (Machine.setGrid g t) := by
  rw [h]
  rfl

section Faulted

variable {s : State} (hf : s.st = .faulted)
include hf

theorem busy_of_faulted : busy s = false := by
  simp [busy, hf]

theorem ready_of_faulted : ready s = false := by
  simp [ready, hf]

/-- In FAULT a step is reset, or it leaves all but pixel memory alone: the engine is idle and the port takes no write. -/
theorem step_of_faulted_cases {t : State} (h : step s = .next t) :
    (∃ rest, s.script = .reset :: rest ∧ t = applyReset (setScript rest s)) ∨ SameCore s t := by
  have hnr : ¬ ready s = true := by simp [ready_of_faulted hf]
  rcases step_effect h with ⟨u, hu, he⟩ | hreset | hsame | ⟨hr, -⟩ | ⟨hr, -⟩ | ⟨hr, -⟩ | ⟨hr, -⟩ |
    ⟨-, m, rest, u, g, hu, -, -, rfl⟩
  · have hsame := hu.sameMachine
    rw [engineStep_idle (busy_of_faulted (hsame.st.trans hf))] at he
    cases he
    exact .inr hsame.sameCore
  · exact .inl hreset
  · exact .inr hsame.sameCore
  · exact absurd hr hnr
  · exact absurd hr hnr
  · exact absurd hr hnr
  · exact absurd hr hnr
  · exact .inr (hu.sameCore.setGrid g)

end Faulted

/-- Settles O36: a step from FAULT is reset or touches pixel memory only; the access table refuses every write, and the
engine is idle. -/
theorem faultIsStickyUntilReset : Obligations.FaultIsStickyUntilReset := by
  intro s t hf h
  refine ⟨fun hno => ?_, fun rest hs => ?_, fun a v rest hs => ?_, engineStep_idle (busy_of_faulted hf)⟩
  · rcases step_of_faulted_cases hf h with ⟨rest, hs, -⟩ | hsame
    · exact absurd hs (hno rest)
    · exact hsame
  · rw [step_cons hs] at h
    cases h
    exact ⟨rfl, rfl⟩
  · rw [step_write_refused hs (.inr (.inl (ready_of_faulted hf)))] at h
    cases h
    exact ⟨rfl, rfl⟩

end Sys2Proof.Machine

/-! PROOFS of the family 70_reset_and_hazards: the values reset gives (R200), and who else changes ST. -/

namespace Sys2Proof.Machine

open Sys2Proof

/-! ## Reset (70_reset R200) -/

theorem step_reset {s : State} {rest : List HostMove} (hs : s.script = .reset :: rest) :
    step s = .next (applyReset (setScript rest s)) := by
  rw [step_cons hs]
  rfl

theorem statusWord_applyReset (s : State) : statusWord (applyReset s) = 0x00000000#32 := by
  simp [statusWord, causeCode, seqCode]

/-! ## Who changes ST (70_reset R200, 60_exceptions R187) -/

theorem SameCore.st {s t : State} (h : SameCore s t) : t.st = s.st := by rw [h]

theorem st_eq_faulted_of_not_ready_not_busy {s : State} (hr : ready s = false) (hb : busy s = false) :
    s.st = .faulted := by
  cases h : s.st <;> simp_all [ready, busy]

/-- In a READY state the engine leaves ST alone, as it is idle. -/
theorem engineStep_st_of_ready {s t : State} (hr : ready s = true) (h : engineStep s = .next t) : t.st = s.st := by
  rw [engineStep_idle (busy_of_ready hr)] at h
  cases h
  rfl

/-- Of the port writes only one to CMD changes ST. -/
theorem hostWrite_st {a : HostAddr} {v : Word} {s t : State} (h : hostWrite a v s = .next t) :
    t.st = s.st ∨ a = regAddr .cmd := by
  rcases hostWrite_cases h with rfl | ⟨-, ha, -⟩ | ⟨-, -, rfl⟩ | ⟨-, i, -, -, rfl⟩
  · exact .inl rfl
  · exact .inr (eq_regAddr_of_resolve ha)
  · exact .inl rfl
  · exact .inl rfl

/-- The host's moves on pixel memory leave ST alone. -/
theorem onGrid_st {s t : State} {k : StepResult}
    (hk : (∃ g, k = hostLoadGrid g s) ∨ (∃ x y b, k = hostWriteBlue x y b s) ∨ (∃ x y o, k = hostWriteOther x y o s) ∨
      (∃ x y, k = hostReadPixel x y s)) (h : onGrid s k = .next t) : t.st = s.st := by
  obtain ⟨-, h⟩ := onGrid_eq_next h
  rcases hk with ⟨g, rfl⟩ | ⟨x, y, b, rfl⟩ | ⟨x, y, o, rfl⟩ | ⟨x, y, rfl⟩
  · obtain ⟨-, rfl⟩ := hostLoadGrid_cases h
    rfl
  · obtain ⟨-, -, rfl⟩ := hostWriteBlue_cases h
    rfl
  · obtain ⟨-, -, -, rfl⟩ := hostWriteOther_cases h
    rfl
  · rw [hostReadPixel_cases h]
    rfl

/-- In a state that is not READY, ST changes only by reset or, while BUSY, in the engine's turn. -/
theorem step_st_of_not_ready {s t : State} (hr : ready s = false) (h : step s = .next t) :
    t.st = s.st ∨ (∃ rest, s.script = .reset :: rest) ∨
      (busy s = true ∧ ∃ v, EngineTurn s v ∧ engineStep v = .next t) := by
  cases hb : busy s with
  | true =>
    rcases step_of_busy_cases hb h with hengine | ⟨rest, hs, -⟩ | hsame
    · exact .inr (.inr ⟨rfl, hengine⟩)
    · exact .inr (.inl ⟨rest, hs⟩)
    · exact .inl hsame.st
  | false =>
    rcases step_of_faulted_cases (st_eq_faulted_of_not_ready_not_busy hr hb) h with ⟨rest, hs, -⟩ | hsame
    · exact .inr (.inl ⟨rest, hs⟩)
    · exact .inl hsame.st

/-- In a READY state, ST changes only by reset or by a write to CMD. -/
theorem step_st_of_ready {s t : State} (hr : ready s = true) (h : step s = .next t) :
    t.st = s.st ∨ (∃ rest, s.script = .reset :: rest) ∨ ∃ v rest, s.script = cmdMove v :: rest := by
  rcases step_cases h with ⟨u, hu, he⟩ | ⟨rest, hs, -⟩ | ⟨a, rest, -, rfl⟩ | ⟨a, v, rest, hs, hw⟩ |
    ⟨m, rest, k, -, -, hk, hg⟩ | ⟨rest, -, -, rfl⟩
  · have hru : ready u = true := by rw [hu]; exact hr
    exact .inl ((engineStep_st_of_ready hru he).trans hu.st)
  · exact .inr (.inl ⟨rest, hs⟩)
  · exact .inl (sameMachine_hostRead a (setScript rest s)).st
  · rcases hostWrite_st hw with hst | rfl
    · exact .inl hst
    · exact .inr (.inr ⟨v, rest, hs⟩)
  · have hst : t.st = (setScript rest s).st := onGrid_st hk hg
    exact .inl hst
  · exact .inl rfl

/-- Settles O34: the state after reset is written out, and a step that changes ST is none of those that keep it. -/
theorem resetTakesEveryRegisterToItsValue : Obligations.ResetTakesEveryRegisterToItsValue := by
  refine ⟨fun s rest hs => ⟨_, step_reset hs, rfl, statusWord_applyReset _, engineStep_idle rfl, rfl⟩,
    fun s t h hne hr => ?_, fun s t h hne hr => ?_⟩
  · exact (step_st_of_not_ready hr h).resolve_left hne
  · exact (step_st_of_ready hr h).resolve_left hne

end Sys2Proof.Machine

/-! PROOFS of the family other, the commands: the two invariants over a step (10_state R28), command words, and the
frames of the START steps and of the scan steps (42_encode R111, R112, 43_decode R131, R132). -/

namespace Sys2Proof.Machine

open Sys2Proof

/-! ## The two invariants over one step (10_state R28, 70_reset R201) -/

/-- Settles O45: `StateInv.step`, the case split over what a step can do. -/
theorem everyStepKeepsTheInvariant : Obligations.EveryStepKeepsTheInvariant :=
  fun _ _ hi h => hi.step h

theorem SameMachine.busy {s t : State} (h : SameMachine s t) : busy t = busy s := by
  rw [h]
  rfl

/-- Progress speaks of a running operation: only the engine's turn has one to keep, and only a START begins one. -/
theorem Progress.step {s t : State} (hi : StateInv s) (hp : Progress s) (h : Machine.step s = .next t) : Progress t := by
  rcases step_effect h with ⟨u, hu, he⟩ | ⟨rest, -, rfl⟩ | hsame | ⟨-, i, rest, u, hu, -, he⟩ | ⟨-, u, -, rfl⟩ |
    ⟨hr, v, rest, u, hu, -, rfl⟩ | ⟨hr, a, v, rest, u, hu, -, -, b, rfl⟩ | ⟨hb, m, rest, u, g, hu, -, -, rfl⟩
  · exact (progress_of_sameMachine hu.sameMachine hp).engineStep (inv_of_sameMachine hu.sameMachine hi) he
  · exact progress_of_not_busy rfl
  · exact progress_of_sameMachine hsame hp
  · exact (progress_of_sameMachine hu hp).exec he
  · exact progress_of_not_busy rfl
  · exact progress_of_not_busy (hu.busy.trans (busy_of_ready hr))
  · exact progress_of_not_busy (hu.busy.trans (busy_of_ready hr))
  · exact progress_of_not_busy (hu.busy.trans hb)

/-- Settles O46: `Progress.step`, the case split over what a step can do. -/
theorem everyStepKeepsTheProgress : Obligations.EveryStepKeepsTheProgress :=
  fun _ _ hi hp h => hp.step hi h

/-- The invariant after reset (10_state R28, R29): no operation runs, and every register is 0. -/
theorem stateInv_reset : StateInv State.reset where
  cfg := by decide
  grid := by decide
  msgin := rfl
  msgout := rfl
  wreg := by decide
  hreg := by decide
  x := by decide
  y := by decide
  olen := by decide
  fault := by decide
  enc := nofun
  dec := nofun

/-- Settles O35: after reset no operation runs, and each register is the one `State.reset` lists. -/
theorem resetStateMeetsTheInvariant : Obligations.ResetStateMeetsTheInvariant :=
  ⟨stateInv_reset, progress_of_not_busy rfl, rfl, rfl, rfl, rfl, rfl, rfl, rfl, rfl, rfl, rfl, rfl, rfl, rfl, rfl⟩

/-- Settles O47: reset writes neither GRID nor MSGOUT; the progress before it says what the visited pixels carry. -/
theorem resetDuringAnOperation : Obligations.ResetDuringAnOperation := by
  intro s t rest hi hp hs h
  rw [step_reset hs] at h
  cases h
  refine ⟨fun hst => ⟨rfl, ?_, hp.enc hst⟩, fun _ => ⟨rfl, rfl, rfl⟩⟩
  have hbyte := (hi.enc hst).byteIdx_lt
  have hreq := (hi.enc hst).req_eq
  have hbit := s.bitIdx.isLt
  unfold encVisited
  omega

/-! ## Command words and START (30_encoding R62, R63; 44_host_port R152) -/

/-- Settles O2: the decoder evaluated on the seven words of the table. -/
theorem tabledWordsDecodeToTheirRows : Obligations.TabledWordsDecodeToTheirRows := by
  unfold Obligations.TabledWordsDecodeToTheirRows
  decide

theorem exec_of_not_ready {s : State} (hr : ready s = false) (i : Instr) : exec i s = .next s := by
  cases i with
  | encode => exact if_neg (by simp [hr])
  | decode => exact if_neg (by simp [hr])

/-- Settles O5: the port refuses the CMD write, and each START step tests READY first. -/
theorem commandIsTurnedAwayUnlessReady : Obligations.CommandIsTurnedAwayUnlessReady := by
  refine fun s hr => ⟨fun rest v hs => ?_, exec_of_not_ready hr⟩
  rw [step_cmd hs, if_neg (by simp [hr])]
  rfl

/-! ## Frames of the START steps (42_encode R111, 43_decode R131) -/

/-- The registers the START step of ENCODE can write. -/
theorem execEncode_frame {s t : State} (h : execEncode s = .next t) :
    t = { s with avail := t.avail, req := t.req, wreg := t.wreg, hreg := t.hreg, x := t.x, y := t.y,
                 byteIdx := t.byteIdx, bitIdx := t.bitIdx, st := t.st, fcause := t.fcause } := by
  rcases execEncode_cases h with ⟨-, rfl⟩ | ⟨-, ⟨rfl, -⟩ | ⟨rfl, -⟩ | ⟨rfl, -⟩ | ⟨rfl, -⟩⟩ <;> rfl

/-- The registers the START step of DECODE can write. -/
theorem execDecode_frame {s t : State} (h : execDecode s = .next t) :
    t = { s with olen := t.olen, wreg := t.wreg, hreg := t.hreg, x := t.x, y := t.y, bitIdx := t.bitIdx,
                 curByte := t.curByte, st := t.st, fcause := t.fcause } := by
  rcases execDecode_cases h with ⟨-, rfl⟩ | ⟨-, ⟨rfl, -⟩ | ⟨rfl, -⟩⟩ <;> rfl

/-- Settles O11: each field outside the frame of the command's START step is read off the successor. -/
theorem startStepFrame : Obligations.StartStepFrame := by
  intro i s t h
  cases i with
  | encode =>
    rw [execEncode_frame h]
    exact ⟨rfl, rfl, rfl, rfl, rfl, rfl, rfl, rfl, fun _ => ⟨rfl, rfl⟩, nofun⟩
  | decode =>
    rw [execDecode_frame h]
    exact ⟨rfl, rfl, rfl, rfl, rfl, rfl, rfl, rfl, nofun, fun _ => ⟨rfl, rfl, rfl⟩⟩

/-! ## Frame of the ENCODE scan step (42_encode R112) -/

theorem pixelAt_embeddedGrid {s : State} (hx : s.x.toNat < s.grid.w.toNat) (p : Byte) {a : Nat} (b : Nat)
    (ha : a < s.grid.w.toNat) :
    pixelAt (embeddedGrid s p) a b =
      if a = s.x.toNat ∧ b = s.y.toNat then
        { pixelAt s.grid a b with blue := embedBit (pixelAt s.grid a b).blue (payloadBit p s.bitIdx.toNat) }
      else pixelAt s.grid a b := by
  rw [embeddedGrid, pixelAt_putPixel _ hx ha]
  split
  · next e => rw [e.1, e.2]
  · rfl

/-- All that an ENCODE scan step may write, in every state. -/
theorem encodeScanStep_frame {s t : State} (h : encodeScanStep s = .next t) :
    t = { s with grid := t.grid, x := t.x, y := t.y, byteIdx := t.byteIdx, bitIdx := t.bitIdx, st := t.st,
                 fcause := t.fcause } := by
  rcases encodeScanStep_cases h with rfl | ⟨p, -, -, -, rfl⟩
  · rfl
  · rw [encodeAdvance_setGrid_frame]

/-- Pixel memory after an ENCODE scan step: as before, or with one bit embedded in an in-bounds pixel (X, Y). -/
theorem encodeScanStep_grid {s t : State} (h : encodeScanStep s = .next t) :
    t.grid = s.grid ∨ ∃ p, s.x.toNat < s.grid.w.toNat ∧ t.grid = embeddedGrid s p := by
  rcases encodeScanStep_cases h with rfl | ⟨p, -, hx, -, rfl⟩
  · exact .inl rfl
  · exact .inr ⟨p, hx, encodeAdvance_grid _⟩

theorem encodeScanStep_refused {s : State} (h : payload s s.byteIdx.toNat = none) :
    encodeScanStep s = .refused .unwrittenMessage := by
  simp only [encodeScanStep, h]

/-- Settles O13: the registers by the step's frame; pixel memory is as before or has one bit embedded at (X, Y), and
EmbedBit keeps bits 7:1. -/
theorem encodeScanStepFrame : Obligations.EncodeScanStepFrame := by
  refine ⟨fun s v t hturn hst h => ?_, fun s v hturn hst hpay => ?_⟩
  · rw [hturn.step, engineStep_encBusy hst] at h
    refine ⟨encodeScanStep_frame h, ?_⟩
    rcases encodeScanStep_grid h with hg | ⟨p, hx, hg⟩
    · rw [hg]
      exact ⟨rfl, rfl, fun _ _ _ _ => ⟨rfl, rfl, fun _ => rfl⟩⟩
    · rw [hg]
      refine ⟨rfl, rfl, fun a b ha _ => ?_⟩
      rw [pixelAt_embeddedGrid hx p b ha]
      split
      · next e => exact ⟨rfl, embedBit_high _ _, fun hne => absurd (Prod.mk_inj.2 e) hne⟩
      · exact ⟨rfl, rfl, fun _ => rfl⟩
  · rw [hturn.step, engineStep_encBusy hst]
    exact encodeScanStep_refused hpay

/-! ## Frame of the DECODE scan step (43_decode R132) -/

theorem decodeAdvance_frame (s : State) : decodeAdvance s =
    { s with x := (decodeAdvance s).x, y := (decodeAdvance s).y, st := (decodeAdvance s).st } := by
  unfold decodeAdvance
  split <;> rfl

/-- The four ends of a DECODE scan step in bounds: the sentinel, the full buffer, a byte stored, a bit shifted in. -/
theorem decodeShifted_cases (cb : Byte) (s : State) :
    (s.bitIdx = 7#3 ∧ cb = sentinel ∧ decodeShifted cb s = setSt .foundTerminator (setRunning 0#8 0#3 s)) ∨
    (s.bitIdx = 7#3 ∧ s.olen.toNat = s.cfg.mcap ∧ decodeShifted cb s = raiseFault .outFull s) ∨
    (s.bitIdx = 7#3 ∧ s.olen.toNat ≠ s.cfg.mcap ∧
      decodeShifted cb s = decodeAdvance (setRunning 0#8 0#3 (appendOut cb s))) ∨
    (s.bitIdx ≠ 7#3 ∧ decodeShifted cb s = decodeAdvance (setRunning cb (s.bitIdx + 1#3) s)) := by
  by_cases h7 : s.bitIdx = 7#3
  · by_cases hcb : cb = sentinel
    · exact .inl ⟨h7, hcb, decodeShifted_found h7 hcb⟩
    by_cases hfull : s.olen.toNat = s.cfg.mcap
    · exact .inr (.inl ⟨h7, hfull, decodeShifted_full h7 hcb hfull⟩)
    · exact .inr (.inr (.inl ⟨h7, hfull, decodeShifted_store h7 hcb hfull⟩))
  · exact .inr (.inr (.inr ⟨h7, decodeShifted_shift h7⟩))

/-- All that a DECODE scan step may write, in every state. -/
theorem decodeScanStep_frame {s t : State} (h : decodeScanStep s = .next t) :
    t = { s with msgout := t.msgout, olen := t.olen, x := t.x, y := t.y, bitIdx := t.bitIdx, curByte := t.curByte,
                 st := t.st, fcause := t.fcause } := by
  rcases decodeScanStep_cases h with rfl | ⟨-, -, rfl⟩
  · rfl
  rcases decodeShifted_cases (shiftIn s.curByte (extractBit (pixelAt s.grid s.x.toNat s.y.toNat).blue)) s with
    ⟨-, -, heq⟩ | ⟨-, -, heq⟩ | ⟨-, -, heq⟩ | ⟨-, heq⟩
  · rw [heq]; rfl
  · rw [heq]; rfl
  · rw [heq, decodeAdvance_frame]; rfl
  · rw [heq, decodeAdvance_frame]; rfl

/-- Settles O15: the registers by the step's frame; a step that changes MSGOUT stores one cell at OLEN, and OLEN grows. -/
theorem decodeScanStepFrame : Obligations.DecodeScanStepFrame := by
  intro s v t hturn hst h
  rw [hturn.step] at h
  obtain ⟨-, -, -, -, -, -, -, -, -, hmsgout, -⟩ := engineStep_frame h
  rw [engineStep_decBusy hst] at h
  refine ⟨decodeScanStep_frame h, fun i hi => ?_, fun holen => ?_⟩
  · by_cases hsame : t.msgout = v.msgout
    · rw [hsame]
    · obtain ⟨-, -, hcells⟩ := hmsgout hsame
      exact hcells i hi
  · by_contra hne
    obtain ⟨-, hgrown, -⟩ := hmsgout hne
    rw [holen] at hgrown
    bv_omega

end Sys2Proof.Machine

/-! PROOFS of the family other, the owners: who writes each part of the machine (10_state R11 to R19). -/

namespace Sys2Proof.Machine

open Sys2Proof

/-! ## Who writes each part of the machine (10_state R11 to R19) -/

/-- What a host access other than a reset or a command can change at most: no register but MLEN, and no MSGOUT cell. -/
def HostAccessFrame (s t : State) : Prop :=
  t = { s with grid := t.grid, msgin := t.msgin, mlen := t.mlen, st := t.st, fcause := t.fcause, script := t.script,
               replies := t.replies, freeCtr := t.freeCtr }

theorem SameMachine.grid {s t : State} (h : SameMachine s t) : t.grid = s.grid := by rw [h]

theorem SameMachine.hostAccessFrame {s t : State} (h : SameMachine s t) : HostAccessFrame s t := by
  rw [h]
  rfl

theorem HostAccessFrame.trans {s t u : State} (h : HostAccessFrame s t) (h' : HostAccessFrame t u) :
    HostAccessFrame s u := by
  unfold HostAccessFrame at *
  rw [h', h]

/-- Who can write a register but MLEN: the engine in its turn, reset, and a command. -/
theorem step_writer {s t : State} (h : step s = .next t) :
    (∃ u, EngineTurn s u ∧ engineStep u = .next t) ∨
    (∃ rest, s.script = .reset :: rest ∧ t = applyReset (setScript rest s)) ∨
    (ready s = true ∧ ∃ i rest u, SameMachine s u ∧ s.script = startMove i :: rest ∧ exec i u = .next t) ∨
    HostAccessFrame s t := by
  rcases step_effect h with hengine | hreset | hsame | hcmd | ⟨-, u, hu, rfl⟩ | ⟨-, v, rest, u, hu, -, rfl⟩ |
    ⟨-, a, v, rest, u, hu, -, -, b, rfl⟩ | ⟨-, m, rest, u, g, hu, -, -, rfl⟩
  · exact .inl hengine
  · exact .inr (.inl hreset)
  · exact .inr (.inr (.inr hsame.hostAccessFrame))
  · exact .inr (.inr (.inl hcmd))
  all_goals exact .inr (.inr (.inr (hu.hostAccessFrame.trans rfl)))

section Owners

variable {s t : State} (h : step s = .next t)
include h

theorem step_msgin : t.msgin = s.msgin ∨
    (ready s = true ∧ ∃ a v rest, s.script = .write a v :: rest ∧ a.space = 1#2) := by
  rcases step_effect h with ⟨u, hu, he⟩ | ⟨rest, -, rfl⟩ | hsame | ⟨-, i, rest, u, hu, -, he⟩ | ⟨-, u, hu, rfl⟩ |
    ⟨-, v, rest, u, hu, -, rfl⟩ | ⟨hr, a, v, rest, u, -, hs, hsp, -⟩ | ⟨-, m, rest, u, g, hu, -, -, rfl⟩
  · exact .inl ((engineStep_mlen_msgin he).2.trans hu.sameMachine.msgin)
  · exact .inl rfl
  · exact .inl hsame.msgin
  · obtain ⟨-, -, hmsgin, -⟩ := exec_frame he
    exact .inl (hmsgin.trans hu.msgin)
  · exact .inl hu.msgin
  · exact .inl hu.msgin
  · exact .inr ⟨hr, a, v, rest, hs, hsp⟩
  · exact .inl hu.msgin

theorem step_mlen (hno : ∀ rest, s.script ≠ .reset :: rest) : t.mlen = s.mlen ∨
    (ready s = true ∧ ∃ v rest, s.script = .write (regAddr .mlen) v :: rest ∧ t.mlen = v) := by
  rcases step_effect h with ⟨u, hu, he⟩ | ⟨rest, hs, -⟩ | hsame | ⟨-, i, rest, u, hu, -, he⟩ | ⟨-, u, hu, rfl⟩ |
    ⟨hr, v, rest, u, -, hs, rfl⟩ | ⟨-, a, v, rest, u, hu, -, -, b, rfl⟩ | ⟨-, m, rest, u, g, hu, -, -, rfl⟩
  · exact .inl ((engineStep_mlen_msgin he).1.trans hu.sameMachine.mlen)
  · exact absurd hs (hno rest)
  · exact .inl hsame.mlen
  · obtain ⟨-, -, -, -, hmlen, -⟩ := exec_frame he
    exact .inl (hmlen.trans hu.mlen)
  · exact .inl hu.mlen
  · exact .inr ⟨hr, v, rest, hs, rfl⟩
  · exact .inl hu.mlen
  · exact .inl hu.mlen

theorem step_msgout : t.msgout = s.msgout ∨ ((∃ v, EngineTurn s v) ∧ s.st = .decBusy ∧ t.olen = s.olen + 1 ∧
    ∀ i, i ≠ s.olen.toNat → cellsFind t.msgout i = cellsFind s.msgout i) := by
  rcases step_writer h with ⟨u, hu, he⟩ | ⟨rest, -, rfl⟩ | ⟨-, i, rest, u, hu, -, he⟩ | hframe
  · obtain ⟨-, -, -, -, -, -, -, -, -, hmsgout, -⟩ := engineStep_frame he
    rw [hu.sameMachine] at hmsgout
    exact (eq_or_ne _ _).imp_right fun hne => ⟨⟨u, hu⟩, hmsgout hne⟩
  · exact .inl rfl
  · obtain ⟨-, -, -, hmsgout, -⟩ := exec_frame he
    rw [hu] at hmsgout
    exact .inl hmsgout
  · rw [hframe]
    exact .inl rfl

theorem step_capacity (hno : ∀ rest, s.script ≠ .reset :: rest) : (t.avail = s.avail ∧ t.req = s.req) ∨
    (ready s = true ∧ ∃ rest, s.script = startMove .encode :: rest) := by
  rcases step_writer h with ⟨u, hu, he⟩ | ⟨rest, hs, -⟩ | ⟨hr, i, rest, u, hu, hs, he⟩ | hframe
  · obtain ⟨-, -, -, havail, hreq, -⟩ := engineStep_frame he
    rw [hu.sameMachine] at havail hreq
    exact .inl ⟨havail, hreq⟩
  · exact absurd hs (hno rest)
  · cases i with
    | encode => exact .inr ⟨hr, rest, hs⟩
    | decode =>
      rw [execDecode_frame he, hu]
      exact .inl ⟨rfl, rfl⟩
  · rw [hframe]
    exact .inl ⟨rfl, rfl⟩

theorem step_olen (hno : ∀ rest, s.script ≠ .reset :: rest) : t.olen = s.olen ∨
    (ready s = true ∧ t.olen = 0 ∧ ∃ rest, s.script = startMove .decode :: rest) ∨
    ((∃ v, EngineTurn s v) ∧ s.st = .decBusy ∧ t.olen = s.olen + 1) := by
  rcases step_writer h with ⟨u, hu, he⟩ | ⟨rest, hs, -⟩ | ⟨hr, i, rest, u, hu, hs, he⟩ | hframe
  · obtain ⟨-, -, -, -, -, -, -, -, -, -, holen, -⟩ := engineStep_frame he
    rw [hu.sameMachine] at holen
    exact (eq_or_ne _ _).imp_right fun hne => .inr ⟨⟨u, hu⟩, holen hne⟩
  · exact absurd hs (hno rest)
  · obtain ⟨-, -, -, -, -, -, -, -, holen, -⟩ := exec_frame he
    rw [hu] at holen
    refine (eq_or_ne _ _).imp_right fun hne => .inl ?_
    obtain ⟨rfl, hzero⟩ := holen hne
    exact ⟨hr, hzero, rest, hs⟩
  · rw [hframe]
    exact .inl rfl

theorem step_dims (hno : ∀ rest, s.script ≠ .reset :: rest) : (t.wreg = s.wreg ∧ t.hreg = s.hreg) ∨
    (ready s = true ∧ t.wreg = s.grid.w ∧ t.hreg = s.grid.h ∧ ∃ i rest, s.script = startMove i :: rest) := by
  rcases step_writer h with ⟨u, hu, he⟩ | ⟨rest, hs, -⟩ | ⟨hr, i, rest, u, hu, hs, he⟩ | hframe
  · obtain ⟨-, -, -, -, -, hwreg, hhreg, -⟩ := engineStep_frame he
    rw [hu.sameMachine] at hwreg hhreg
    exact .inl ⟨hwreg, hhreg⟩
  · exact absurd hs (hno rest)
  · obtain ⟨-, -, -, -, -, -, -, -, -, hdims, -⟩ := exec_frame he
    rw [hu] at hdims
    by_cases hsame : t.wreg = s.wreg ∧ t.hreg = s.hreg
    · exact .inl hsame
    · obtain ⟨hw, hh⟩ := hdims (not_and_or.1 hsame)
      exact .inr ⟨hr, hw, hh, i, rest, hs⟩
  · rw [hframe]
    exact .inl ⟨rfl, rfl⟩

theorem step_cfg : t.cfg = s.cfg := by
  rcases step_writer h with ⟨u, hu, he⟩ | ⟨rest, -, rfl⟩ | ⟨-, i, rest, u, hu, -, he⟩ | hframe
  · obtain ⟨hcfg, -⟩ := engineStep_frame he
    rw [hcfg, hu.sameMachine]
  · rfl
  · obtain ⟨hcfg, -⟩ := exec_frame he
    rw [hcfg, hu]
  · rw [hframe]

theorem step_grid : t.grid = s.grid ∨
    ((∃ v, EngineTurn s v) ∧ s.st = .encBusy ∧ t.grid.w = s.grid.w ∧ t.grid.h = s.grid.h) ∨
    (busy s = false ∧ ∃ m rest, s.script = m :: rest ∧
      ((∃ g, m = .loadGrid g) ∨ (∃ x y b, m = .writeBlue x y b) ∨ (∃ x y o, m = .writeOther x y o))) := by
  rcases step_effect h with ⟨u, hu, he⟩ | ⟨rest, -, rfl⟩ | hsame | ⟨-, i, rest, u, hu, -, he⟩ | ⟨-, u, hu, rfl⟩ |
    ⟨-, v, rest, u, hu, -, rfl⟩ | ⟨-, a, v, rest, u, hu, -, -, b, rfl⟩ | ⟨hb, m, rest, u, g, -, hs, hm, -⟩
  · obtain ⟨-, -, -, -, -, -, -, -, -, -, -, hgrid⟩ := engineStep_frame he
    rw [hu.sameMachine] at hgrid
    exact (eq_or_ne _ _).imp_right fun hne => .inl ⟨⟨u, hu⟩, hgrid hne⟩
  · exact .inl rfl
  · exact .inl hsame.grid
  · obtain ⟨-, hgrid, -⟩ := exec_frame he
    exact .inl (hgrid.trans hu.grid)
  · exact .inl hu.grid
  · exact .inl hu.grid
  · exact .inl hu.grid
  · exact .inr (.inr ⟨hb, m, rest, hs, hm⟩)

end Owners

/-- Settles O38: each buffer is as before, or its owner wrote it. -/
theorem buffersAreWrittenOnlyByTheirOwner : Obligations.BuffersAreWrittenOnlyByTheirOwner :=
  fun _ _ h => ⟨(step_msgin h).resolve_left, (step_msgout h).resolve_left⟩

/-- Settles O39: each register is as before, or its owner wrote it. -/
theorem registersAreWrittenOnlyByTheirOwner : Obligations.RegistersAreWrittenOnlyByTheirOwner :=
  fun _ _ h hno => ⟨(step_mlen h hno).resolve_left, fun hne => (step_capacity h hno).resolve_left (not_and_or.2 hne),
    (step_olen h hno).resolve_left, fun hne => (step_dims h hno).resolve_left (not_and_or.2 hne)⟩

/-- Settles O40: GRID is as before, or its owner wrote it. -/
theorem gridIsWrittenOnlyByItsOwner : Obligations.GridIsWrittenOnlyByItsOwner :=
  fun _ _ h => ⟨step_cfg h, (step_grid h).resolve_left⟩

end Sys2Proof.Machine

/-! PROOFS of the family other, the memories: the canonical form, the host's reads (20_memory R50) and its moves on pixel
memory (44_host_port R159). -/

namespace Sys2Proof.Machine

open Sys2Proof

/-! ## The canonical form (log entry 11) -/

theorem gridWf_of_setBlue {c : Config} {g g' : Grid} {x y : Nat} {b : Byte} (hg : g.wf c)
    (h : setBlue g x y b = some g') : g'.wf c := by
  obtain ⟨hx, hy, rfl⟩ := setBlue_eq_some h
  exact gridWf_putPixel hg hx hy (pixelAt_other_lt hg x y)

/-- A well-formed grid lists no pixel beyond its last. -/
theorem pixelN_of_outside {c : Config} {g : Grid} (hg : g.wf c) {n : Nat} (hn : g.w.toNat * g.h.toNat ≤ n) :
    pixelN g n = Pixel.blank := by
  have hpix := hg.2.2
  simp only [Grid.pixWf, Bool.and_eq_true, List.all_eq_true, decide_eq_true_eq] at hpix
  unfold pixelN cellsRead
  cases hfind : cellsFind g.pix n with
  | none => rfl
  | some p =>
    have hlt : n < g.w.toNat * g.h.toNat := (hpix.2 _ (cellsFind_mem hfind)).1
    omega

/-- Two well-formed grids of one size are equal if their pixels, by coordinates, are: a pixel in bounds by its
coordinates, and beyond the last pixel both read blank. -/
theorem grid_ext_pixelAt {c : Config} {g g' : Grid} (hg : g.wf c) (hg' : g'.wf c) (hw : g.w = g'.w) (hh : g.h = g'.h)
    (h : ∀ x y, x < g.w.toNat → y < g.h.toNat → pixelAt g x y = pixelAt g' x y) : g = g' := by
  refine grid_ext hg hg' hw hh fun n => ?_
  rcases Nat.lt_or_ge n (g.w.toNat * g.h.toNat) with hin | hout
  · obtain ⟨hx, hy⟩ := mod_lt_div_lt hin
    have hn := h _ _ hx hy
    rwa [pixelAt_eq_pixelN, pixelAt_eq_pixelN, ← hw, linearIndex_mod_div] at hn
  · rw [pixelN_of_outside hg hout, pixelN_of_outside hg' (by rwa [← hw, ← hh])]

/-- Settles O19: the laws of the sparse memory and of pixel memory. -/
theorem memoriesStayCanonical : Obligations.MemoriesStayCanonical :=
  ⟨fun _ _ _ b hm hi => memWf_write b hm hi, fun m i j b => cellsFind_memWrite m i j b,
    fun _ _ _ _ _ _ hg h => gridWf_of_setBlue hg h, fun _ _ _ hg hg' hw hh h => grid_ext_pixelAt hg hg' hw hh h⟩

/-! ## Host reads of message cells (20_memory R50, 93 U1, U2) -/

section Cells

variable {s : State} {a : HostAddr}

/-- What a mapped message address resolves to, and what a read of it answers where the cell holds no byte: the free value
to be drawn next. -/
theorem exists_target_of_unwritten (hi : a.index.toNat < s.cfg.mcap)
    (h : (a.space = 1#2 ∧ cellsFind s.msgin a.index.toNat = none) ∨
      (a.space = 2#2 ∧ cellsFind s.msgout a.index.toNat = none)) :
    ∃ tg, resolve s.cfg a = some tg ∧ readValue s tg = BitVec.ofNat 32 (Config.freeByte s.freeCtr).toNat := by
  rcases h with ⟨hsp, hcell⟩ | ⟨hsp, hcell⟩
  · exact ⟨_, resolve_msgin hsp hi, by rw [readValue, hcell, Option.getD_none, BitVec.ofNat_toNat]⟩
  · exact ⟨_, resolve_msgout hsp hi, by rw [readValue, hcell, Option.getD_none, BitVec.ofNat_toNat]⟩

/-- A performed read of a register or of a written cell draws no free value: it only answers. -/
theorem readTarget_answers {tg : Target} (hin : ∀ i, tg = .msgin i → (cellsFind s.msgin i).isSome = true)
    (hout : ∀ i, tg = .msgout i → (cellsFind s.msgout i).isSome = true) :
    readTarget s tg = reply (.data (readValue s tg)) s := by
  cases tg with
  | reg r => rfl
  | msgin i =>
    obtain ⟨b, hb⟩ := Option.isSome_iff_exists.1 (hin i rfl)
    rw [readValue_msgin hb]
    exact readCell_of_holds hb s
  | msgout i =>
    obtain ⟨b, hb⟩ := Option.isSome_iff_exists.1 (hout i rfl)
    rw [readValue_msgout hb]
    exact readCell_of_holds hb s

/-- A read of anything but a never-written cell that the port lets the host read has one answer, whatever moves are to
come and whatever was answered before. -/
theorem exists_answer (h : busy s = false → a.index.toNat < s.cfg.mcap →
      (a.space = 1#2 → (cellsFind s.msgin a.index.toNat).isSome = true) ∧
      (a.space = 2#2 → (cellsFind s.msgout a.index.toNat).isSome = true)) :
    ∃ r, ∀ l q, hostRead a { s with script := l, replies := q } = { s with script := l, replies := r :: q } := by
  by_cases href : ∀ tg, resolve s.cfg a = some tg → readAllowed s tg = false
  · exact ⟨.err, fun l q => hostRead_refused (s := { s with script := l, replies := q }) href⟩
  push Not at href
  obtain ⟨tg, htg, hallowed⟩ := href
  have hallowed : readAllowed s tg = true := by simpa using hallowed
  have hcells (hb : busy s = false) (hsp : a.space = 1#2 ∨ a.space = 2#2) :=
    h hb (index_lt_of_mapped (by simp [htg]) hsp)
  refine ⟨.data (readValue s tg), fun l q => ?_⟩
  rw [hostRead_performed (s := { s with script := l, replies := q }) htg hallowed]
  refine readTarget_answers (s := { s with script := l, replies := q }) (fun i e => ?_) (fun i e => ?_)
  · subst e
    obtain ⟨hsp, rfl⟩ := msgin_of_resolve htg
    exact (hcells ((readAllowed_iff.1 hallowed).resolve_right nofun) (.inl hsp)).1 hsp
  · subst e
    obtain ⟨hsp, rfl⟩ := msgout_of_resolve htg
    exact (hcells ((readAllowed_iff.1 hallowed).resolve_right nofun) (.inr hsp)).2 hsp

end Cells

/-- Settles O30: the read is performed, and its byte is the free value to be drawn next. -/
theorem unwrittenCellReadsSomeByte : Obligations.UnwrittenCellReadsSomeByte := by
  intro s a rest hs hb hi hcell
  obtain ⟨tg, htg, hvalue⟩ := exists_target_of_unwritten hi hcell
  have hstep := step_read_performed hs htg (readAllowed_of_not_busy hb tg)
  refine ⟨Config.freeByte s.freeCtr, _, hstep, sameMachine_of_step_read hs hstep, readTarget_script tg, ?_⟩
  rw [readTarget_replies, ← hvalue]
  rfl

/-! ## The host's moves on pixel memory (44_host_port R159) -/

/-- The host's moves on pixel memory. -/
def OnPixels (m : HostMove) : Prop :=
  (∃ g, m = .loadGrid g) ∨ (∃ x y b, m = .writeBlue x y b) ∨ (∃ x y o, m = .writeOther x y o) ∨
    (∃ x y, m = .readPixel x y)

section OnPixels

variable {s : State} {rest : List HostMove} {x y : Nat}

theorem onGrid_of_not_busy (hb : busy s = false) (k : StepResult) : onGrid s k = k :=
  if_neg (by simp [hb])

theorem step_onPixels_of_busy {m : HostMove} (hb : busy s = true) (hs : s.script = m :: rest) (hm : OnPixels m) :
    step s = .fault .gridRace := by
  rw [step_cons hs]
  rcases hm with ⟨g, rfl⟩ | ⟨x, y, b, rfl⟩ | ⟨x, y, o, rfl⟩ | ⟨x, y, rfl⟩ <;> exact if_pos hb

theorem step_loadGrid (hb : busy s = false) {g : Grid} (hs : s.script = .loadGrid g :: rest) (hg : g.wf s.cfg) :
    step s = .next (setGrid g (setScript rest s)) := by
  rw [step_cons hs]
  exact (onGrid_of_not_busy hb _).trans (if_pos hg)

theorem step_writeBlue (hb : busy s = false) {b : Byte} (hs : s.script = .writeBlue x y b :: rest)
    (hx : x < s.grid.w.toNat) (hy : y < s.grid.h.toNat) :
    step s = .next (setGrid (putPixel s.grid x y { pixelAt s.grid x y with blue := b }) (setScript rest s)) := by
  rw [step_cons hs]
  exact (onGrid_of_not_busy hb _).trans (if_pos ((inBounds_iff ..).2 ⟨hx, hy⟩))

theorem step_writeOther (hb : busy s = false) {o : Nat} (hs : s.script = .writeOther x y o :: rest)
    (hx : x < s.grid.w.toNat) (hy : y < s.grid.h.toNat) (ho : o < 2 ^ s.cfg.otherw) :
    step s = .next (setGrid (putPixel s.grid x y { pixelAt s.grid x y with other := o }) (setScript rest s)) := by
  rw [step_cons hs]
  exact (onGrid_of_not_busy hb _).trans (if_pos ⟨(inBounds_iff ..).2 ⟨hx, hy⟩, ho⟩)

theorem step_readPixel (hb : busy s = false) (hs : s.script = .readPixel x y :: rest) (hx : x < s.grid.w.toNat)
    (hy : y < s.grid.h.toNat) : step s = .next (reply (.pixel (pixelAt s.grid x y)) (setScript rest s)) := by
  rw [step_cons hs]
  exact (onGrid_of_not_busy hb _).trans (if_pos ((inBounds_iff ..).2 ⟨hx, hy⟩))

theorem sameMachine_of_step_readPixel (hs : s.script = .readPixel x y :: rest) {t : State} (h : step s = .next t) :
    SameMachine s t := by
  rw [step_cons hs] at h
  obtain ⟨-, h⟩ := onGrid_eq_next h
  rw [hostReadPixel_cases h]
  rfl

end OnPixels

/-- Settles O44: each host move on pixel memory tests BUSY first. -/
theorem hostOnGridWhileBusyStops : Obligations.HostOnGridWhileBusyStops :=
  fun _ _ _ hb hs hm => step_onPixels_of_busy hb hs hm

/-- Settles O43: while BUSY such a move has no next state; while not BUSY each is its own step, and a pixel write is seen
at its own coordinates only. -/
theorem hostMovesOnGridComplete : Obligations.HostMovesOnGridComplete := by
  refine ⟨fun s t m rest hb hs h => ?_, fun s rest hb => ⟨fun g hs hg => step_loadGrid hb hs hg,
    fun x y hx hy => ⟨fun b hs => ?_, fun o ho hs => ?_, fun hs => step_readPixel hb hs hx hy⟩⟩⟩
  · have hm : ¬ OnPixels m := fun hm => by
      rw [step_onPixels_of_busy hb hs hm] at h
      cases h
    unfold OnPixels at hm
    push Not at hm
    exact hm
  · refine ⟨_, step_writeBlue hb hs hx hy, rfl, rfl, fun x' y' hx' _ => ?_⟩
    simp only [pixelAt_putPixel _ hx hx', Prod.mk.injEq]
  · refine ⟨_, step_writeOther hb hs hx hy ho, rfl, rfl, fun x' y' hx' _ => ?_⟩
    simp only [pixelAt_putPixel _ hx hx', Prod.mk.injEq]

/-- Settles O42: a read, of the port or of a pixel, only answers, and its answer depends on the machine alone. -/
theorem readsHaveNoSideEffect : Obligations.ReadsHaveNoSideEffect := by
  refine ⟨fun _ _ _ _ hs h => sameMachine_of_step_read hs h, fun _ _ _ _ _ hs h => sameMachine_of_step_readPixel hs h,
    fun s a rest hs h => ?_, fun s x y rest hs hb hx hy => ?_⟩
  · obtain ⟨r, hr⟩ := exists_answer h
    have h1 := (step_read hs).trans (congrArg _ (hr (.read a :: rest) s.replies))
    have h2 : step { s with script := .read a :: rest, replies := r :: s.replies } = _ :=
      (step_read rfl).trans (congrArg _ (hr rest (r :: s.replies)))
    exact ⟨r, (run_succ h1 1).trans (run_one h2)⟩
  · have h1 := step_readPixel hb hs hx hy
    exact ⟨_, (run_succ h1 1).trans (run_one (step_readPixel hb rfl hx hy)), getBlue_of_inBounds hx hy⟩

end Sys2Proof.Machine

/-! PROOFS of the family other, runs: the statement MSG (30_encoding R74), WAIT (44_host_port R157), and the message that
does not come back whole (70_reset R205). -/

namespace Sys2Proof.Machine

open Sys2Proof

/-! ## The statement MSG (30_encoding R74) -/

/-- `t` is `s` after the writes of the bytes `bs` to MSGIN from index `i` on. -/
structure Loaded (s : State) (i : Nat) (bs : List Byte) (t : State) : Prop where
  same : t = { s with msgin := t.msgin, script := t.script, replies := t.replies }
  cells : ∀ j, cellsFind t.msgin j = if i ≤ j ∧ j < i + bs.length then bs[j - i]? else cellsFind s.msgin j

theorem msginAddr_index {i : Nat} (h : i < 2 ^ 32) : (msginAddr i).index.toNat = i := by
  rw [msginAddr, BitVec.toNat_ofNat, Nat.mod_eq_of_lt h]

/-- The write of one message byte, from a READY state. -/
theorem step_msginMove {s : State} {i : Nat} {b : Byte} {rest : List HostMove}
    (hs : s.script = .write (msginAddr i) (b.setWidth 32) :: rest) (hr : ready s = true) (hi : i < s.cfg.mcap)
    (hcap : s.cfg.mcap < 2 ^ 32) : step s = .next (setMsgin i b (reply .ok (setScript rest s))) := by
  have hidx : (msginAddr i).index.toNat = i := msginAddr_index (by omega)
  have hbyte : (b.setWidth 32).extractLsb' 0 8 = b := by
    rw [← BitVec.setWidth_eq_extractLsb' (by decide), BitVec.setWidth_setWidth_of_le _ (by decide), BitVec.setWidth_eq]
  rw [step_write_msgin hs hr rfl (by rwa [hidx]), hidx, hbyte]

/-- The writes of the bytes, one a step. -/
theorem run_msginMoves {bs : List Byte} {i : Nat} {s : State} {rest : List HostMove} (hr : ready s = true)
    (hfit : i + bs.length ≤ s.cfg.mcap) (hcap : s.cfg.mcap < 2 ^ 32) (hs : s.script = msginMoves i bs ++ rest) :
    ∃ t, run bs.length s = .next t ∧ t.script = rest ∧ Loaded s i bs t := by
  induction bs generalizing i s with
  | nil => exact ⟨s, rfl, hs, rfl, fun j => by rw [if_neg]; simp⟩
  | cons b bs ih =>
    rw [List.length_cons] at hfit
    have hstep := step_msginMove hs hr (by omega) hcap
    obtain ⟨t, ht, hscript, hsame, hcells⟩ :=
      ih (s := setMsgin i b (reply .ok (setScript (msginMoves (i + 1) bs ++ rest) s))) hr (by simpa using by omega) hcap rfl
    refine ⟨t, (run_succ hstep _).trans ht, hscript, by rw [hsame]; rfl, fun j => ?_⟩
    rw [hcells j, setMsgin_msgin, cellsFind_memWrite, List.length_cons]
    rcases Nat.lt_trichotomy j i with hlt | rfl | hgt
    · simp [show ¬ i + 1 ≤ j by omega, show ¬ i ≤ j by omega, hlt.ne]
    · simp
    · obtain ⟨d, rfl⟩ := Nat.exists_eq_add_of_lt hgt
      have htail : (b :: bs)[i + d + 1 - i]? = bs[i + d + 1 - (i + 1)]? := by
        rw [show i + d + 1 - i = d + 1 by omega, show i + d + 1 - (i + 1) = d by omega, List.getElem?_cons_succ]
      rw [htail, if_neg (show i + d + 1 ≠ i by omega)]
      exact if_congr (by omega) rfl rfl

/-- Settles O33: the bytes by induction on the message, then the write of MLEN. -/
theorem msgStatementLoadsTheMessage : Obligations.MsgStatementLoadsTheMessage := by
  intro s m rest hr hfit hcfg hs
  obtain ⟨-, -, -, -, -, hcap⟩ := hcfg
  rw [msgMoves, List.append_assoc] at hs
  obtain ⟨u, hu, hscript, hsame, hcells⟩ := run_msginMoves hr (by omega) (by omega) hs
  have hru : ready u = true := by rw [hsame]; exact hr
  have hstep := step_write_mlen hscript hru
  refine ⟨_, (run_add hu 1).trans (run_one hstep), ⟨?_, fun j hj => ?_⟩, rfl, fun j hj => ?_, by rw [hsame]; rfl⟩
  · exact (BitVec.toNat_ofNat ..).trans (Nat.mod_eq_of_lt (by omega))
  · exact (hcells j).trans (by simp [hj])
  · exact (hcells j).trans (by rw [if_neg]; omega)

/-! ## WAIT (44_host_port R157) -/

/-- The number of pixels a running operation has yet to visit. -/
def pixelsLeft (s : State) : Nat :=
  match s.st with
  | .encBusy => s.wreg.toNat * s.hreg.toNat - encVisited s
  | .decBusy => s.wreg.toNat * s.hreg.toNat - decVisited s
  | _ => 0

theorem pixelsLeft_encBusy {s : State} (h : s.st = .encBusy) :
    pixelsLeft s = s.wreg.toNat * s.hreg.toNat - encVisited s := by
  simp [pixelsLeft, h]

theorem pixelsLeft_decBusy {s : State} (h : s.st = .decBusy) :
    pixelsLeft s = s.wreg.toNat * s.hreg.toNat - decVisited s := by
  simp [pixelsLeft, h]

theorem pixelsLeft_of_not_busy {s : State} (h : busy s = false) : pixelsLeft s = 0 := by
  cases e : s.st <;> simp_all [pixelsLeft, busy]

theorem StateInv.pixelsLeft_le {s : State} (hi : StateInv s) : pixelsLeft s ≤ s.grid.w.toNat * s.grid.h.toNat := by
  cases hb : busy s with
  | false => rw [pixelsLeft_of_not_busy hb]; exact Nat.zero_le _
  | true =>
    rcases (busy_iff s).1 hb with he | hd
    · rw [pixelsLeft_encBusy he, (hi.enc he).wreg_grid, (hi.enc he).hreg_grid]
      exact Nat.sub_le _ _
    · rw [pixelsLeft_decBusy hd, (hi.dec hd).wreg_grid, (hi.dec hd).hreg_grid]
      exact Nat.sub_le _ _

/-- An ENCODE scan step ends the operation or leaves one pixel less. -/
theorem StateInv.pixelsLeft_encodeAdvance {s : State} (hi : StateInv s) (he : s.st = .encBusy) (p : Byte) :
    pixelsLeft (Machine.encodeAdvance (Machine.setGrid (embeddedGrid s p) s)) < pixelsLeft s := by
  have h := hi.enc he
  have hlt := h.visited_lt
  rw [pixelsLeft_encBusy he]
  by_cases hd : (bitNext s.byteIdx s.bitIdx).1 = s.req
  · rw [encodeAdvance_done (s := Machine.setGrid (embeddedGrid s p) s) hd, pixelsLeft_of_not_busy rfl]
    omega
  · rw [encodeAdvance_more (s := Machine.setGrid (embeddedGrid s p) s) hd,
      pixelsLeft_encBusy (by exact he)]
    have hcount := h.bitNext_count
    change s.wreg.toNat * s.hreg.toNat -
      (8 * (bitNext s.byteIdx s.bitIdx).1.toNat + (bitNext s.byteIdx s.bitIdx).2.toNat) < _
    omega

theorem decodeAdvance_ends_or_goes_on (s : State) : busy (decodeAdvance s) = false ∨
    decodeAdvance s = setXY (scanNext s.wreg.toNat s.x.toNat s.y.toNat) s := by
  by_cases hl : isLast s.wreg.toNat s.hreg.toNat s.x.toNat s.y.toNat = true
  · rw [decodeAdvance_last hl]
    exact .inl rfl
  · exact .inr (decodeAdvance_more hl)

/-- A DECODE scan step ends the operation, or one more bit has been shifted in. -/
theorem StateInv.decodeShifted_ends_or_counts {s : State} (hi : StateInv s) (hd : s.st = .decBusy) (cb : Byte) :
    busy (Machine.decodeShifted cb s) = false ∨
      ((Machine.decodeShifted cb s).st = .decBusy ∧ (Machine.decodeShifted cb s).wreg = s.wreg ∧
        (Machine.decodeShifted cb s).hreg = s.hreg ∧
        8 * (Machine.decodeShifted cb s).olen.toNat + (Machine.decodeShifted cb s).bitIdx.toNat =
          8 * s.olen.toNat + s.bitIdx.toNat + 1) := by
  rcases decodeShifted_cases cb s with ⟨-, -, heq⟩ | ⟨-, -, heq⟩ | ⟨h7, hroom, heq⟩ | ⟨h7, heq⟩
  · rw [heq]
    exact .inl rfl
  · rw [heq]
    exact .inl rfl
  · rw [heq]
    refine (decodeAdvance_ends_or_goes_on _).imp_right fun hmore => ?_
    rw [hmore]
    refine ⟨hd, rfl, rfl, ?_⟩
    change 8 * (s.olen + 1#32).toNat + 0 = _
    rw [(olen_succ hi hroom).1, (bitIdx_seven_iff _).1 h7]
    omega
  · rw [heq]
    refine (decodeAdvance_ends_or_goes_on _).imp_right fun hmore => ?_
    rw [hmore]
    refine ⟨hd, rfl, rfl, ?_⟩
    change 8 * s.olen.toNat + (s.bitIdx + 1#3).toNat = _
    rw [bitIdx_succ h7]
    rfl

/-- A DECODE scan step ends the operation or leaves one pixel less: while it runs, 8 * OLEN + BITIDX pixels were visited. -/
theorem StateInv.pixelsLeft_decodeShifted {s : State} (hi : StateInv s) (hd : s.st = .decBusy) (cb : Byte) :
    pixelsLeft (Machine.decodeShifted cb s) < pixelsLeft s := by
  have hlt := (hi.dec hd).visited_lt
  have hvisited := (hi.dec hd).visited_eq
  rw [pixelsLeft_decBusy hd]
  rcases hi.decodeShifted_ends_or_counts hd cb with hb | ⟨hst, hwreg, hhreg, hcount⟩
  · rw [pixelsLeft_of_not_busy hb]
    omega
  · rw [pixelsLeft_decBusy hst, ((hi.decodeShifted hd cb).dec hst).visited_eq, hcount, hwreg, hhreg]
    omega

/-- While BUSY an engine's turn has a next state, with fewer pixels left. -/
theorem StateInv.engineStep_pixelsLeft {s : State} (hi : StateInv s) (hb : busy s = true) :
    ∃ t, Machine.engineStep s = .next t ∧ pixelsLeft t < pixelsLeft s := by
  rcases (busy_iff s).1 hb with he | hd
  · obtain ⟨p, hp⟩ := (hi.enc he).payload
    rw [engineStep_encBusy he, encodeScanStep_scanning (hi.enc he) hp]
    exact ⟨_, rfl, hi.pixelsLeft_encodeAdvance he p⟩
  · rw [engineStep_decBusy hd, decodeScanStep_scanning (hi.dec hd)]
    exact ⟨_, rfl, hi.pixelsLeft_decodeShifted hd _⟩

/-- In a WAIT the operation ends before it runs out of pixels, and the WAIT stays. -/
theorem run_wait_ends {s : State} {rest : List HostMove} (hi : StateInv s) (hs : s.script = .wait :: rest) :
    ∃ k t, k ≤ pixelsLeft s ∧ run k s = .next t ∧ busy t = false ∧ t.script = .wait :: rest := by
  induction hn : pixelsLeft s using Nat.strong_induction_on generalizing s with
  | h n ih =>
    cases hb : busy s with
    | false => exact ⟨0, s, Nat.zero_le _, rfl, hb, hs⟩
    | true =>
      obtain ⟨u, hu, hlt⟩ := hi.engineStep_pixelsLeft hb
      obtain ⟨-, -, -, -, -, -, -, hscript, -⟩ := engineStep_frame hu
      have hturn : EngineTurn s s := .inr (.inr ⟨rest, hs, hb, rfl⟩)
      have hstep : step s = .next u := hturn.step.trans hu
      obtain ⟨k, t, hk, ht, hend⟩ := ih _ (hn ▸ hlt) (hi.step hstep) (hscript.trans hs) rfl
      exact ⟨k + 1, t, by omega, (run_succ hstep k).trans ht, hend⟩

/-- Settles O59: the operation ends within the pixels it has left, and one step more takes the WAIT off the script. -/
theorem waitAlwaysEnds : Obligations.WaitAlwaysEnds := by
  refine ⟨fun s rest hi hs => ?_, fun s rest hb hs => step_wait_idle hs hb,
    fun s v hturn hb => hturn.step.trans (engineStep_idle hb)⟩
  obtain ⟨k, t, hk, ht, hb, hscript⟩ := run_wait_ends hi hs
  have hleft := hi.pixelsLeft_le
  exact ⟨k + 1, _, by omega, (run_add ht 1).trans (run_one (step_wait_idle hscript hb)), hb, rfl⟩

/-! ## A message that holds the sentinel (70_reset R205, 95_test_vectors section 8 item 9) -/

/-- A 4 by 4 blank grid and the message 7E, the sentinel itself: an exact fit. -/
def sentinelMessage : State := { State.reset with grid := ⟨4, 4, []⟩, msgin := [(0, 0x7E#8)], mlen := 1 }

theorem startable_sentinelMessage : Startable sentinelMessage where
  inv := by
    have hgrid := stateInv_reset.setGrid rfl (g := ⟨4, 4, []⟩) (by decide)
    exact (hgrid.setMsgin rfl (i := 0) 0x7E#8 (by decide)).setMlen rfl 1
  isReady := rfl
  quiet := rfl

/-- The state a whole ENCODE leaves can be given the next command. -/
theorem startable_of_run_encode {s t : State} (hs : Startable s) {k : Nat}
    (h : run (k + 1) (s.withFetchWord 32 1) = .next t) (hdone : t.st = .encDone) : Startable t := by
  obtain ⟨u, -, hq, hrun⟩ := run_fetch_encode hs h
  exact ⟨(inv_of_run_encode hs h).1, by simp [ready, hdone], (run_quiet_frame hq hrun).1⟩

/-- A whole DECODE leaves no host move to come. -/
theorem script_of_run_decode {s t : State} (hs : Startable s) {k : Nat}
    (h : run (k + 1) (s.withFetchWord 32 2) = .next t) : t.script = [] := by
  obtain ⟨u, hstep, hrun⟩ := exists_step_of_run_succ h
  rw [step_fetch_decode hs.isReady] at hstep
  obtain ⟨-, -, -, -, -, hscript, -⟩ := exec_frame (i := .decode) hstep
  exact (run_quiet_frame (hscript.trans hs.quiet) hrun).1

/-- Refutes O60: the message 7E comes back as no byte at all, since the first byte recovered is the sentinel. -/
theorem not_everyMessageComesBackWhole : ¬ Obligations.EveryMessageComesBackWhole := by
  intro h
  have hs := startable_sentinelMessage
  have hm : HoldsMessage sentinelMessage [0x7E#8] := ⟨rfl, by decide⟩
  obtain ⟨t, ht, hdone, -⟩ := run_encode_done hs hm (by decide) (by decide) (by decide) (by decide)
  have hst := startable_of_run_encode hs ht hdone
  obtain ⟨u, hu, hfound, holen, -⟩ := decodeOfEncodeIsTheMessage sentinelMessage t t [0x7E#8] 0 hs hm (by decide)
    (by decide) (by decide) (by decide) ht hst rfl rfl rfl nofun
  have hidle := run_idle (script_of_run_decode hst hu) (by simp [busy, hfound]) 8
  have hwhole := h sentinelMessage t u [0x7E#8] hs hm (by decide) (by decide) (by decide) (by decide) ht
    ((run_add hu 8).trans hidle)
  exact absurd (holen.symm.trans hwhole) (by decide)

end Sys2Proof.Machine
